-- ==== Sys2Proof/Word.lean ====
section
/-! DEFINITION. The two word types of the strided plane copier: an 8-bit sample and a 32-bit register. -/

namespace Sys2Proof

/-- One sample, and one byte of memory (R8, R13). -/
abbrev Byte := BitVec 8

/-- One 32-bit register of the window, and one bus address (R8, R60). -/
abbrev Word := BitVec 32

end Sys2Proof
end

