-- ==== Sys2Proof/Config.lean ====
section
/-! DEFINITION. The free values of the model: what the spec calls unspecified, or leaves to the
implementation, without stopping the machine (93_implementation_defined.md, treatment `any value`).
Each is a constant without a body, applied to the draw number `State.draws`, so that no proof can
rest on any value of it. -/

namespace Sys2Proof.Config

/-- The byte at an address that a rule says holds an unspecified value (R25, R68, R77, R186, R211),
by draw number and address. Log 5. Safe: nothing constrains it. -/
opaque unspecifiedByte : Nat → Nat → Byte

/-- What a host reads from a layout register while the running command may already have written it
(R36: it observes "the layout registers after completion"), by draw number. Log 9. Safe. -/
opaque unspecifiedWord : Nat → Word

/-- Whether such a host already sees STATUS.LAYOUT_OVF, by draw number (R36, R38). Log 9. Safe. -/
opaque layoutOvfSeen : Nat → Bool

/-- Which of several faulting accesses ERR_ADDR reports, "unspecified" by R29 and R186, by draw
number. Log 6. Safe. -/
opaque faultPick : Nat → Nat

/-- Whether the engine reads the padding byte of a source extent at an address, as R67 allows, by
draw number and address. Log 6. Safe. -/
opaque readsPadding : Nat → Nat → Bool

/-- Whether a host's write to a byte of a running command's buffers survives (R77, I4), by draw
number. Log 8. Safe. -/
opaque hostWriteSurvives : Nat → Bool

end Sys2Proof.Config
end

