-- ==== Sys2Proof/Syntax.lean ====
section
/-! DEFINITION. The commands of the block, one constructor per row of opcode_table.json, with every
field of the command word (R91), the ones a command ignores included (log 16). -/

namespace Sys2Proof

/-- A format tag (R94); `fmt2` and `fmt3` are the tags no operation recognises, named as in R100. -/
inductive FmtTag where
  | i420
  | nv12
  | fmt2
  | fmt3
deriving DecidableEq, Repr

/-- A command (R90, R92). `tight` is TIGHT, `dst` DST_FMT, `src` SRC_FMT and `angle` ANGLE, in
degrees (R91, R95). The four commands without a tight mode have no `tight` (R93, R98). -/
inductive Instr where
  /-- COPY_PLANE, OP 1 (R121). -/
  | copyPlane (dst src : FmtTag) (angle : Nat)
  /-- INTERLEAVE_UV, OP 2 (R131). -/
  | interleaveUv (dst src : FmtTag) (angle : Nat)
  /-- ROTATE_PLANE, OP 3 (R146). -/
  | rotatePlane (dst src : FmtTag) (angle : Nat)
  /-- LAYOUT, OP 4 (R114). -/
  | layout (dst src : FmtTag) (angle : Nat)
  /-- IMAGE_COPY, OP 5 (R163). -/
  | imageCopy (tight : Bool) (dst src : FmtTag) (angle : Nat)
  /-- CONVERT_NV12, OP 6 (R165). -/
  | convertNv12 (tight : Bool) (dst src : FmtTag) (angle : Nat)
  /-- ROTATE, OP 7 (R170). -/
  | rotate (tight : Bool) (dst src : FmtTag) (angle : Nat)
deriving DecidableEq, Repr

end Sys2Proof
end

