-- ==== Sys2Proof/WellFormed.lean ====
section
/-! DEFINITION. Which terms of `Instr` are commands: the angle is the one field whose type is wider
than its 16 bits (R91, R95, R100: "a decimal angle 0 to 65535"). -/

namespace Sys2Proof

/-- An angle that the 16-bit ANGLE field holds (R95). -/
def angleFits (angle : Nat) : Bool := decide (angle < 2 ^ 16)

/-- The command can be written as a command word (R100). -/
def Instr.wellFormed : Instr → Bool
  | .copyPlane _ _ angle => angleFits angle
  | .interleaveUv _ _ angle => angleFits angle
  | .rotatePlane _ _ angle => angleFits angle
  | .layout _ _ angle => angleFits angle
  | .imageCopy _ _ _ angle => angleFits angle
  | .convertNv12 _ _ _ angle => angleFits angle
  | .rotate _ _ _ angle => angleFits angle

end Sys2Proof
end

