-- ==== Sys2Proof/Decode.lean ====
section
/-! DEFINITION. Decoding and encoding of command words (30_encoding.md R90 to R104). A command is one
32-bit word; on a byte-addressed bus its byte at offset +0 holds bits 7:0 (R35). -/

namespace Sys2Proof

/-- Why a list of bytes is not a legal command (R98). -/
inductive DecodeReject where
  /-- Not the four bytes of one CMD word (R90, R104). -/
  | wrongLength
  /-- A reserved bit of bits 7:5, 11:10 or 15:14 is set. -/
  | reservedBits
  /-- OP is 0x0 or 0x8 to 0xF. -/
  | illegalOp
  /-- TIGHT = 1 with OP 0x1 to 0x4. -/
  | tightPrimitive
deriving DecidableEq, Repr

/-- `v[hi:lo]` of R9: bits hi down to lo, read as an unsigned number. -/
def bits (hi lo : Nat) (v : Word) : Nat := v.toNat / 2 ^ lo % 2 ^ (hi - lo + 1)

/-- The tag of a two-bit format field (R94). -/
def tagOfBits : Nat → FmtTag
  | 0 => .i420
  | 1 => .nv12
  | 2 => .fmt2
  | _ => .fmt3

/-- The two-bit field of a format tag (R94). -/
def bitsOfTag : FmtTag → Nat
  | .i420 => 0
  | .nv12 => 1
  | .fmt2 => 2
  | .fmt3 => 3

/-- The decoder of R99, total on any 32-bit word. -/
def decodeWord (c : Word) : Except DecodeReject Instr :=
  if bits 7 5 c ≠ 0 ∨ bits 11 10 c ≠ 0 ∨ bits 15 14 c ≠ 0 then .error .reservedBits
  else
    let t := bits 4 4 c == 1
    let d := tagOfBits (bits 9 8 c)
    let s := tagOfBits (bits 13 12 c)
    let a := bits 31 16 c
    match bits 3 0 c with
    | 1 => if t then .error .tightPrimitive else .ok (.copyPlane d s a)
    | 2 => if t then .error .tightPrimitive else .ok (.interleaveUv d s a)
    | 3 => if t then .error .tightPrimitive else .ok (.rotatePlane d s a)
    | 4 => if t then .error .tightPrimitive else .ok (.layout d s a)
    | 5 => .ok (.imageCopy t d s a)
    | 6 => .ok (.convertNv12 t d s a)
    | 7 => .ok (.rotate t d s a)
    | _ => .error .illegalOp

/-- The 32-bit word of four bytes, the byte at offset +0 first and least significant (R35). -/
def wordOfBytes (b0 b1 b2 b3 : Byte) : Word :=
  BitVec.ofNat 32 (b0.toNat + b1.toNat * 2 ^ 8 + b2.toNat * 2 ^ 16 + b3.toNat * 2 ^ 24)

/-- The four bytes of a 32-bit word, the byte at offset +0 first (R35). -/
def bytesOfWord (w : Word) : List Byte :=
  [BitVec.ofNat 8 (bits 7 0 w), BitVec.ofNat 8 (bits 15 8 w),
   BitVec.ofNat 8 (bits 23 16 w), BitVec.ofNat 8 (bits 31 24 w)]

/-- The decoder on bytes: one CMD word and nothing else (R90, R104). -/
def decode : List Byte → Except DecodeReject Instr
  | [b0, b1, b2, b3] => decodeWord (wordOfBytes b0 b1 b2 b3)
  | _ => .error .wrongLength

/-- `OP | TIGHT << 4 | DST_FMT << 8 | SRC_FMT << 12 | ANGLE << 16` of R100, as a sum: the fields do
not overlap. -/
def commandWord (op : Nat) (tight : Bool) (dst src : FmtTag) (angle : Nat) : Word :=
  BitVec.ofNat 32
    (op + tight.toNat * 2 ^ 4 + bitsOfTag dst * 2 ^ 8 + bitsOfTag src * 2 ^ 12 + angle * 2 ^ 16)

/-- The command word of a well-formed command (R92, R100). -/
def encodeWord : Instr → Word
  | .copyPlane dst src angle => commandWord 1 false dst src angle
  | .interleaveUv dst src angle => commandWord 2 false dst src angle
  | .rotatePlane dst src angle => commandWord 3 false dst src angle
  | .layout dst src angle => commandWord 4 false dst src angle
  | .imageCopy tight dst src angle => commandWord 5 tight dst src angle
  | .convertNv12 tight dst src angle => commandWord 6 tight dst src angle
  | .rotate tight dst src angle => commandWord 7 tight dst src angle

/-- The bytes of a well-formed command (R35, R100). -/
def encode (i : Instr) : List Byte := bytesOfWord (encodeWord i)

/-- The CMD word whose low `nbits` bits are those of `w` and whose other bits are 0. -/
def tableWord (nbits w : Nat) : Word := BitVec.ofNat 32 (w % 2 ^ nbits)

/-- The command of a decoding that did not fail. -/
def accepted : Except DecodeReject Instr → Option Instr
  | .ok i => some i
  | .error _ => none

/-- The command this decoder reads from the word that opcode_table.json numbers `w`. -/
def decodeTableWord (nbits w : Nat) : Option Instr :=
  accepted (decode (bytesOfWord (tableWord nbits w)))

end Sys2Proof
end

