-- ==== Sys2Proof/Machine/State.lean ====
section
/-! DEFINITION. The types of the machine and its state as plain data (10_state.md, 20_memory.md R60),
with the state after reset (70_reset_and_hazards.md R210). -/

namespace Sys2Proof.Machine

open Sys2Proof

/-! ### The registers -/

/-- The six buffer descriptors, slots 0 to 5 in this order (R21). -/
inductive SlotId where
  | src0
  | src1
  | src2
  | dst0
  | dst1
  | dst2
deriving DecidableEq, Repr

/-- A slot's three registers (R32). -/
structure Slot where
  /-- ADDRn, `uint32`: the address of the plane's first byte. -/
  addr : Word
  /-- LENn, `uint32`: the bytes the buffer holds from ADDRn on. -/
  len : Word
  /-- STRIDEn, `sint32`: the row pitch in bytes. -/
  stride : Word
deriving DecidableEq, Repr

/-- The six slots (R21). -/
structure Slots where
  src0 : Slot
  src1 : Slot
  src2 : Slot
  dst0 : Slot
  dst1 : Slot
  dst2 : Slot
deriving DecidableEq, Repr

/-- The layout result registers L_CW to L_TOTAL (R31). -/
structure LayoutRegs where
  cw : Word
  ch : Word
  outW : Word
  outH : Word
  yOff : Word
  yStride : Word
  uOff : Word
  uStride : Word
  vOff : Word
  vStride : Word
  total : Word
deriving DecidableEq, Repr

/-- The values of STATUS.ERR that are ever produced (R182; I19: 7 to 15 never are). -/
inductive ErrCode where
  | none
  | invalidDimensions
  | bufferTooSmall
  | unsupportedAngle
  | unsupportedFormat
  | illegalCommand
  | busError
deriving DecidableEq, Repr

/-- The stored registers of the window (R21). ID is a constant, CTRL.START and CTRL.SOFT_RESET are
actions that read 0, and STATUS.BUSY is the engine's phase (R22, R23, R36). -/
structure Registers where
  /-- CTRL.IRQ_EN (R26). -/
  irqEn : Bool
  /-- STATUS.DONE (R27). -/
  done : Bool
  /-- STATUS.LAYOUT_OVF (R27, R113). -/
  layoutOvf : Bool
  /-- STATUS.ERR (R27, R182). -/
  err : ErrCode
  /-- STATUS.ERR_SLOT, three bits (R27, R181). -/
  errSlot : BitVec 3
  /-- ERR_ADDR (R29). -/
  errAddr : Word
  /-- CMD (R30, R91). -/
  cmd : Word
  /-- WIDTH (R30). -/
  width : Word
  /-- HEIGHT (R30). -/
  height : Word
  /-- The slot registers (R32). -/
  slots : Slots
  /-- The layout result registers (R31). -/
  layout : LayoutRegs
deriving DecidableEq, Repr

/-- A register of the window, by name (R21). -/
inductive Reg where
  | id
  | ctrl
  | status
  | errAddr
  | cmd
  | width
  | height
  | slotAddr (n : SlotId)
  | slotLen (n : SlotId)
  | slotStride (n : SlotId)
  | lCw
  | lCh
  | lOutW
  | lOutH
  | lYOff
  | lYStride
  | lUOff
  | lUStride
  | lVOff
  | lVStride
  | lTotal
deriving DecidableEq, Repr

/-! ### The engine -/

/-- The parameters latched at START (R24, R90). -/
structure Params where
  cmd : Word
  width : Word
  height : Word
  slots : Slots
deriving DecidableEq, Repr

/-- The engine's phase (R36). -/
inductive Engine where
  /-- IDLE: no command is latched and no access is in flight (R210). -/
  | idle
  /-- BUSY with the latched parameters. `interfered` is the model's own: a host's access has already
  made the command's write footprint unspecified at completion (R77, R78; log 4). -/
  | busy (latched : Params) (interfered : Bool)
deriving DecidableEq, Repr

/-- The errors a command can end with, each with what the completion step records (R181, R182). -/
inductive CommandError where
  | invalidDimensions
  | bufferTooSmall (slot : SlotId)
  | unsupportedAngle
  | unsupportedFormat
  | illegalCommand
  | busError (addr : Nat)
deriving DecidableEq, Repr

/-! ### Plane geometry -/

/-- The width and height of a plane or image, after the dimension check (R96, R160). -/
structure Dims where
  w : Nat
  h : Nat
deriving DecidableEq, Repr

/-- A plane view: base address, row pitch, row width and rows (R12). -/
structure View where
  addr : Nat
  stride : Nat
  width : Nat
  height : Nat
deriving DecidableEq, Repr

/-- A range of memory addresses. -/
structure Region where
  base : Nat
  size : Nat
deriving DecidableEq, Repr

/-- One byte move: `MemWrite(dst, 1, MemRead(src, 1))` (R11, R120). -/
structure Move where
  dst : Nat
  src : Nat
deriving DecidableEq, Repr

/-- What a command that passed its checks does to memory: its byte moves in the reference order
(R120, R130, R145; D18), its source views and its destination views (R65, R66). -/
structure Plan where
  moves : List Move
  sources : List View
  dests : List View
deriving DecidableEq, Repr

/-- The views of an I420 image's Y, U and V planes (R160, R161). -/
structure Planes where
  y : View
  u : View
  v : View
deriving DecidableEq, Repr

/-- The record `Layout(fmt, W, H)` of R111, in exact integers. -/
structure TightLayout where
  cw : Nat
  ch : Nat
  outW : Nat
  outH : Nat
  yOff : Nat
  yStride : Nat
  uOff : Nat
  uStride : Nat
  vOff : Nat
  vStride : Nat
  total : Nat
deriving DecidableEq, Repr

/-- An accepted rotation, clockwise (R95, R140). -/
inductive Rotation where
  | r0
  | r90
  | r180
  | r270
deriving DecidableEq, Repr

/-- What a command's checks decide before it touches memory: the layout it writes, if it gets that
far, and its first error or its plan (R162, R183). -/
structure Work where
  layout : Option TightLayout
  plan : Except CommandError Plan

/-! ### The world around the block -/

/-- The two kinds of memory access (R11). -/
inductive AccessKind where
  | read
  | write
deriving DecidableEq, Repr

/-- The memory faults accesses of one kind in one region (R61; log 2). -/
structure FaultRule where
  kind : AccessKind
  region : Region
deriving DecidableEq, Repr

/-- The platform's parameters, which no step changes (R8, R72, R78; log 3). -/
structure Platform where
  /-- REG_BASE: where the register window stands in the host's address map. -/
  regBase : Word
  /-- The device regions of the memory space. -/
  devices : List Region
  /-- COHERENT: host caches are coherent with the engine's memory port. -/
  coherent : Bool
  /-- A line of the hosts' caches holds 2 ^ lineBits bytes; of use where `coherent` is false (R78; log
  10). -/
  lineBits : Nat
deriving DecidableEq, Repr

/-- What the agents around the engine do, one access or action each (log 12). -/
inductive Event where
  /-- The engine takes its turn: a running command runs to its end (R180). -/
  | engineTurn
  /-- A host writes a register: byte offset, access width in bytes, value (R21, R35). -/
  | regWrite (offset bytes : Nat) (value : Word)
  /-- A host reads a register: byte offset, access width in bytes (R21, R35). -/
  | regRead (offset bytes : Nat)
  /-- A host looks at the output `irq` (R39, R76). -/
  | irqRead
  /-- A host writes a byte of memory, through its cache (R74, R77, R78). -/
  | memWrite (addr : Word) (value : Byte)
  /-- A host reads a byte of memory, through its cache (R74, R77, R78). -/
  | memRead (addr : Word)
  /-- Another bus master, such as another instance of the block, writes a byte of memory; it has no
  host cache (R77, R82; log 21). -/
  | busWrite (addr : Word) (value : Byte)
  /-- Another bus master reads a byte of memory; it has no host cache (R77, R82; log 21). -/
  | busRead (addr : Word)
  /-- A host cleans its cache over a region (R78). -/
  | cacheClean (region : Region)
  /-- A host invalidates its cache over a region (R78). -/
  | cacheInvalidate (region : Region)
  /-- The reset input is asserted (R210). -/
  | resetInput
  /-- From here on the memory faults exactly the accesses these rules name (R61). -/
  | memoryFaults (rules : List FaultRule)
deriving DecidableEq, Repr

/-- Memory: the bytes that differ from what an unlisted address reads as, by rising address. -/
abbrev Memory := List Host.Cell

/-- What an address that is not listed reads as. DESIGN CHOICE (the spec gives no contents at
power-on), unsafe: a claim could rest on this zero (log 1). -/
def Memory.unlisted : Byte := 0x00

/-! ### The state -/

/-- The state of one block and of the world it can observe (R20). -/
structure State where
  /-- The register window (R21). -/
  regs : Registers
  /-- The engine's phase and the latched parameters (R36). -/
  engine : Engine
  /-- The shared memory (R60). -/
  mem : Memory
  /-- MODEL'S OWN: the platform's parameters (log 3). -/
  platform : Platform
  /-- MODEL'S OWN: which accesses of the engine the memory faults now (log 2). -/
  busFaults : List FaultRule
  /-- MODEL'S OWN: bytes a host wrote into its cache and has not cleaned (log 10). -/
  uncleaned : List Nat
  /-- MODEL'S OWN: bytes that the engine, or another bus master, wrote and that a host has neither
  invalidated nor written since (log 10, log 21). -/
  stale : List Nat
  /-- MODEL'S OWN: the buffers of the ended commands whose end no host has seen yet (R76, R77; log
  7). -/
  unseen : List Plan
  /-- MODEL'S OWN: what the agents around the engine do next (log 12). -/
  inbox : List Event
  /-- MODEL'S OWN: the value the last read of a host or another bus master returned (log 15). -/
  readData : Word
  /-- MODEL'S OWN: the draw number of the next free value (log 5). -/
  draws : Nat
deriving DecidableEq, Repr

/-- Why a run stops with a fault. The block has no trap and nothing stops it: an error ends the
command with a code in STATUS, and the machine goes on (R180, R190). So there is no constructor,
and no step answers a fault (log 19). -/
inductive Fault
deriving DecidableEq, Repr

/-- Why the model gives a situation no meaning. -/
inductive Refusal where
  /-- Raised by an arm of `exec` whose command has no meaning yet. Safe. -/
  | notModelled (mnemonic : String)
  /-- Raised by the engine's turn, and by a reset that abandons a command, when a source extent or
  the write footprint of the command meets a device region or the register window: "a model
  refuses" (R67, I7; log 13). Safe. -/
  | deviceBuffer
  /-- Raised by a host's register access that is not 32 bits wide at a multiple of 4 inside the
  window: "A model refuses every other register access" (R35, I6; log 13). Safe. -/
  | registerAccess
  /-- Raised by a memory access of a host or another bus master to a device region, whose behaviour
  the spec does not give (R72; log 13). Safe. -/
  | deviceAccess
deriving DecidableEq, Repr

/-! ### Reset -/

/-- A slot after reset (R210). -/
def Slot.reset : Slot := { addr := 0, len := 0, stride := 0 }

/-- Every register after reset (R21, R210). -/
def Registers.reset : Registers :=
  { irqEn := false, done := false, layoutOvf := false, err := .none, errSlot := 0, errAddr := 0,
    cmd := 0, width := 0, height := 0,
    slots := { src0 := Slot.reset, src1 := Slot.reset, src2 := Slot.reset,
               dst0 := Slot.reset, dst1 := Slot.reset, dst2 := Slot.reset },
    layout := { cw := 0, ch := 0, outW := 0, outH := 0, yOff := 0, yStride := 0, uOff := 0,
                uStride := 0, vOff := 0, vStride := 0, total := 0 } }

/-- The platform of the reset state. DESIGN CHOICE, the spec leaves all of it open (log 3): no
statement may rest on these values. -/
def Platform.reset : Platform := { regBase := 0, devices := [], coherent := true, lineBits := 0 }

/-- The machine right after reset (R210). The fields from `platform` on are the model's own
(log 2, 3, 7, 10, 12, 15); memory lists nothing (log 1). -/
def State.reset : State :=
  { regs := Registers.reset, engine := .idle, mem := [], platform := Platform.reset,
    busFaults := [], uncleaned := [], stale := [], unseen := [], inbox := [],
    readData := 0, draws := 0 }

end Sys2Proof.Machine
end

