-- ==== Sys2Proof/Machine/Operands.lean ====
section
/-! DEFINITION. The operands of a command: signed and unsigned readings, the latched parameters, the
plane views, the buffer checks and the tight layout (R10, R12, R62 to R66, R96, R110 to R112, R160,
R161, R184, R185). Integers are exact (R10). -/

namespace Sys2Proof.Machine

open Sys2Proof

/-! ### Integers (R10) -/

/-- `uint32(r)`. -/
def uint32 (r : Word) : Nat := r.toNat

/-- `sint32(r)`. -/
def sint32 (r : Word) : Int := r.toInt

/-- `mod32(v)`, the value stored when an integer is written to a 32-bit register. -/
def mod32 (v : Nat) : Word := BitVec.ofNat 32 v

/-- `ceil_half(n)`. -/
def ceilHalf (n : Nat) : Nat := (n + 1) / 2

/-! ### Slots and latched parameters -/

/-- A slot's number, as ERR_SLOT records it (R21, R27). -/
def SlotId.number : SlotId → Nat
  | .src0 => 0
  | .src1 => 1
  | .src2 => 2
  | .dst0 => 3
  | .dst1 => 4
  | .dst2 => 5

/-- The registers of slot n (R21). -/
def Slots.get (slots : Slots) : SlotId → Slot
  | .src0 => slots.src0
  | .src1 => slots.src1
  | .src2 => slots.src2
  | .dst0 => slots.dst0
  | .dst1 => slots.dst1
  | .dst2 => slots.dst2

/-- The slots with slot n replaced. -/
def Slots.set (slots : Slots) (n : SlotId) (slot : Slot) : Slots :=
  match n with
  | .src0 => { slots with src0 := slot }
  | .src1 => { slots with src1 := slot }
  | .src2 => { slots with src2 := slot }
  | .dst0 => { slots with dst0 := slot }
  | .dst1 => { slots with dst1 := slot }
  | .dst2 => { slots with dst2 := slot }

/-- What START latches: CMD, WIDTH, HEIGHT and the six slots (R24). -/
def Registers.params (regs : Registers) : Params :=
  { cmd := regs.cmd, width := regs.width, height := regs.height, slots := regs.slots }

/-- The parameters a command reads: the latched ones while BUSY (R24, R36). When IDLE, no command
runs, and a meaning reads the registers, which START would latch (DESIGN CHOICE, log 14). -/
def State.params (s : State) : Params :=
  match s.engine with
  | .busy latched _ => latched
  | .idle => s.regs.params

/-! ### Plane views (R12, R62) -/

/-- The address of the byte at column x, row y (R12, R62). -/
def View.byteAddr (v : View) (x y : Nat) : Nat := v.addr + y * v.stride + x

/-- `View(n, pw, ph)`: the view of slot n for a plane of `pw` bytes by `ph` rows (R62). A stride that
passed R63 is positive, so that its reading as a natural number is exact. -/
def Params.view (p : Params) (n : SlotId) (pw ph : Nat) : View :=
  { addr := uint32 (p.slots.get n).addr, stride := (sint32 (p.slots.get n).stride).toNat,
    width := pw, height := ph }

/-- The bytes of a plane, row by row (R65, R66). -/
def View.footprint (v : View) : List Nat :=
  (List.range v.height).flatMap fun y => (List.range v.width).map fun x => v.byteAddr x y

/-- The extent `[A, A + S × ph)` of a slot's buffer (R13, R63). -/
def View.extent (v : View) : Region := { base := v.addr, size := v.stride * v.height }

/-- The address lies in the region. -/
def Region.contains (r : Region) (a : Nat) : Bool := decide (r.base ≤ a ∧ a < r.base + r.size)

/-- The two regions have an address in common. -/
def Region.meets (r t : Region) : Bool :=
  decide (max r.base t.base < min (r.base + r.size) (t.base + t.size))

/-- The addresses of a region, rising. -/
def Region.addrs (r : Region) : List Nat := (List.range r.size).map (r.base + ·)

/-- A command's read footprint: the union over its source views (R65). -/
def Plan.readFootprint (p : Plan) : List Nat := p.sources.flatMap View.footprint

/-- A command's write footprint: the union over its destination views (R66). -/
def Plan.writeFootprint (p : Plan) : List Nat := p.dests.flatMap View.footprint

/-- The address lies in one of the command's source extents or in its write footprint: the bytes
that R67 and R77 speak of. -/
def Plan.touches (p : Plan) (a : Nat) : Bool :=
  p.sources.any (fun v => v.extent.contains a) || p.writeFootprint.contains a

/-- One of the command's source extents, or its write footprint, has a byte in the region. -/
def Plan.meets (p : Plan) (r : Region) : Bool :=
  p.sources.any (fun v => v.extent.meets r) || p.writeFootprint.any r.contains

/-- The command's buffers: its source and destination views, without its moves. -/
def Plan.buffers (p : Plan) : Plan := { p with moves := [] }

/-- No address is in both lists. -/
def disjoint (xs ys : List Nat) : Bool := xs.all fun a => !ys.contains a

/-- The footprints of different views share no byte. -/
def pairwiseDisjoint : List View → Bool
  | [] => true
  | v :: vs => vs.all (fun u => disjoint v.footprint u.footprint) && pairwiseDisjoint vs

/-- R68: (a) the read and write footprints are disjoint, and (b) the destination views' footprints
are pairwise disjoint. -/
def Plan.separated (p : Plan) : Bool :=
  disjoint p.readFootprint p.writeFootprint && pairwiseDisjoint p.dests

/-! ### Checks before execution (R63, R64, R183 to R185) -/

/-- The dimension check of every legal command (R185), answering the dimensions. -/
def dimensions (p : Params) : Except CommandError Dims :=
  if sint32 p.width ≤ 0 ∨ sint32 p.height ≤ 0 then .error .invalidDimensions
  else .ok { w := (sint32 p.width).toNat, h := (sint32 p.height).toNat }

/-- A format check (R184). -/
def requireFormat (accepted : Bool) : Except CommandError Unit :=
  if accepted then .ok () else .error .unsupportedFormat

/-- The accepted angles (R95, R184). -/
def rotationOf (angle : Nat) : Except CommandError Rotation :=
  if angle = 0 then .ok .r0
  else if angle = 90 then .ok .r90
  else if angle = 180 then .ok .r180
  else if angle = 270 then .ok .r270
  else .error .unsupportedAngle

/-- `CheckSlot(n, pw, ph)` of R63: the stride test, the length test and the top-of-memory test, in
this order (R183). -/
def checkSlot (p : Params) (n : SlotId) (pw ph : Nat) : Except CommandError Unit :=
  let addr := uint32 (p.slots.get n).addr
  let len := uint32 (p.slots.get n).len
  let stride := sint32 (p.slots.get n).stride
  let extent := stride * (ph : Int)
  if stride < pw then .error (.bufferTooSmall n)
  else if extent > len then .error (.bufferTooSmall n)
  else if addr + extent > 2 ^ 32 then .error (.bufferTooSmall n)
  else .ok ()

/-- `CheckTight(T)` of R64. DST0_STRIDE is not read. -/
def checkTight (p : Params) (total : Nat) : Except CommandError Unit :=
  let addr := uint32 p.slots.dst0.addr
  let len := uint32 p.slots.dst0.len
  if total > len then .error (.bufferTooSmall .dst0)
  else if addr + total > 2 ^ 32 then .error (.bufferTooSmall .dst0)
  else .ok ()

/-! ### Image geometry (R110, R140, R160, R161) -/

/-- The chroma dimensions of an image (R110). -/
def Dims.chroma (d : Dims) : Dims := { w := ceilHalf d.w, h := ceilHalf d.h }

/-- The output dimensions of a rotation (R140). -/
def Dims.rotated (d : Dims) : Rotation → Dims
  | .r0 => d
  | .r90 => { w := d.h, h := d.w }
  | .r180 => d
  | .r270 => { w := d.h, h := d.w }

/-- `CheckSourceImage(W, H)` of R160. -/
def checkSourceImage (p : Params) (d : Dims) : Except CommandError Unit := do
  checkSlot p .src0 d.w d.h
  checkSlot p .src1 d.chroma.w d.chroma.h
  checkSlot p .src2 d.chroma.w d.chroma.h

/-- The views SY, SU and SV of the source image (R160). -/
def sourcePlanes (p : Params) (d : Dims) : Planes :=
  { y := p.view .src0 d.w d.h,
    u := p.view .src1 d.chroma.w d.chroma.h,
    v := p.view .src2 d.chroma.w d.chroma.h }

/-! ### The tight layout (R111, R112) -/

/-- `Layout(I420, W, H)` of R111. -/
def layoutI420 (d : Dims) : TightLayout :=
  let cw := d.chroma.w
  let ch := d.chroma.h
  let ysize := d.w * d.h
  { cw := cw, ch := ch, outW := d.w, outH := d.h,
    yOff := 0, yStride := d.w,
    uOff := ysize, uStride := cw,
    vOff := ysize + cw * ch, vStride := cw,
    total := ysize + 2 * cw * ch }

/-- `Layout(NV12, W, H)` of R111: the U entries describe the UV plane, and there is no V plane. -/
def layoutNv12 (d : Dims) : TightLayout :=
  let cw := d.chroma.w
  let ch := d.chroma.h
  let ysize := d.w * d.h
  { cw := cw, ch := ch, outW := d.w, outH := d.h,
    yOff := 0, yStride := d.w,
    uOff := ysize, uStride := 2 * cw,
    vOff := 0, vStride := 0,
    total := ysize + 2 * cw * ch }

/-- `TightViews(L, A)` of R112 for I420. -/
def tightViewsI420 (l : TightLayout) (addr : Nat) : Planes :=
  { y := { addr := addr + l.yOff, stride := l.yStride, width := l.outW, height := l.outH },
    u := { addr := addr + l.uOff, stride := l.uStride, width := l.cw, height := l.ch },
    v := { addr := addr + l.vOff, stride := l.vStride, width := l.cw, height := l.ch } }

/-- `TightViews(L, A)` of R112 for NV12: the Y view and the UV view. -/
def tightViewsNv12 (l : TightLayout) (addr : Nat) : View × View :=
  ({ addr := addr + l.yOff, stride := l.yStride, width := l.outW, height := l.outH },
   { addr := addr + l.uOff, stride := l.uStride, width := 2 * l.cw, height := l.ch })

/-! ### Destinations (R93, R161) -/

/-- The destination check of IMAGE_COPY and ROTATE for output dimensions `d`: the explicit slots DST0
to DST2, or one tight I420 buffer in DST0. -/
def checkI420Destination (p : Params) (tight : Bool) (d : Dims) : Except CommandError Unit :=
  if tight then checkTight p (layoutI420 d).total
  else do
    checkSlot p .dst0 d.w d.h
    checkSlot p .dst1 d.chroma.w d.chroma.h
    checkSlot p .dst2 d.chroma.w d.chroma.h

/-- The destination views of IMAGE_COPY and ROTATE for output dimensions `d`. -/
def i420Planes (p : Params) (tight : Bool) (d : Dims) : Planes :=
  if tight then tightViewsI420 (layoutI420 d) (uint32 p.slots.dst0.addr)
  else
    { y := p.view .dst0 d.w d.h,
      u := p.view .dst1 d.chroma.w d.chroma.h,
      v := p.view .dst2 d.chroma.w d.chroma.h }

/-- The destination check of CONVERT_NV12: the explicit slots DST0 and DST1, or one tight NV12 buffer
in DST0. -/
def checkNv12Destination (p : Params) (tight : Bool) (d : Dims) : Except CommandError Unit :=
  if tight then checkTight p (layoutNv12 d).total
  else do
    checkSlot p .dst0 d.w d.h
    checkSlot p .dst1 (2 * d.chroma.w) d.chroma.h

/-- The destination views of CONVERT_NV12: Y, then UV. -/
def nv12Planes (p : Params) (tight : Bool) (d : Dims) : View × View :=
  if tight then tightViewsNv12 (layoutNv12 d) (uint32 p.slots.dst0.addr)
  else (p.view .dst0 d.w d.h, p.view .dst1 (2 * d.chroma.w) d.chroma.h)

end Sys2Proof.Machine
end

