-- ==== Sys2Proof/Machine/Flags.lean ====
section
/-! DEFINITION. The flags: the STATUS word, the error codes, LAYOUT_OVF with the layout registers,
and the interrupt level (R23, R27, R38, R39, R113, R182). -/

namespace Sys2Proof.Machine

open Sys2Proof

/-- STATUS.BUSY: 1 exactly when the phase is BUSY (R27, R36). -/
def State.busy (s : State) : Bool :=
  match s.engine with
  | .busy _ _ => true
  | .idle => false

/-- The output `irq`: STATUS.DONE AND CTRL.IRQ_EN (R39, R188). -/
def State.irq (s : State) : Bool := s.regs.done && s.regs.irqEn

/-- The four-bit code of STATUS.ERR (R182). -/
def ErrCode.code : ErrCode → Nat
  | .none => 0
  | .invalidDimensions => 1
  | .bufferTooSmall => 2
  | .unsupportedAngle => 3
  | .unsupportedFormat => 4
  | .illegalCommand => 5
  | .busError => 6

/-- The code of an error (R182). -/
def CommandError.errCode : CommandError → ErrCode
  | .invalidDimensions => .invalidDimensions
  | .bufferTooSmall _ => .bufferTooSmall
  | .unsupportedAngle => .unsupportedAngle
  | .unsupportedFormat => .unsupportedFormat
  | .illegalCommand => .illegalCommand
  | .busError _ => .busError

/-- What the completion step writes to STATUS.ERR_SLOT: the failing slot of BUFFER_TOO_SMALL, and 0
for any other error (R181). -/
def CommandError.errSlot : CommandError → BitVec 3
  | .bufferTooSmall n => BitVec.ofNat 3 n.number
  | _ => 0

/-- What the completion step writes to ERR_ADDR: the faulting address of BUS_ERROR, and 0 for any
other error (R181). -/
def CommandError.errAddr : CommandError → Word
  | .busError addr => BitVec.ofNat 32 addr
  | _ => 0

/-- `BUSY | DONE << 1 | LAYOUT_OVF << 2 | ERR << 4 | ERR_SLOT << 8` of R27, as a sum: the fields do
not overlap. -/
def statusWord (busy done layoutOvf : Bool) (err : ErrCode) (errSlot : BitVec 3) : Word :=
  BitVec.ofNat 32
    (busy.toNat + done.toNat * 2 + layoutOvf.toNat * 2 ^ 2 + err.code * 2 ^ 4
      + errSlot.toNat * 2 ^ 8)

/-- A read of CTRL returns `IRQ_EN << 1` (R23). -/
def ctrlWord (irqEn : Bool) : Word := BitVec.ofNat 32 (irqEn.toNat * 2)

/-- The layout total does not fit 32 bits: the value of STATUS.LAYOUT_OVF (R113). -/
def TightLayout.overflows (l : TightLayout) : Bool := decide (l.total ≥ 2 ^ 32)

/-- The result registers of a layout, each value modulo 2^32 (R113). -/
def TightLayout.regs (l : TightLayout) : LayoutRegs :=
  { cw := mod32 l.cw, ch := mod32 l.ch, outW := mod32 l.outW, outH := mod32 l.outH,
    yOff := mod32 l.yOff, yStride := mod32 l.yStride,
    uOff := mod32 l.uOff, uStride := mod32 l.uStride,
    vOff := mod32 l.vOff, vStride := mod32 l.vStride, total := mod32 l.total }

/-- `WriteLayout(L)` of R113: the result registers and STATUS.LAYOUT_OVF. -/
def Registers.writeLayout (l : TightLayout) (regs : Registers) : Registers :=
  { regs with layout := l.regs, layoutOvf := l.overflows }

/-- The layout step of a command, for a command that reaches it (R31, R162 step 4). -/
def Registers.layoutStep : Option TightLayout → Registers → Registers
  | none, regs => regs
  | some l, regs => regs.writeLayout l

end Sys2Proof.Machine
end

