-- ==== Sys2Proof/Machine/Ops.lean ====
section
/-! DEFINITION. The shared operations: bytes of memory (R60, R61), unspecified footprints (R68, R77,
R186, R211), START and the completion step, which stand where other machines have exception return
and entry (R24, R181, R190, R191), and the run of a command's work (R180). -/

namespace Sys2Proof.Machine

open Sys2Proof

/-! ### Memory -/

/-- The byte at an address (R61). -/
def Memory.read : Memory → Nat → Byte
  | [], _ => Memory.unlisted
  | (b, w) :: m, a => if a = b then w else Memory.read m a

/-- Set the byte at an address (R61), keeping the canonical form. -/
def Memory.write : Memory → Nat → Byte → Memory
  | [], a, v => if v = Memory.unlisted then [] else [(a, v)]
  | (b, w) :: m, a, v =>
    if a < b then
      if v = Memory.unlisted then (b, w) :: m else (a, v) :: (b, w) :: m
    else if a = b then
      if v = Memory.unlisted then m else (a, v) :: m
    else (b, w) :: Memory.write m a v

/-- The canonical form: addresses strictly rising and inside the 2^32-byte space (R60), and no entry
equal to what an unlisted address reads as. -/
abbrev Memory.wf (m : Memory) : Prop :=
  m.Pairwise (fun c d => c.1 < d.1) ∧ ∀ c ∈ m, c.1 < 2 ^ 32 ∧ c.2 ≠ Memory.unlisted

/-- Every byte of `addrs` takes an unspecified value, the `draw`-th draw of it. -/
def Memory.unspecify (draw : Nat) (addrs : List Nat) (m : Memory) : Memory :=
  addrs.foldl (fun m a => m.write a (Config.unspecifiedByte draw a)) m

/-- The byte moves of a plan, one after the other in the reference order (R120, R130, R145). -/
def Memory.runMoves (moves : List Move) (m : Memory) : Memory :=
  moves.foldl (fun m mv => m.write mv.dst (m.read mv.src)) m

/-! ### The register window and devices in the memory space -/

/-- The 256-byte register window at REG_BASE (R21). -/
def Platform.window (p : Platform) : Region := { base := uint32 p.regBase, size := 256 }

/-- A source extent or the write footprint of the command meets a device region or the register
window (R67). -/
def Platform.forbids (p : Platform) (plan : Plan) : Bool := (p.window :: p.devices).any plan.meets

/-- The line of the hosts' caches that holds an address (R78; log 10). -/
def Platform.line (p : Platform) (a : Nat) : Region :=
  { base := a / 2 ^ p.lineBits * 2 ^ p.lineBits, size := 2 ^ p.lineBits }

/-! ### Bus faults (R61, R186) -/

/-- The memory faults this access now (R61). -/
def State.faults (s : State) (kind : AccessKind) (a : Nat) : Bool :=
  s.busFaults.any fun rule => decide (rule.kind = kind) && rule.region.contains a

/-- The addresses of the command's faulted accesses: the reads of its read footprint and the writes
of its write footprint that the memory faults, and the faulted reads of those padding bytes of its
source extents that the engine happens to read (R67, R186). -/
def State.faultedAccesses (s : State) (plan : Plan) : List Nat :=
  plan.readFootprint.filter (s.faults .read) ++ plan.writeFootprint.filter (s.faults .write) ++
    (plan.sources.flatMap (fun v => v.extent.addrs)).filter (fun a =>
      !plan.readFootprint.contains a && s.faults .read a && Config.readsPadding s.draws a)

/-- The faulting address that ERR_ADDR reports: one of them, which one is unspecified (R29, R186). -/
def reportedFault (draw : Nat) : List Nat → Nat
  | [] => 0
  | [a] => a
  | a :: as => (a :: as).getD (Config.faultPick draw % (a :: as).length) a

/-! ### The completion step and START -/

/-- Completion without a raise (R181). ERR_ADDR is 0 after every outcome but BUS_ERROR (R29; log
11). -/
def State.complete (s : State) : State :=
  { s with
    regs := { s.regs with err := .none, errSlot := 0, errAddr := 0, done := true },
    engine := .idle }

/-- `raise E(info)`, the one way an error is taken: it ends the command and records the code, the
slot and the address, in one step (R181, R190). -/
def State.raise (s : State) (e : CommandError) : State :=
  { s with
    regs := { s.regs with err := e.errCode, errSlot := e.errSlot, errAddr := e.errAddr,
                          done := true },
    engine := .idle }

/-- What START clears (R24). -/
def Registers.cleared (regs : Registers) : Registers :=
  { regs with done := false, err := .none, errSlot := 0, layoutOvf := false, errAddr := 0 }

/-! ### Execution (R180) -/

/-- A host has disturbed the running command's buffers (R77, R78). -/
def State.interfered (s : State) : Bool :=
  match s.engine with
  | .busy _ interfered => interfered
  | .idle => false

/-- Memory after the command's moves: the moves' result where R68 holds and no host interfered, and
otherwise an unspecified value in every byte of the write footprint (R68, R77). -/
def State.movedMemory (s : State) (plan : Plan) : Memory :=
  if plan.separated && !s.interfered then s.mem.runMoves plan.moves
  else s.mem.unspecify s.draws plan.writeFootprint

/-- The engine has written these bytes; where host caches are not coherent, hosts must invalidate
them before reading (R76, R78; log 10). -/
def State.engineWrote (s : State) (addrs : List Nat) : List Nat :=
  if s.platform.coherent then s.stale else addrs ++ s.stale

/-- The command stops with BUS_ERROR at `addr`, its write footprint unspecified (R186). -/
def State.busError (s : State) (plan : Plan) (addr : Nat) : State :=
  State.raise
    { s with
      mem := s.mem.unspecify s.draws plan.writeFootprint,
      stale := s.engineWrote plan.writeFootprint,
      unseen := plan.buffers :: s.unseen,
      draws := s.draws + 1 }
    (.busError addr)

/-- The command's moves are done and it ends without error (R66, R68, R181). -/
def State.moved (s : State) (plan : Plan) : State :=
  State.complete
    { s with
      mem := s.movedMemory plan,
      stale := s.engineWrote plan.writeFootprint,
      unseen := plan.buffers :: s.unseen,
      draws := s.draws + 1 }

/-- Execute the plan of a command that passed every check: refuse device buffers (R67), stop with
BUS_ERROR where the memory faults an access (R186), and otherwise do the moves (R68, R181). -/
def State.runPlan (s : State) (plan : Plan) : Host.Outcome State Fault Refusal :=
  if s.platform.forbids plan then .refused .deviceBuffer
  else if (s.faultedAccesses plan).isEmpty then .next (s.moved plan)
  else .next (s.busError plan (reportedFault s.draws (s.faultedAccesses plan)))

/-- Run a command: write its layout if it reaches that step, then raise its first error or execute
its plan (R162, R180, R183). -/
def State.runWork (s : State) (work : Work) : Host.Outcome State Fault Refusal :=
  let t := { s with regs := s.regs.layoutStep work.layout }
  match work.plan with
  | .error e => .next (t.raise e)
  | .ok plan => t.runPlan plan

/-! ### Building a command's work (R162) -/

/-- The work of a command that does not write the layout registers. -/
def Work.primitive (plan : Except CommandError Plan) : Work := { layout := none, plan := plan }

/-- The work of a command that writes the layout registers between its dimension check and its
buffer checks (R162 step 4, R183): `checks` are the checks before, `layout` and `plan` what follows
for their result. -/
def Work.withLayout {α : Type} (checks : Except CommandError α) (layout : α → TightLayout)
    (plan : α → Except CommandError Plan) : Work :=
  match checks with
  | .error e => { layout := none, plan := .error e }
  | .ok x => { layout := some (layout x), plan := plan x }

/-- The plan of a command that touches no memory. -/
def Plan.empty : Plan := { moves := [], sources := [], dests := [] }

end Sys2Proof.Machine
end

