-- ==== Sys2Proof/Machine/Plane.lean ====
section
/-! DEFINITION. The plane family: COPY_PLANE, INTERLEAVE_UV and ROTATE_PLANE, with the loops the image
commands share (41_plane_copy.md, 42_interleave.md, 43_rotate.md). -/

namespace Sys2Proof.Machine

open Sys2Proof

/-! ### The loops -/

/-- The moves of `CopyView(S, D)` (R120): rows top to bottom, each left to right. -/
def copyMoves (s d : View) : List Move :=
  (List.range d.height).flatMap fun y =>
    (List.range d.width).map fun x => { dst := d.byteAddr x y, src := s.byteAddr x y }

/-- The moves of `InterleaveViews(U, V, D)` (R130): the U byte at the even offset, then the V byte at
the odd one. -/
def interleaveMoves (u v d : View) : List Move :=
  (List.range u.height).flatMap fun row =>
    (List.range u.width).flatMap fun col =>
      [{ dst := d.byteAddr (2 * col) row, src := u.byteAddr col row },
       { dst := d.byteAddr (2 * col + 1) row, src := v.byteAddr col row }]

/-- `Src(a, W, H, x', y')` of R145: the input column and row of an output sample (R141 to R144).
Inside the output rectangle the subtractions are exact. -/
def rotationSource (r : Rotation) (w h x y : Nat) : Nat × Nat :=
  match r with
  | .r0 => (x, y)
  | .r90 => (y, h - 1 - x)
  | .r180 => (w - 1 - x, h - 1 - y)
  | .r270 => (w - 1 - y, x)

/-- The moves of `RotateView(S, D, a)` (R145): output rows top to bottom, each left to right. -/
def rotateMoves (r : Rotation) (s d : View) : List Move :=
  (List.range d.height).flatMap fun y =>
    (List.range d.width).map fun x =>
      { dst := d.byteAddr x y,
        src := s.byteAddr (rotationSource r s.width s.height x y).1
          (rotationSource r s.width s.height x y).2 }

/-! ### COPY_PLANE -/

/-- What COPY_PLANE does to memory: `CopyView(View(0, W, H), View(3, W, H))` (R121). -/
def copyPlanePlan (p : Params) (d : Dims) : Plan :=
  let src := p.view .src0 d.w d.h
  let dst := p.view .dst0 d.w d.h
  { moves := copyMoves src dst, sources := [src], dests := [dst] }

/-- The work of COPY_PLANE (R121). -/
def workCopyPlane (p : Params) : Work :=
  Work.primitive do
    let d ← dimensions p
    checkSlot p .src0 d.w d.h
    checkSlot p .dst0 d.w d.h
    return copyPlanePlan p d

/-- COPY_PLANE (R121). DST_FMT, SRC_FMT and ANGLE are ignored (R98). -/
def execCopyPlane (_dst _src : FmtTag) (_angle : Nat) (s : State) :
    Host.Outcome State Fault Refusal :=
  s.runWork (workCopyPlane s.params)

/-! ### INTERLEAVE_UV -/

/-- What INTERLEAVE_UV does to memory (R131). -/
def interleaveUvPlan (p : Params) (d : Dims) : Plan :=
  let u := p.view .src1 d.w d.h
  let v := p.view .src2 d.w d.h
  let dst := p.view .dst1 (2 * d.w) d.h
  { moves := interleaveMoves u v dst, sources := [u, v], dests := [dst] }

/-- The work of INTERLEAVE_UV (R131). -/
def workInterleaveUv (p : Params) : Work :=
  Work.primitive do
    let d ← dimensions p
    checkSlot p .src1 d.w d.h
    checkSlot p .src2 d.w d.h
    checkSlot p .dst1 (2 * d.w) d.h
    return interleaveUvPlan p d

/-- INTERLEAVE_UV (R131). DST_FMT, SRC_FMT and ANGLE are ignored (R98). -/
def execInterleaveUv (_dst _src : FmtTag) (_angle : Nat) (s : State) :
    Host.Outcome State Fault Refusal :=
  s.runWork (workInterleaveUv s.params)

/-! ### ROTATE_PLANE -/

/-- What ROTATE_PLANE does to memory (R146). -/
def rotatePlanePlan (p : Params) (r : Rotation) (d : Dims) : Plan :=
  let src := p.view .src0 d.w d.h
  let dst := p.view .dst0 (d.rotated r).w (d.rotated r).h
  { moves := rotateMoves r src dst, sources := [src], dests := [dst] }

/-- The work of ROTATE_PLANE (R146): the angle before the dimensions. -/
def workRotatePlane (angle : Nat) (p : Params) : Work :=
  Work.primitive do
    let r ← rotationOf angle
    let d ← dimensions p
    checkSlot p .src0 d.w d.h
    checkSlot p .dst0 (d.rotated r).w (d.rotated r).h
    return rotatePlanePlan p r d

/-- ROTATE_PLANE (R146). DST_FMT and SRC_FMT are ignored (R98). -/
def execRotatePlane (_dst _src : FmtTag) (angle : Nat) (s : State) :
    Host.Outcome State Fault Refusal :=
  s.runWork (workRotatePlane angle s.params)

end Sys2Proof.Machine
end

