-- ==== Sys2Proof/Machine/Image.lean ====
section
/-! DEFINITION. The image family: IMAGE_COPY, CONVERT_NV12 and ROTATE (44_image_ops.md). Each runs the
steps of R162 in their order. -/

namespace Sys2Proof.Machine

open Sys2Proof

/-- The format checks of an image command, the source tag before the destination tag, and the latter
only in tight mode (R162 step 1, R183, R184). `target` is the tag a tight destination must have. -/
def imageFormats (target : FmtTag) (tight : Bool) (dst src : FmtTag) : Except CommandError Unit := do
  requireFormat (decide (src = .i420))
  requireFormat (!tight || decide (dst = target))

/-! ### IMAGE_COPY -/

/-- IMAGE_COPY's checks before its layout step (R163). -/
def imageCopyChecks (tight : Bool) (dst src : FmtTag) (p : Params) : Except CommandError Dims := do
  imageFormats .i420 tight dst src
  dimensions p

/-- What IMAGE_COPY does to memory (R163): Y, then U, then V. -/
def imageCopyPlan (p : Params) (tight : Bool) (d : Dims) : Plan :=
  let s := sourcePlanes p d
  let o := i420Planes p tight d
  { moves := copyMoves s.y o.y ++ copyMoves s.u o.u ++ copyMoves s.v o.v,
    sources := [s.y, s.u, s.v], dests := [o.y, o.u, o.v] }

/-- IMAGE_COPY's buffer checks, then its plan (R162 steps 5 to 7, R163). -/
def imageCopyBuffers (tight : Bool) (p : Params) (d : Dims) : Except CommandError Plan := do
  checkSourceImage p d
  checkI420Destination p tight d
  return imageCopyPlan p tight d

/-- The work of IMAGE_COPY (R163). -/
def workImageCopy (tight : Bool) (dst src : FmtTag) (p : Params) : Work :=
  Work.withLayout (imageCopyChecks tight dst src p) layoutI420 (imageCopyBuffers tight p)

/-- IMAGE_COPY (R163). ANGLE is ignored (R98). -/
def execImageCopy (tight : Bool) (dst src : FmtTag) (_angle : Nat) (s : State) :
    Host.Outcome State Fault Refusal :=
  s.runWork (workImageCopy tight dst src s.params)

/-! ### CONVERT_NV12 -/

/-- CONVERT_NV12's checks before its layout step (R165). -/
def convertNv12Checks (tight : Bool) (dst src : FmtTag) (p : Params) :
    Except CommandError Dims := do
  imageFormats .nv12 tight dst src
  dimensions p

/-- What CONVERT_NV12 does to memory (R165): Y, then UV. -/
def convertNv12Plan (p : Params) (tight : Bool) (d : Dims) : Plan :=
  let s := sourcePlanes p d
  let o := nv12Planes p tight d
  { moves := copyMoves s.y o.1 ++ interleaveMoves s.u s.v o.2,
    sources := [s.y, s.u, s.v], dests := [o.1, o.2] }

/-- CONVERT_NV12's buffer checks, then its plan (R162 steps 5 to 7, R165). -/
def convertNv12Buffers (tight : Bool) (p : Params) (d : Dims) : Except CommandError Plan := do
  checkSourceImage p d
  checkNv12Destination p tight d
  return convertNv12Plan p tight d

/-- The work of CONVERT_NV12 (R165). -/
def workConvertNv12 (tight : Bool) (dst src : FmtTag) (p : Params) : Work :=
  Work.withLayout (convertNv12Checks tight dst src p) layoutNv12 (convertNv12Buffers tight p)

/-- CONVERT_NV12 (R165). ANGLE is ignored (R98). -/
def execConvertNv12 (tight : Bool) (dst src : FmtTag) (_angle : Nat) (s : State) :
    Host.Outcome State Fault Refusal :=
  s.runWork (workConvertNv12 tight dst src s.params)

/-! ### ROTATE -/

/-- ROTATE's checks before its layout step (R170): the formats, the angle, then the dimensions. -/
def rotateChecks (tight : Bool) (dst src : FmtTag) (angle : Nat) (p : Params) :
    Except CommandError (Rotation × Dims) := do
  imageFormats .i420 tight dst src
  let r ← rotationOf angle
  let d ← dimensions p
  return (r, d)

/-- What ROTATE does to memory (R170, R172): Y, then U, then V. -/
def rotatePlan (p : Params) (tight : Bool) (r : Rotation) (d : Dims) : Plan :=
  let s := sourcePlanes p d
  let o := i420Planes p tight (d.rotated r)
  { moves := rotateMoves r s.y o.y ++ rotateMoves r s.u o.u ++ rotateMoves r s.v o.v,
    sources := [s.y, s.u, s.v], dests := [o.y, o.u, o.v] }

/-- ROTATE's buffer checks, then its plan (R162 steps 5 to 7, R170). -/
def rotateBuffers (tight : Bool) (p : Params) (r : Rotation) (d : Dims) :
    Except CommandError Plan := do
  checkSourceImage p d
  checkI420Destination p tight (d.rotated r)
  return rotatePlan p tight r d

/-- The work of ROTATE (R170): its layout is that of the rotated image. -/
def workRotate (tight : Bool) (dst src : FmtTag) (angle : Nat) (p : Params) : Work :=
  Work.withLayout (rotateChecks tight dst src angle p) (fun x => layoutI420 (x.2.rotated x.1))
    (fun x => rotateBuffers tight p x.1 x.2)

/-- ROTATE (R170). -/
def execRotate (tight : Bool) (dst src : FmtTag) (angle : Nat) (s : State) :
    Host.Outcome State Fault Refusal :=
  s.runWork (workRotate tight dst src angle s.params)

end Sys2Proof.Machine
end

