-- ==== Sys2Proof/Machine/Layout.lean ====
section
/-! DEFINITION. The layout family: LAYOUT (40_layout.md). -/

namespace Sys2Proof.Machine

open Sys2Proof

/-- The formats LAYOUT accepts (R114, R184), with the layout of each (R111). -/
def layoutFormat : FmtTag → Except CommandError (Dims → TightLayout)
  | .i420 => .ok layoutI420
  | .nv12 => .ok layoutNv12
  | .fmt2 => .error .unsupportedFormat
  | .fmt3 => .error .unsupportedFormat

/-- LAYOUT's checks: the format, then the dimensions, answering the layout it writes (R114). -/
def layoutChecks (dst : FmtTag) (p : Params) : Except CommandError TightLayout := do
  let layout ← layoutFormat dst
  let d ← dimensions p
  return layout d

/-- The work of LAYOUT (R114): no slot is read and no memory is touched. -/
def workLayout (dst : FmtTag) (p : Params) : Work :=
  Work.withLayout (layoutChecks dst p) id (fun _ => .ok Plan.empty)

/-- LAYOUT (R114). SRC_FMT and ANGLE are ignored (R98). -/
def execLayout (dst _src : FmtTag) (_angle : Nat) (s : State) : Host.Outcome State Fault Refusal :=
  s.runWork (workLayout dst s.params)

end Sys2Proof.Machine
end

