-- ==== Sys2Proof/Machine/Dispatch.lean ====
section
/-! DEFINITION. One command's execution (R180): one arm per constructor of `Instr`. -/

namespace Sys2Proof.Machine

open Sys2Proof

/-- Execute one command on the latched parameters (R180). -/
def exec (i : Instr) (s : State) : Host.Outcome State Fault Refusal :=
  match i with
  | .copyPlane dst src angle => Sys2Proof.Machine.execCopyPlane dst src angle s
  | .interleaveUv dst src angle => Sys2Proof.Machine.execInterleaveUv dst src angle s
  | .rotatePlane dst src angle => Sys2Proof.Machine.execRotatePlane dst src angle s
  | .layout dst src angle => Sys2Proof.Machine.execLayout dst src angle s
  | .imageCopy tight dst src angle => Sys2Proof.Machine.execImageCopy tight dst src angle s
  | .convertNv12 tight dst src angle => Sys2Proof.Machine.execConvertNv12 tight dst src angle s
  | .rotate tight dst src angle => Sys2Proof.Machine.execRotate tight dst src angle s

end Sys2Proof.Machine
end

