-- ==== Sys2Proof/Machine/Engine.lean ====
section
/-! DEFINITION. The engine's turn: the latched word is decoded and its command executed (R180). -/

namespace Sys2Proof.Machine

open Sys2Proof

/-- The engine's turn. A running command goes from Decode to its end (R180, R181); the position
inside it is not observable (R36, R220; log 4). An IDLE engine starts nothing and keeps every
register (R180, R198, R210). -/
def State.engineTurn (s : State) : Host.Outcome State Fault Refusal :=
  match s.engine with
  | .idle => .next s
  | .busy latched _ =>
    match decodeWord latched.cmd with
    | .ok i => exec i s
    | .error _ => .next (s.raise .illegalCommand)

end Sys2Proof.Machine
end

