-- ==== Sys2Proof/Machine/Running.lean ====
section
/-! DEFINITION. The running command as the hosts meet it: which bytes it touches while BUSY (R67, R77),
and START (R24, R25). -/

namespace Sys2Proof.Machine

open Sys2Proof

/-- The work of a command on its latched parameters, for its footprints (R65, R66). -/
def workOf (i : Instr) (p : Params) : Work :=
  match i with
  | .copyPlane _ _ _ => workCopyPlane p
  | .interleaveUv _ _ _ => workInterleaveUv p
  | .rotatePlane _ _ angle => workRotatePlane angle p
  | .layout dst _ _ => workLayout dst p
  | .imageCopy tight dst src _ => workImageCopy tight dst src p
  | .convertNv12 tight dst src _ => workConvertNv12 tight dst src p
  | .rotate tight dst src angle => workRotate tight dst src angle p

/-- The work of the command word among the parameters (R90); an illegal word writes no layout and
touches no memory (R98, R187). -/
def Params.work (p : Params) : Work :=
  match decodeWord p.cmd with
  | .ok i => workOf i p
  | .error _ => Work.primitive (.error .illegalCommand)

/-- What a command with these parameters does to memory, if it passes its checks. -/
def Params.plan (p : Params) : Option Plan :=
  match p.work.plan with
  | .ok plan => some plan
  | .error _ => none

/-- The running command's plan: `none` when IDLE and for a command that will fail a check, which
touches no memory (R187). -/
def State.runningPlan (s : State) : Option Plan :=
  match s.engine with
  | .busy latched _ => latched.plan
  | .idle => none

/-- The layout the running command writes before it ends, if any (R31). -/
def State.pendingLayout (s : State) : Option TightLayout :=
  match s.engine with
  | .busy latched _ => latched.work.layout
  | .idle => none

/-- The address lies in the running command's source extents or write footprint (R77). -/
def State.runningTouches (s : State) (a : Nat) : Bool :=
  match s.runningPlan with
  | some plan => plan.touches a
  | none => false

/-- The address lies in the running command's write footprint (R77). -/
def State.runningWrites (s : State) (a : Nat) : Bool :=
  match s.runningPlan with
  | some plan => plan.writeFootprint.contains a
  | none => false

/-- The running command's write footprint has a byte in the region. -/
def State.runningWritesIn (s : State) (r : Region) : Bool :=
  match s.runningPlan with
  | some plan => plan.writeFootprint.any r.contains
  | none => false

/-- Host caches are not coherent and a host has not cleaned a cache line of the buffers of a command
with these parameters, so that R75 does not hold for it (R78, R212 step 4, R218; log 10). -/
def State.uncleanedBuffers (s : State) (p : Params) : Bool :=
  !s.platform.coherent &&
    (match p.plan with
     | some plan => s.uncleaned.any fun a => plan.meets (s.platform.line a)
     | none => false)

/-- START, in the register write that asks for it (R24): clear the outcome of the last command, latch
the parameters, and become BUSY. -/
def State.start (s : State) : State :=
  { s with
    regs := s.regs.cleared,
    engine := .busy s.regs.params (s.uncleanedBuffers s.regs.params) }

end Sys2Proof.Machine
end

