-- ==== Sys2Proof/Machine/Port.lean ====
section
/-! DEFINITION. What the agents around the engine do: the register port (R21 to R35), the accesses
of hosts and other bus masters to the shared memory, the hosts' caches (R74 to R78, R82), and reset
(R25, R210, R211). -/

namespace Sys2Proof.Machine

open Sys2Proof

/-! ### Reset -/

/-- Reset of the block, by the reset input or by CTRL.SOFT_RESET (R25, R210, R211): every register
takes its reset value and the phase becomes IDLE. A running command is abandoned, and every byte of
its write footprint holds an unspecified value; one whose buffers meet a device is refused, as its
execution is (R67; log 13). No access is in flight afterwards, so hosts see the writes of the
commands before (R210; log 7). -/
def State.resetBlock (s : State) : Host.Outcome State Fault Refusal :=
  let t := { s with regs := Registers.reset, engine := .idle, unseen := [] }
  match s.runningPlan with
  | none => .next t
  | some plan =>
    if s.platform.forbids plan then .refused .deviceBuffer
    else .next
      { t with
        mem := s.mem.unspecify s.draws plan.writeFootprint,
        stale := s.engineWrote plan.writeFootprint,
        draws := s.draws + 1 }

/-! ### The register map -/

/-- The register at each byte offset (R21); an offset that is not listed is reserved (R33). -/
def regTable : List (Nat × Reg) :=
  [(0x00, .id), (0x04, .ctrl), (0x08, .status), (0x0C, .errAddr),
   (0x10, .cmd), (0x14, .width), (0x18, .height),
   (0x20, .slotAddr .src0), (0x24, .slotLen .src0), (0x28, .slotStride .src0),
   (0x30, .slotAddr .src1), (0x34, .slotLen .src1), (0x38, .slotStride .src1),
   (0x40, .slotAddr .src2), (0x44, .slotLen .src2), (0x48, .slotStride .src2),
   (0x50, .slotAddr .dst0), (0x54, .slotLen .dst0), (0x58, .slotStride .dst0),
   (0x60, .slotAddr .dst1), (0x64, .slotLen .dst1), (0x68, .slotStride .dst1),
   (0x70, .slotAddr .dst2), (0x74, .slotLen .dst2), (0x78, .slotStride .dst2)] ++
  [(0x80, .lCw), (0x84, .lCh), (0x88, .lOutW), (0x8C, .lOutH),
   (0x90, .lYOff), (0x94, .lYStride), (0x98, .lUOff), (0x9C, .lUStride),
   (0xA0, .lVOff), (0xA4, .lVStride), (0xA8, .lTotal)]

/-- The register at a byte offset, `none` for a reserved offset (R21, R33). -/
def regAt (offset : Nat) : Option Reg :=
  (regTable.find? fun entry => entry.1 == offset).map Prod.snd

/-- The access is 32 bits wide at a multiple of 4 inside the window (R21, R35). -/
def accessDefined (offset bytes : Nat) : Bool :=
  decide (bytes = 4 ∧ offset % 4 = 0 ∧ offset < 256)

/-! ### Register reads -/

/-- The constant of the ID register (R22). -/
def idWord : Word := 0x53504331

/-- A layout register as a host reads it: the stored value, but unspecified while the running command
may already have written it (R31, R36; log 9). -/
def State.readLayoutReg (s : State) (stored : Word) : Word :=
  match s.pendingLayout with
  | none => stored
  | some _ => Config.unspecifiedWord s.draws

/-- STATUS.LAYOUT_OVF as a host reads it: 1 where it is set; and while the running command is to set
it, the host may or may not see it set already (R36, R38; log 9). -/
def State.readLayoutOvf (s : State) : Bool :=
  s.regs.layoutOvf ||
    (match s.pendingLayout with
     | none => false
     | some l => l.overflows && Config.layoutOvfSeen s.draws)

/-- The value a host reads from a register (R21 to R33). -/
def State.readReg (s : State) : Reg → Word
  | .id => idWord
  | .ctrl => ctrlWord s.regs.irqEn
  | .status => statusWord s.busy s.regs.done s.readLayoutOvf s.regs.err s.regs.errSlot
  | .errAddr => s.regs.errAddr
  | .cmd => s.regs.cmd
  | .width => s.regs.width
  | .height => s.regs.height
  | .slotAddr n => (s.regs.slots.get n).addr
  | .slotLen n => (s.regs.slots.get n).len
  | .slotStride n => (s.regs.slots.get n).stride
  | .lCw => s.readLayoutReg s.regs.layout.cw
  | .lCh => s.readLayoutReg s.regs.layout.ch
  | .lOutW => s.readLayoutReg s.regs.layout.outW
  | .lOutH => s.readLayoutReg s.regs.layout.outH
  | .lYOff => s.readLayoutReg s.regs.layout.yOff
  | .lYStride => s.readLayoutReg s.regs.layout.yStride
  | .lUOff => s.readLayoutReg s.regs.layout.uOff
  | .lUStride => s.readLayoutReg s.regs.layout.uStride
  | .lVOff => s.readLayoutReg s.regs.layout.vOff
  | .lVStride => s.readLayoutReg s.regs.layout.vStride
  | .lTotal => s.readLayoutReg s.regs.layout.total

/-- The value a host reads at an offset: 0 where it is reserved (R33). -/
def State.readOffset (s : State) (offset : Nat) : Word :=
  match regAt offset with
  | some r => s.readReg r
  | none => 0

/-- The ended commands whose end no host has seen, after a host access that `sees` DONE = 1 or `irq`
high, or does not (R76). -/
def State.unseenAfter (s : State) (sees : Bool) : List Plan := if sees then [] else s.unseen

/-- The registers after a host's read. A read of STATUS that shows LAYOUT_OVF set finds that the
running command has written it, so it stays set until START or reset (R28, R38; log 9). -/
def State.regsAfterRead (s : State) (offset : Nat) : Registers :=
  if offset = 0x08 then { s.regs with layoutOvf := s.readLayoutOvf } else s.regs

/-- A host's register read (R35). It advances the draw number, since what it reads may be free. A read
of STATUS that returns DONE = 1 sees the command's end (R76). -/
def State.regRead (s : State) (offset bytes : Nat) : Host.Outcome State Fault Refusal :=
  if accessDefined offset bytes then
    .next
      { s with regs := s.regsAfterRead offset,
               readData := s.readOffset offset, draws := s.draws + 1,
               unseen := s.unseenAfter (offset == 0x08 && s.regs.done) }
  else .refused .registerAccess

/-- A host's look at `irq`; where it is high, it sees the command's end (R39, R76). -/
def State.irqRead (s : State) : State :=
  { s with readData := BitVec.ofNat 32 s.irq.toNat, unseen := s.unseenAfter s.irq }

/-! ### Register writes -/

/-- A write of CTRL (R23 to R26): SOFT_RESET before everything else; otherwise IRQ_EN from bit 1, and
START where the block is not BUSY. -/
def State.writeCtrl (s : State) (v : Word) : Host.Outcome State Fault Refusal :=
  if bits 2 2 v = 1 then s.resetBlock
  else
    let t := { s with regs := { s.regs with irqEn := bits 1 1 v == 1 } }
    if bits 0 0 v = 1 ∧ s.busy = false then .next t.start else .next t

/-- A write of STATUS: bit 1 clears DONE, and nothing else changes (R28). -/
def State.writeStatus (s : State) (v : Word) : State :=
  if bits 1 1 v = 1 then { s with regs := { s.regs with done := false } } else s

/-- A write of CMD, WIDTH, HEIGHT or a slot register, ignored while BUSY (R30, R32, R34). -/
def State.writeOperand (s : State) (regs : Registers) : State :=
  if s.busy then s else { s with regs := regs }

/-- A host's write of a register; a read-only register ignores it (R21, R22, R29, R31). -/
def State.writeReg (s : State) (r : Reg) (v : Word) : Host.Outcome State Fault Refusal :=
  let slots := s.regs.slots
  match r with
  | .ctrl => s.writeCtrl v
  | .status => .next (s.writeStatus v)
  | .cmd => .next (s.writeOperand { s.regs with cmd := v })
  | .width => .next (s.writeOperand { s.regs with width := v })
  | .height => .next (s.writeOperand { s.regs with height := v })
  | .slotAddr n =>
    .next (s.writeOperand { s.regs with slots := slots.set n { slots.get n with addr := v } })
  | .slotLen n =>
    .next (s.writeOperand { s.regs with slots := slots.set n { slots.get n with len := v } })
  | .slotStride n =>
    .next (s.writeOperand { s.regs with slots := slots.set n { slots.get n with stride := v } })
  | .id | .errAddr | .lCw | .lCh | .lOutW | .lOutH | .lYOff | .lYStride | .lUOff | .lUStride
  | .lVOff | .lVStride | .lTotal => .next s

/-- A host's register write (R35); a reserved offset ignores it (R33). -/
def State.regWrite (s : State) (offset bytes : Nat) (v : Word) :
    Host.Outcome State Fault Refusal :=
  if accessDefined offset bytes then
    match regAt offset with
    | some r => s.writeReg r v
    | none => .next s
  else .refused .registerAccess

/-! ### Host accesses to memory -/

/-- The running command, disturbed by a host's write (R77). -/
def Engine.disturbed : Engine → Engine
  | .idle => .idle
  | .busy latched _ => .busy latched true

/-- The ended commands, unseen by any host, whose buffers have a byte at the address (R77). -/
def State.unseenAt (s : State) (a : Nat) : List Plan := s.unseen.filter fun p => p.touches a

/-- The address lies in the write footprint of an ended command whose end no host has seen. -/
def State.unseenWrites (s : State) (a : Nat) : Bool :=
  s.unseen.any fun p => p.writeFootprint.contains a

/-- The address lies in the buffers of a command that runs, or whose end no host has seen: the bytes
R77 speaks of (log 7). -/
def State.contested (s : State) (a : Nat) : Bool := s.runningTouches a || !(s.unseenAt a).isEmpty

/-- A byte written to memory by an agent other than the engine. To a byte of the buffers of a command
that runs, or whose end no host has seen, it makes the command's write footprint unspecified, and may
or may not survive (R77, R82; log 7, log 8). Any other byte is stored (R74). -/
def State.storeByte (s : State) (a : Nat) (v : Byte) : State :=
  if s.contested a then
    { s with
      engine := if s.runningTouches a then s.engine.disturbed else s.engine,
      mem := Memory.unspecify s.draws ((s.unseenAt a).flatMap Plan.writeFootprint)
        (if Config.hostWriteSurvives s.draws then s.mem.write a v else s.mem),
      draws := s.draws + 1 }
  else { s with mem := s.mem.write a v }

/-- A host's memory write (R74, R75, R77). Without coherent caches the host has to clean it (R78); and
outside the buffers of R77 the host reads its own write back, whatever another agent wrote there
before (R74; log 10). -/
def State.ordinaryWrite (s : State) (a : Nat) (v : Byte) : State :=
  if s.platform.coherent then s.storeByte a v
  else
    { s.storeByte a v with
      uncleaned := a :: s.uncleaned,
      stale := if s.contested a then s.stale else s.stale.filter (· ≠ a) }

/-- Another bus master's memory write (R77, R82). It passes no host cache, so nothing is to be cleaned;
without coherent caches a host has to invalidate the byte, as it has for the engine's (R78; log 21). -/
def State.masterWrite (s : State) (a : Nat) (v : Byte) : State :=
  { s.storeByte a v with stale := s.engineWrote [a] }

/-- What a host's memory read returns (R74, R76): unspecified in the write footprint of a command that
runs or whose end no host has seen (R77), and for a byte the engine wrote and the host has not
invalidated where caches are not coherent (R78). -/
def State.ordinaryRead (s : State) (a : Nat) : Byte :=
  if s.runningWrites a || s.unseenWrites a || (!s.platform.coherent && s.stale.contains a) then
    Config.unspecifiedByte s.draws a
  else s.mem.read a

/-- What another bus master's memory read returns: unspecified in the write footprint of a command that
runs or whose end no host has seen (R77, R82), and for a byte that a host has written into its cache and
not cleaned (R78; log 21). -/
def State.masterRead (s : State) (a : Nat) : Byte :=
  if s.runningWrites a || s.unseenWrites a || (!s.platform.coherent && s.uncleaned.contains a) then
    Config.unspecifiedByte s.draws a
  else s.mem.read a

/-- A byte access of an agent other than the engine, anywhere in its address map, that does `t` in
ordinary memory. In the register window it is an 8-bit register access (R35), and in a device region
the spec gives no effect (R72). -/
def State.memAccess (s : State) (addr : Word) (t : State) : Host.Outcome State Fault Refusal :=
  if s.platform.window.contains (uint32 addr) then .refused .registerAccess
  else if s.platform.devices.any (fun r => r.contains (uint32 addr)) then .refused .deviceAccess
  else .next t

/-- The state after a memory read that returned the byte. -/
def State.afterRead (s : State) (b : Byte) : State :=
  { s with readData := b.setWidth 32, draws := s.draws + 1 }

/-- A host's byte write (R74). -/
def State.hostWrite (s : State) (addr : Word) (v : Byte) : Host.Outcome State Fault Refusal :=
  s.memAccess addr (s.ordinaryWrite (uint32 addr) v)

/-- A host's byte read (R74). -/
def State.hostRead (s : State) (addr : Word) : Host.Outcome State Fault Refusal :=
  s.memAccess addr (s.afterRead (s.ordinaryRead (uint32 addr)))

/-- Another bus master's byte write (R82). -/
def State.busWrite (s : State) (addr : Word) (v : Byte) : Host.Outcome State Fault Refusal :=
  s.memAccess addr (s.masterWrite (uint32 addr) v)

/-- Another bus master's byte read (R82). -/
def State.busRead (s : State) (addr : Word) : Host.Outcome State Fault Refusal :=
  s.memAccess addr (s.afterRead (s.masterRead (uint32 addr)))

/-! ### Host caches (R78; log 10) -/

/-- The bytes in the cache lines of a region that a host has written and not cleaned. -/
def State.dirtyIn (s : State) (r : Region) : List Nat :=
  s.uncleaned.filter fun a => r.meets (s.platform.line a)

/-- The bytes that an operation on the cache lines of a region may spoil: bytes that the engine or
another bus master wrote, in a line of the region that a host has written and not cleaned. Writing such
a line back overwrites the whole of it. -/
def State.spoiled (s : State) (r : Region) : List Nat :=
  s.stale.filter fun a =>
    r.meets (s.platform.line a) && s.uncleaned.any (s.platform.line a).contains

/-- The bytes of the list outside the cache lines of the region. -/
def Platform.outsideLines (p : Platform) (r : Region) (addrs : List Nat) : List Nat :=
  addrs.filter fun a => !r.meets (p.line a)

/-- The engine when the lines of a region that a host has written may be written back. That writes
every byte of such a line, and so disturbs a running command whose write footprint has a byte in one,
or of whose buffers it spoils a byte (R77 does not speak of write-backs: DESIGN CHOICE, log 10). A line
that holds cleaned bytes of its source extents takes back what was there. -/
def State.engineAfterWriteBack (s : State) (r : Region) : Engine :=
  if ((s.dirtyIn r).any fun a => s.runningWritesIn (s.platform.line a)) ||
      (s.spoiled r).any s.runningTouches then s.engine.disturbed
  else s.engine

/-- A host cleans the cache lines of a region: its writes there have reached memory (R78). Two points
are DESIGN CHOICE (log 10). R77 does not say whether a write-back counts as a host's write: after a
command's end that no host has seen, it frees only the stale bytes of its line, where a running
command is disturbed as a whole. And R78 speaks of cleaning only without coherent caches: with them,
cleaning changes nothing. -/
def State.cacheClean (s : State) (r : Region) : State :=
  if s.platform.coherent then s
  else
    { s with
      engine := s.engineAfterWriteBack r,
      mem := s.mem.unspecify s.draws (s.spoiled r),
      uncleaned := s.platform.outsideLines r s.uncleaned,
      draws := s.draws + 1 }

/-- A host invalidates the cache lines of a region: its later reads there see memory (R78). A byte it
wrote and did not clean is unspecified, since the line may be written back or dropped. DESIGN CHOICE
(log 10): R78 says "after DONE", and leaves open whether that is DONE set or DONE seen; as the order of
R212 step 7 has it, an invalidation counts for a command's writes only once a host has seen DONE = 1
(or `irq` high), and one before that must be repeated. DESIGN CHOICE (log 10), as for
`State.cacheClean`: a write-back after an end that no host has seen frees only bytes of its line (R77),
and with coherent caches, where R78 asks for no invalidation, it changes nothing and drops nothing. -/
def State.cacheInvalidate (s : State) (r : Region) : State :=
  if s.platform.coherent then s
  else
    { s with
      engine := s.engineAfterWriteBack r,
      mem := s.mem.unspecify s.draws (s.spoiled r ++ s.dirtyIn r),
      uncleaned := s.platform.outsideLines r s.uncleaned,
      stale := s.stale.filter fun a => !r.meets (s.platform.line a) || s.unseenWrites a,
      draws := s.draws + 1 }

end Sys2Proof.Machine
end

