-- ==== Sys2Proof/Machine/Events.lean ====
section
/-! DEFINITION. One event of the queue, taken (log 12). -/

namespace Sys2Proof.Machine

open Sys2Proof

/-- What one event does to the machine. -/
def State.handle (s : State) (e : Event) : Host.Outcome State Fault Refusal :=
  match e with
  | .engineTurn => s.engineTurn
  | .regWrite offset bytes value => s.regWrite offset bytes value
  | .regRead offset bytes => s.regRead offset bytes
  | .irqRead => .next s.irqRead
  | .memWrite addr value => s.hostWrite addr value
  | .memRead addr => s.hostRead addr
  | .busWrite addr value => s.busWrite addr value
  | .busRead addr => s.busRead addr
  | .cacheClean region => .next (s.cacheClean region)
  | .cacheInvalidate region => .next (s.cacheInvalidate region)
  | .resetInput => s.resetBlock
  | .memoryFaults rules => .next { s with busFaults := rules }

/-- The events behind the next one. -/
def State.afterEvent (s : State) (rest : List Event) : State := { s with inbox := rest }

/-- The state in which the word is the latched command of a BUSY engine and the engine takes the next
turn: the host has written CMD and START, and nothing waits in the queue (R24, R212; log 12). -/
def State.commanded (s : State) (word : Word) : State :=
  State.start { s with regs := { s.regs with cmd := word }, engine := .idle, inbox := [] }

end Sys2Proof.Machine
end

