-- ==== Sys2Proof/Machine/Step.lean ====
section
/-! DEFINITION. One step of the machine: the next event of the queue, or, when none waits, the engine's
turn (R180, R220; log 12). -/

namespace Sys2Proof.Machine

open Sys2Proof

/-- One step. -/
def step (s : State) : Host.Outcome State Fault Refusal :=
  match s.inbox with
  | [] => s.engineTurn
  | e :: rest => (s.afterEvent rest).handle e

/-- `s` with the command word `w` of `nbits` bits latched by START, so that the next step runs it. -/
def State.withFetchWord (s : State) (nbits w : Nat) : State := s.commanded (tableWord nbits w)

end Sys2Proof.Machine
end

