-- ==== Sys2Proof/Safety.lean ====
section
/-! DEFINITION. The terms the claims use: what the checks accept (R63, R64, R97, R184), when a command's
memory result is defined (R67, R68, R77), the end of a command (R181), and the states every step
keeps consistent (R27, R29, R36). -/

namespace Sys2Proof.Safety

open Sys2Proof Sys2Proof.Machine

/-! ### What a command accepts -/

/-- WIDTH and HEIGHT hold the dimensions `d`, both at least 1 (R96, R185). -/
def HasDims (p : Params) (d : Dims) : Prop :=
  sint32 p.width = d.w ∧ sint32 p.height = d.h ∧ 0 < d.w ∧ 0 < d.h

/-- WIDTH or HEIGHT is at most 0 (R185). -/
def BadDims (p : Params) : Prop := sint32 p.width ≤ 0 ∨ sint32 p.height ≤ 0

/-- The format tags a command accepts (R184). -/
def formatsAccepted : Instr → Bool
  | .copyPlane _ _ _ => true
  | .interleaveUv _ _ _ => true
  | .rotatePlane _ _ _ => true
  | .layout dst _ _ => decide (dst = .i420 ∨ dst = .nv12)
  | .imageCopy tight dst src _ => decide (src = .i420 ∧ (tight = true → dst = .i420))
  | .convertNv12 tight dst src _ => decide (src = .i420 ∧ (tight = true → dst = .nv12))
  | .rotate tight dst src _ => decide (src = .i420 ∧ (tight = true → dst = .i420))

/-- An angle that ROTATE and ROTATE_PLANE accept (R95, R184). -/
def rightAngle (angle : Nat) : Bool := decide (angle = 0 ∨ angle = 90 ∨ angle = 180 ∨ angle = 270)

/-- The angles a command accepts (R184). -/
def angleAccepted : Instr → Bool
  | .copyPlane _ _ _ => true
  | .interleaveUv _ _ _ => true
  | .rotatePlane _ _ angle => rightAngle angle
  | .layout _ _ _ => true
  | .imageCopy _ _ _ _ => true
  | .convertNv12 _ _ _ _ => true
  | .rotate _ _ _ angle => rightAngle angle

/-- The angle of an accepted rotation, in degrees (R95). -/
def degrees : Rotation → Nat
  | .r0 => 0
  | .r90 => 90
  | .r180 => 180
  | .r270 => 270

/-- The rotation by the sum of two angles, modulo 360 degrees (R147). -/
def thenTurn : Rotation → Rotation → Rotation
  | .r0, r => r
  | .r90, .r0 => .r90
  | .r90, .r90 => .r180
  | .r90, .r180 => .r270
  | .r90, .r270 => .r0
  | .r180, .r0 => .r180
  | .r180, .r90 => .r270
  | .r180, .r180 => .r0
  | .r180, .r270 => .r90
  | .r270, .r0 => .r270
  | .r270, .r90 => .r0
  | .r270, .r180 => .r90
  | .r270, .r270 => .r180

/-- The input column and row of the output sample (x', y') of a plane of dimensions `d` (R141 to
R144). -/
def inputSample (r : Rotation) (d : Dims) (x' y' : Nat) : Nat × Nat :=
  match r with
  | .r0 => (x', y')
  | .r90 => (y', d.h - 1 - x')
  | .r180 => (d.w - 1 - x', d.h - 1 - y')
  | .r270 => (d.w - 1 - y', x')

/-- The sample itself: no reindexing (R120). -/
def sameSample (x y : Nat) : Nat × Nat := (x, y)

/-- The row width and the rows of a plane view (R12). -/
def dimsOf (v : View) : Dims := { w := v.width, h := v.height }

/-- `(W', H')` of R97: swapped for 90 and 270 degrees. -/
def turned (angle : Nat) (d : Dims) : Dims :=
  if angle = 90 ∨ angle = 270 then { w := d.h, h := d.w } else d

/-- The row of R97's table for a command: each slot it checks, in the order of R183, with its plane's
row width in bytes and its rows. -/
def slotTable : Instr → Dims → List (SlotId × Dims)
  | .copyPlane _ _ _, d => [(.src0, d), (.dst0, d)]
  | .interleaveUv _ _ _, d => [(.src1, d), (.src2, d), (.dst1, { w := 2 * d.w, h := d.h })]
  | .rotatePlane _ _ angle, d => [(.src0, d), (.dst0, turned angle d)]
  | .layout _ _ _, _ => []
  | .imageCopy tight _ _ _, d =>
    [(.src0, d), (.src1, d.chroma), (.src2, d.chroma)] ++
      (if tight then [] else [(.dst0, d), (.dst1, d.chroma), (.dst2, d.chroma)])
  | .convertNv12 tight _ _ _, d =>
    [(.src0, d), (.src1, d.chroma), (.src2, d.chroma)] ++
      (if tight then [] else [(.dst0, d), (.dst1, { w := 2 * d.chroma.w, h := d.chroma.h })])
  | .rotate tight _ _ angle, d =>
    [(.src0, d), (.src1, d.chroma), (.src2, d.chroma)] ++
      (if tight then []
       else [(.dst0, turned angle d), (.dst1, (turned angle d).chroma),
             (.dst2, (turned angle d).chroma)])

/-- The command's destination is one tight buffer in DST0 (R93). -/
def usesTight : Instr → Bool
  | .copyPlane _ _ _ => false
  | .interleaveUv _ _ _ => false
  | .rotatePlane _ _ _ => false
  | .layout _ _ _ => false
  | .imageCopy tight _ _ _ => tight
  | .convertNv12 tight _ _ _ => tight
  | .rotate tight _ _ _ => tight

/-- The total of a tight I420 or NV12 layout of dimensions `d`: the sum of the plane sizes (R111). -/
def tightTotal (d : Dims) : Nat := d.w * d.h + 2 * (d.chroma.w * d.chroma.h)

/-- The dimensions of a command's output image (R161). -/
def outDims : Instr → Dims → Dims
  | .copyPlane _ _ _, d => d
  | .interleaveUv _ _ _, d => d
  | .rotatePlane _ _ angle, d => turned angle d
  | .layout _ _ _, d => d
  | .imageCopy _ _ _ _, d => d
  | .convertNv12 _ _ _ _, d => d
  | .rotate _ _ _ angle, d => turned angle d

/-- The layout a command writes once its format, angle and dimension checks have passed: NV12's for
CONVERT_NV12 and a LAYOUT of that format, I420's for the other image commands, none for the
primitives (R31, R162). -/
def layoutWritten : Instr → Dims → Option TightLayout
  | .copyPlane _ _ _, _ => none
  | .interleaveUv _ _ _, _ => none
  | .rotatePlane _ _ _, _ => none
  | .layout dst _ _, d => if dst = .nv12 then some (layoutNv12 d) else some (layoutI420 d)
  | .imageCopy _ _ _ _, d => some (layoutI420 d)
  | .convertNv12 _ _ _ _, d => some (layoutNv12 d)
  | .rotate _ _ _ angle, d => some (layoutI420 (turned angle d))

/-- Slot n passes the buffer check for a plane of `d` (R63). -/
def SlotFits (p : Params) (n : SlotId) (d : Dims) : Prop :=
  (d.w : Int) ≤ sint32 (p.slots.get n).stride ∧
  sint32 (p.slots.get n).stride * d.h ≤ uint32 (p.slots.get n).len ∧
  uint32 (p.slots.get n).addr + sint32 (p.slots.get n).stride * d.h ≤ 2 ^ 32

/-- DST0 passes the check of a tight destination of `total` bytes (R64). -/
def TightFits (p : Params) (total : Nat) : Prop :=
  total ≤ uint32 p.slots.dst0.len ∧ uint32 p.slots.dst0.addr + total ≤ 2 ^ 32

/-- Every buffer the command uses passes its check (R97). -/
def BuffersFit (i : Instr) (p : Params) (d : Dims) : Prop :=
  (∀ e ∈ slotTable i d, SlotFits p e.1 e.2) ∧
  (usesTight i = true → TightFits p (tightTotal (outDims i d)))

/-! ### When a command's memory result is defined -/

/-- No source extent and no byte of the write footprint lies in a device region or in the register
window (R67). -/
def OrdinaryBuffers (s : State) (plan : Plan) : Prop :=
  ∀ r ∈ s.platform.window :: s.platform.devices, ∀ a, r.contains a = true →
    (∀ v ∈ plan.sources, v.extent.contains a = false) ∧ a ∉ plan.writeFootprint

/-- The memory faults no access the engine may make (R61, R67). -/
def NoBusFault (s : State) (plan : Plan) : Prop :=
  (∀ v ∈ plan.sources, ∀ a, v.extent.contains a = true → s.faults .read a = false) ∧
  ∀ a ∈ plan.writeFootprint, s.faults .write a = false

/-- R68: the read and write footprints are disjoint, and the destination views' footprints are
pairwise disjoint. -/
def Separated (plan : Plan) : Prop :=
  (∀ a ∈ plan.readFootprint, a ∉ plan.writeFootprint) ∧
  plan.dests.Pairwise fun u v => ∀ a ∈ u.footprint, a ∉ v.footprint

/-- The memory result of the plan is the moves' result: ordinary buffers (R67), no bus fault (R186),
separated footprints (R68) and no host access to them (R77). -/
def Undisturbed (s : State) (plan : Plan) : Prop :=
  OrdinaryBuffers s plan ∧ NoBusFault s plan ∧ Separated plan ∧ s.interfered = false

/-- The bytes of plane `dst` in memory `after` are the bytes of plane `src` in memory `before`,
column by column and row by row, where output (x, y) is input `source x y`. -/
def PlaneMoved (before after : Memory) (src dst : View) (source : Nat → Nat → Nat × Nat) : Prop :=
  ∀ x y, x < dst.width → y < dst.height →
    after.read (dst.byteAddr x y) = before.read (src.byteAddr (source x y).1 (source x y).2)

/-- The bytes of the UV plane `dst` in memory `after` are the pairs of the U and V planes in memory
`before` (R130). -/
def PairsMoved (before after : Memory) (u v dst : View) : Prop :=
  ∀ col row, col < u.width → row < u.height →
    after.read (dst.byteAddr (2 * col) row) = before.read (u.byteAddr col row) ∧
    after.read (dst.byteAddr (2 * col + 1) row) = before.read (v.byteAddr col row)

/-- Every byte outside the addresses reads as before. -/
def SameOutside (before after : Memory) (addrs : List Nat) : Prop :=
  ∀ a, a ∉ addrs → after.read a = before.read a

/-- The bytes a command leaves unspecified hold the free values of one draw. -/
def Unspecified (after : Memory) (draw : Nat) (addrs : List Nat) : Prop :=
  ∀ a ∈ addrs, after.read a = Config.unspecifiedByte draw a

/-- The address is one the memory faults and the engine may access: a read inside a source extent or
a write of the write footprint (R67, R186). -/
def FaultedAddress (s : State) (plan : Plan) (a : Nat) : Prop :=
  ((∃ v ∈ plan.sources, v.extent.contains a = true) ∧ s.faults .read a = true) ∨
  (a ∈ plan.writeFootprint ∧ s.faults .write a = true)

/-- The address is ordinary memory for a host: outside the register window and every device (R67,
R72). -/
def HostAddress (s : State) (addr : Word) : Prop :=
  s.platform.window.contains (uint32 addr) = false ∧
  ∀ r ∈ s.platform.devices, r.contains (uint32 addr) = false

/-! ### How a command ends -/

/-- The state after a command that ends without error: the registers `regs` with STATUS.ERR,
STATUS.ERR_SLOT and ERR_ADDR 0 and DONE set (R29, R181), the engine IDLE, memory `m`, the engine's
written bytes to be invalidated by hosts without coherent caches (R78), the end of the command unseen
(R77), and one draw used. -/
def ended (s : State) (regs : Registers) (plan : Plan) (m : Memory) : State :=
  { s with
    regs := { regs with err := .none, errSlot := 0, errAddr := 0, done := true },
    engine := .idle, mem := m,
    stale := if s.platform.coherent then s.stale else plan.writeFootprint ++ s.stale,
    unseen := plan.buffers :: s.unseen,
    draws := s.draws + 1 }

/-- The state after a command that ends with a precise error: STATUS and ERR_ADDR as R181 records
them, on the registers `regs`, and the engine IDLE. -/
def failed (s : State) (regs : Registers) (code : ErrCode) (slot : BitVec 3) : State :=
  { s with
    regs := { regs with err := code, errSlot := slot, errAddr := 0, done := true },
    engine := .idle }

/-! ### Consistent states -/

/-- While BUSY the outcome fields are cleared and the registers still hold what START latched;
LAYOUT_OVF is set only where the running command sets it (R24, R34, R36, R38). -/
def BusyConsistent (s : State) : Prop :=
  ∀ latched interfered, s.engine = .busy latched interfered →
    s.regs.done = false ∧ s.regs.err = .none ∧ s.regs.errSlot = 0 ∧ s.regs.errAddr = 0 ∧
    latched = s.regs.params ∧
    (s.regs.layoutOvf = true → ∃ l, s.pendingLayout = some l ∧ l.total ≥ 2 ^ 32)

/-- The outcome fields agree: ERR_SLOT is a slot number and is 0 unless ERR is BUFFER_TOO_SMALL, and
ERR_ADDR is 0 unless ERR is BUS_ERROR (R27, R29, R181). -/
def OutcomeConsistent (regs : Registers) : Prop :=
  regs.errSlot.toNat ≤ 5 ∧ (regs.err ≠ .bufferTooSmall → regs.errSlot = 0) ∧
  (regs.err ≠ .busError → regs.errAddr = 0)

/-- The invariant of the machine: memory in its canonical form, the outcome fields consistent, BUSY
consistent, every address the model remembers inside the memory space, and no host cache line
outstanding where caches are coherent (R60, R78). -/
def Consistent (s : State) : Prop :=
  s.mem.wf ∧ OutcomeConsistent s.regs ∧ BusyConsistent s ∧ (∀ a ∈ s.uncleaned, a < 2 ^ 32) ∧
  (∀ a ∈ s.stale, a < 2 ^ 32) ∧ (∀ p ∈ s.unseen, ∀ a ∈ p.writeFootprint, a < 2 ^ 32) ∧
  (s.platform.coherent = true → s.uncleaned = [] ∧ s.stale = [])

end Sys2Proof.Safety
end

