-- ==== Sys2Proof/Certificates/Slice0/Obligations.lean ====
section
/-! DEFINITION. The statements for the provers, each formalising what the spec says of the block. Every
statement about a memory result assumes that memory is in its canonical form (`Memory.wf`), which
`StepKeepsConsistent` says every step keeps. Conventions of the model's own that the statements use: one
engine turn runs a whole command (log 4); a free value is a constant of Config applied to a draw number
(log 5, log 15); agents act by events of one queue (log 12); `exec` on an IDLE state reads the registers
that START would latch (log 14). -/

open Sys2Proof Sys2Proof.Machine Sys2Proof.Safety

/-! ### Encoding (30_encoding.md) -/

/-- R99, R100: decoding the bytes of an encoded well-formed command gives it back, every field of
every command at every value, those it ignores too, which the model's syntax keeps (log 16). -/
def Obligations.DecodeEncodeRoundTrip : Prop :=
  ∀ i : Instr, i.wellFormed = true → decode (encode i) = .ok i

/-- R99, R100, with the syntax as the model keeps it: a word that decodes is the encoding of what it
decodes to, so no bit of a legal word is lost and no two words decode to one term. That rests on the
model's choice to keep in the syntax the fields that a command ignores (log 16); R99's Decode drops them
there. -/
def Obligations.LegalWordIsItsEncoding : Prop :=
  ∀ (c : Word) (i : Instr), decodeWord c = .ok i → encodeWord i = c ∧ i.wellFormed = true

/-- R98: exactly the words with OP 0x0 or 0x8 to 0xF, a reserved bit set, or TIGHT = 1 with OP 0x1 to
0x4 are rejected. -/
def Obligations.IllegalWordsAreThoseOfTheList : Prop :=
  ∀ c : Word, (∃ r, decodeWord c = .error r) ↔
    (bits 3 0 c = 0 ∨ 8 ≤ bits 3 0 c) ∨
    (bits 7 5 c ≠ 0 ∨ bits 11 10 c ≠ 0 ∨ bits 15 14 c ≠ 0) ∨
    (bits 4 4 c = 1 ∧ 1 ≤ bits 3 0 c ∧ bits 3 0 c ≤ 4)

/-- R103: the encoding examples. -/
def Obligations.ExampleWordsDecode : Prop :=
  decodeWord 0x00000001 = .ok (.copyPlane .i420 .i420 0) ∧
  decodeWord 0x00000002 = .ok (.interleaveUv .i420 .i420 0) ∧
  decodeWord 0x005A0003 = .ok (.rotatePlane .i420 .i420 90) ∧
  decodeWord 0x00B40003 = .ok (.rotatePlane .i420 .i420 180) ∧
  decodeWord 0x010E0003 = .ok (.rotatePlane .i420 .i420 270) ∧
  decodeWord 0x00000004 = .ok (.layout .i420 .i420 0) ∧
  decodeWord 0x00000104 = .ok (.layout .nv12 .i420 0) ∧
  decodeWord 0x00000005 = .ok (.imageCopy false .i420 .i420 0) ∧
  decodeWord 0x00000015 = .ok (.imageCopy true .i420 .i420 0) ∧
  decodeWord 0x00000006 = .ok (.convertNv12 false .i420 .i420 0) ∧
  decodeWord 0x00000116 = .ok (.convertNv12 true .nv12 .i420 0) ∧
  decodeWord 0x005A0007 = .ok (.rotate false .i420 .i420 90) ∧
  decodeWord 0x005A0017 = .ok (.rotate true .i420 .i420 90) ∧
  decodeWord 0x010E0017 = .ok (.rotate true .i420 .i420 270) ∧
  decodeWord 0x002D0007 = .ok (.rotate false .i420 .i420 45)

/-! ### Steps (R180, R198; the queue of events is the model's own, log 12) -/

/-- R180, with the model's own queue and turns (log 4, log 12): while BUSY with nothing waiting, one
step is `exec` of the decoded latched word; with the engine's turn at the head of the queue it is the
same on the state behind that event. -/
def Obligations.StepRunsDecodedCommand : Prop :=
  ∀ (s : State) (latched : Params) (f : Bool) (i : Instr),
    s.engine = .busy latched f → decodeWord latched.cmd = .ok i →
    (s.inbox = [] → step s = exec i s) ∧
    (∀ rest, s.inbox = .engineTurn :: rest → step s = exec i (s.afterEvent rest))

/-- R24, R180: a word that a host has put into CMD and started is decoded and run by the next step
(`withFetchWord` stands for the host, log 12). -/
def Obligations.CommandedWordRunsNext : Prop :=
  ∀ (s : State) (nbits w : Nat) (i : Instr), decodeTableWord nbits w = some i →
    step (s.withFetchWord nbits w) = exec i (s.withFetchWord nbits w)

/-- R98, R180: an illegal word ends with ILLEGAL_COMMAND before any other check, in one turn of the
engine (log 4), and nothing but the outcome changes. -/
def Obligations.IllegalCommandEndsAtOnce : Prop :=
  ∀ (s : State) (latched : Params) (f : Bool) (r : DecodeReject),
    s.engine = .busy latched f → decodeWord latched.cmd = .error r → s.inbox = [] →
    step s = .next (failed s s.regs .illegalCommand 0)

/-- R198, R210: an IDLE block starts nothing by itself and keeps every register and every byte; that a
step of it with nothing waiting leaves the whole state alone is the model's choice (log 18). -/
def Obligations.IdleKeepsEverything : Prop :=
  ∀ s : State, s.engine = .idle → s.inbox = [] → step s = .next s

/-- R180, R181: a turn of a BUSY engine ends the command (one turn is the model's choice, log 4):
BUSY 0 and DONE 1, ERR_SLOT 0 unless ERR is BUFFER_TOO_SMALL, ERR_ADDR 0 unless it is BUS_ERROR, and
`irq` at the enable. -/
def Obligations.EngineTurnEndsTheCommand : Prop :=
  ∀ (s t : State) (latched : Params) (f : Bool),
    s.engine = .busy latched f → s.inbox = [] → step s = .next t →
    t.busy = false ∧ t.regs.done = true ∧ t.irq = s.regs.irqEn ∧
    (t.regs.err ≠ .bufferTooSmall → t.regs.errSlot = 0) ∧
    (t.regs.err ≠ .busError → t.regs.errAddr = 0)

/-- R180, D26: a started command ends: after at most as many steps as events wait, and one more, the
engine is IDLE, unless the model refuses an event or the command on the way. The bound is the model's
own (log 4, log 12). -/
def Obligations.StartedCommandEnds : Prop :=
  ∀ s : State, s.busy = true → ∃ k, k ≤ s.inbox.length + 1 ∧
    ((∃ t, Sys2Proof.core.run k s = .next t ∧ State.busy t = false) ∨
      ∃ r, Sys2Proof.core.run k s = .refused r)

/-! ### What each command does when it completes -/

/-- R114 (with R110, R111, R113): LAYOUT of an accepted format completes for every width and height of
at least 1, writes each layout register modulo 2^32 and LAYOUT_OVF, and changes nothing else. -/
def Obligations.LayoutCompletes : Prop :=
  ∀ (dst src : FmtTag) (angle : Nat) (s : State) (d : Dims),
    HasDims s.params d → dst = .i420 ∨ dst = .nv12 →
    ∃ l : LayoutRegs, ∃ ovf : Bool,
      exec (.layout dst src angle) s =
        .next (ended s { s.regs with layout := l, layoutOvf := ovf } Plan.empty s.mem) ∧
      l.cw = mod32 ((d.w + 1) / 2) ∧ l.ch = mod32 ((d.h + 1) / 2) ∧
      l.outW = mod32 d.w ∧ l.outH = mod32 d.h ∧
      l.yOff = 0 ∧ l.yStride = mod32 d.w ∧ l.uOff = mod32 (d.w * d.h) ∧
      (dst = .i420 → l.uStride = mod32 ((d.w + 1) / 2) ∧
        l.vOff = mod32 (d.w * d.h + (d.w + 1) / 2 * ((d.h + 1) / 2)) ∧
        l.vStride = mod32 ((d.w + 1) / 2)) ∧
      (dst = .nv12 → l.uStride = mod32 (2 * ((d.w + 1) / 2)) ∧ l.vOff = 0 ∧ l.vStride = 0) ∧
      l.total = mod32 (d.w * d.h + 2 * ((d.w + 1) / 2) * ((d.h + 1) / 2)) ∧
      (ovf = true ↔ d.w * d.h + 2 * ((d.w + 1) / 2) * ((d.h + 1) / 2) ≥ 2 ^ 32)

/-- R121, R122: COPY_PLANE, whatever its ignored fields, completes on buffers that fit and are
undisturbed: the destination plane holds the source plane, every other byte and every register but
the outcome is unchanged. -/
def Obligations.CopyPlaneCompletes : Prop :=
  ∀ (dst src : FmtTag) (angle : Nat) (s : State) (d : Dims),
    s.mem.wf → HasDims s.params d →
    SlotFits s.params .src0 d → SlotFits s.params .dst0 d →
    Undisturbed s (copyPlanePlan s.params d) →
    ∃ m, exec (.copyPlane dst src angle) s =
        .next (ended s s.regs (copyPlanePlan s.params d) m) ∧
      PlaneMoved s.mem m (s.params.view .src0 d.w d.h) (s.params.view .dst0 d.w d.h) sameSample ∧
      SameOutside s.mem m (s.params.view .dst0 d.w d.h).footprint

/-- R131, R132: INTERLEAVE_UV completes: the U byte at the even offset and the V byte at the next
address, nothing else changed. -/
def Obligations.InterleaveUvCompletes : Prop :=
  ∀ (dst src : FmtTag) (angle : Nat) (s : State) (d : Dims),
    s.mem.wf → HasDims s.params d →
    SlotFits s.params .src1 d → SlotFits s.params .src2 d →
    SlotFits s.params .dst1 { w := 2 * d.w, h := d.h } →
    Undisturbed s (interleaveUvPlan s.params d) →
    ∃ m, exec (.interleaveUv dst src angle) s =
        .next (ended s s.regs (interleaveUvPlan s.params d) m) ∧
      PairsMoved s.mem m (s.params.view .src1 d.w d.h) (s.params.view .src2 d.w d.h)
        (s.params.view .dst1 (2 * d.w) d.h) ∧
      SameOutside s.mem m (s.params.view .dst1 (2 * d.w) d.h).footprint

/-- R140 to R146: ROTATE_PLANE completes for each accepted angle, into a plane of the rotated
dimensions, each output sample from the input sample R141 to R144 name. -/
def Obligations.RotatePlaneCompletes : Prop :=
  ∀ (dst src : FmtTag) (r : Rotation) (s : State) (d : Dims),
    s.mem.wf → HasDims s.params d →
    SlotFits s.params .src0 d → SlotFits s.params .dst0 (turned (degrees r) d) →
    Undisturbed s (rotatePlanePlan s.params r d) →
    ∃ m, exec (.rotatePlane dst src (degrees r)) s =
        .next (ended s s.regs (rotatePlanePlan s.params r d) m) ∧
      PlaneMoved s.mem m (s.params.view .src0 d.w d.h)
        (s.params.view .dst0 (turned (degrees r) d).w (turned (degrees r) d).h)
        (inputSample r d) ∧
      SameOutside s.mem m
        (s.params.view .dst0 (turned (degrees r) d).w (turned (degrees r) d).h).footprint

/-- R163, R164: IMAGE_COPY completes in both destination modes: each destination plane holds the
source plane, no other byte changes, and the layout registers hold the I420 layout. -/
def Obligations.ImageCopyCompletes : Prop :=
  ∀ (tight : Bool) (dst : FmtTag) (angle : Nat) (s : State) (d : Dims),
    s.mem.wf → HasDims s.params d → (tight = true → dst = .i420) →
    BuffersFit (.imageCopy tight dst .i420 angle) s.params d →
    Undisturbed s (imageCopyPlan s.params tight d) →
    ∃ m, exec (.imageCopy tight dst .i420 angle) s =
        .next (ended s (s.regs.writeLayout (layoutI420 d)) (imageCopyPlan s.params tight d) m) ∧
      PlaneMoved s.mem m (sourcePlanes s.params d).y (i420Planes s.params tight d).y sameSample ∧
      PlaneMoved s.mem m (sourcePlanes s.params d).u (i420Planes s.params tight d).u sameSample ∧
      PlaneMoved s.mem m (sourcePlanes s.params d).v (i420Planes s.params tight d).v sameSample ∧
      SameOutside s.mem m ((i420Planes s.params tight d).y.footprint ++
        (i420Planes s.params tight d).u.footprint ++ (i420Planes s.params tight d).v.footprint)

/-- R165, R166: CONVERT_NV12 completes in both destination modes: Y copied, U and V interleaved, no
other byte changed, and the layout registers hold the NV12 layout. -/
def Obligations.ConvertNv12Completes : Prop :=
  ∀ (tight : Bool) (dst : FmtTag) (angle : Nat) (s : State) (d : Dims),
    s.mem.wf → HasDims s.params d → (tight = true → dst = .nv12) →
    BuffersFit (.convertNv12 tight dst .i420 angle) s.params d →
    Undisturbed s (convertNv12Plan s.params tight d) →
    ∃ m, exec (.convertNv12 tight dst .i420 angle) s =
        .next (ended s (s.regs.writeLayout (layoutNv12 d)) (convertNv12Plan s.params tight d) m) ∧
      PlaneMoved s.mem m (sourcePlanes s.params d).y (nv12Planes s.params tight d).1 sameSample ∧
      PairsMoved s.mem m (sourcePlanes s.params d).u (sourcePlanes s.params d).v
        (nv12Planes s.params tight d).2 ∧
      SameOutside s.mem m ((nv12Planes s.params tight d).1.footprint ++
        (nv12Planes s.params tight d).2.footprint)

/-- R170, R172: ROTATE completes for each accepted angle in both destination modes: each plane is
rotated into a plane of the rotated dimensions, no other byte changes, and the layout registers hold
the layout of the rotated image. -/
def Obligations.RotateCompletes : Prop :=
  ∀ (tight : Bool) (dst : FmtTag) (r : Rotation) (s : State) (d : Dims),
    s.mem.wf → HasDims s.params d → (tight = true → dst = .i420) →
    BuffersFit (.rotate tight dst .i420 (degrees r)) s.params d →
    Undisturbed s (rotatePlan s.params tight r d) →
    ∃ m, exec (.rotate tight dst .i420 (degrees r)) s =
        .next (ended s (s.regs.writeLayout (layoutI420 (turned (degrees r) d)))
          (rotatePlan s.params tight r d) m) ∧
      PlaneMoved s.mem m (sourcePlanes s.params d).y
        (i420Planes s.params tight (turned (degrees r) d)).y (inputSample r d) ∧
      PlaneMoved s.mem m (sourcePlanes s.params d).u
        (i420Planes s.params tight (turned (degrees r) d)).u (inputSample r d.chroma) ∧
      PlaneMoved s.mem m (sourcePlanes s.params d).v
        (i420Planes s.params tight (turned (degrees r) d)).v (inputSample r d.chroma) ∧
      SameOutside s.mem m ((i420Planes s.params tight (turned (degrees r) d)).y.footprint ++
        (i420Planes s.params tight (turned (degrees r) d)).u.footprint ++
        (i420Planes s.params tight (turned (degrees r) d)).v.footprint)

/-! ### Laws of the transformations -/

/-- R132: whenever R68 holds and INTERLEAVE_UV ends without error, undisturbed by a host, the UV plane
holds the pairs and no other byte changes. -/
def Obligations.InterleaveLaw : Prop :=
  ∀ (dst src : FmtTag) (angle : Nat) (s t : State) (d : Dims),
    s.mem.wf → HasDims s.params d → s.interfered = false →
    Separated (interleaveUvPlan s.params d) →
    exec (.interleaveUv dst src angle) s = .next t → t.regs.err = .none →
    PairsMoved s.mem t.mem (s.params.view .src1 d.w d.h) (s.params.view .src2 d.w d.h)
      (s.params.view .dst1 (2 * d.w) d.h) ∧
    SameOutside s.mem t.mem (s.params.view .dst1 (2 * d.w) d.h).footprint

/-- R122: whenever R68 holds and COPY_PLANE ends without error, undisturbed by a host, the destination
holds the source as it was and every other byte is unchanged; and repeating the command on the result
gives the same memory. -/
def Obligations.CopyPlaneLawAndRepeat : Prop :=
  ∀ (dst src : FmtTag) (angle : Nat) (s t u : State) (d : Dims),
    s.mem.wf → HasDims s.params d → s.interfered = false →
    Separated (copyPlanePlan s.params d) →
    exec (.copyPlane dst src angle) s = .next t → t.regs.err = .none →
    PlaneMoved s.mem t.mem (s.params.view .src0 d.w d.h) (s.params.view .dst0 d.w d.h)
      sameSample ∧
    SameOutside s.mem t.mem (s.params.view .dst0 d.w d.h).footprint ∧
    (t.params = s.params → exec (.copyPlane dst src angle) t = .next u → u.regs.err = .none →
      u.mem = t.mem)

/-- R122: a copy from one view to another of the same size, and back, restores the source footprint
and the rest of memory outside the second view. -/
def Obligations.CopyAndBackRestores : Prop :=
  ∀ (a b : View) (m : Memory), m.wf → a.width = b.width → a.height = b.height →
    a.width ≤ a.stride → b.width ≤ b.stride → (∀ x ∈ a.footprint, x ∉ b.footprint) →
    SameOutside m ((m.runMoves (copyMoves a b)).runMoves (copyMoves b a)) b.footprint

/-- R120, D18: the final memory of a command whose footprints are separated is the same for every
order of its byte moves. -/
def Obligations.MoveOrderDoesNotMatter : Prop :=
  ∀ (i : Instr) (p : Params) (plan : Plan) (moves : List Move) (m : Memory),
    m.wf → (workOf i p).plan = .ok plan → Separated plan → moves.Perm plan.moves →
    m.runMoves moves = m.runMoves plan.moves

/-- R145: for every angle the rotate loop writes each byte of the destination once and reads each byte
of the source for exactly one of them, and at angle 0 it is the copy loop. -/
def Obligations.RotationReadsEachSampleOnce : Prop :=
  ∀ (r : Rotation) (s d : View), s.width ≤ s.stride → d.width ≤ d.stride →
    (Dims.mk s.width s.height).rotated r = ⟨d.width, d.height⟩ →
    ((rotateMoves r s d).map Move.dst).Nodup ∧
    ((rotateMoves r s d).map Move.dst).Perm d.footprint ∧
    ((rotateMoves r s d).map Move.src).Perm s.footprint ∧
    (r = .r0 → rotateMoves r s d = copyMoves s d)

/-- R147: rotating a plane by one angle into a second plane and by another into a third is rotating it
by the sum of the angles; so two rotations by 180 degrees, or one by 90 and one by 270, give the plane
back. -/
def Obligations.RotationsCompose : Prop :=
  ∀ (r1 r2 : Rotation) (a b c : View) (d : Dims) (m : Memory), m.wf →
    a.width = d.w → a.height = d.h →
    (Dims.mk b.width b.height) = d.rotated r1 →
    (Dims.mk c.width c.height) = (d.rotated r1).rotated r2 →
    b.width ≤ b.stride → c.width ≤ c.stride →
    (∀ x ∈ a.footprint, x ∉ b.footprint) → (∀ x ∈ b.footprint, x ∉ c.footprint) →
    PlaneMoved m ((m.runMoves (rotateMoves r1 a b)).runMoves (rotateMoves r2 b c)) a c
      (inputSample (thenTurn r1 r2) d)

/-- R171: ROTATE with angle 0 has exactly the outcome of IMAGE_COPY with the same operands, TIGHT,
SRC_FMT and DST_FMT, whatever IMAGE_COPY's ignored ANGLE. -/
def Obligations.RotateByZeroIsImageCopy : Prop :=
  ∀ (tight : Bool) (dst src : FmtTag) (angle : Nat) (s : State),
    exec (.rotate tight dst src 0) s = exec (.imageCopy tight dst src angle) s

/-- R172 (with R110, R140, R160, R161): in both destination modes the planes of a rotated image have
the turned luma dimensions and, for U and V, the rounded-up halves of those; and these are the
dimensions of the source chroma plane, turned, odd sizes included. -/
def Obligations.ChromaOfRotatedImage : Prop :=
  ∀ (p : Params) (tight : Bool) (r : Rotation) (d : Dims),
    dimsOf (sourcePlanes p d).u = ⟨(d.w + 1) / 2, (d.h + 1) / 2⟩ ∧
    dimsOf (sourcePlanes p d).v = ⟨(d.w + 1) / 2, (d.h + 1) / 2⟩ ∧
    dimsOf (i420Planes p tight (d.rotated r)).y = turned (degrees r) d ∧
    dimsOf (i420Planes p tight (d.rotated r)).u =
      ⟨((turned (degrees r) d).w + 1) / 2, ((turned (degrees r) d).h + 1) / 2⟩ ∧
    dimsOf (i420Planes p tight (d.rotated r)).v =
      ⟨((turned (degrees r) d).w + 1) / 2, ((turned (degrees r) d).h + 1) / 2⟩ ∧
    dimsOf (i420Planes p tight (d.rotated r)).u =
      turned (degrees r) (dimsOf (sourcePlanes p d).u) ∧
    dimsOf (i420Planes p tight (d.rotated r)).v =
      turned (degrees r) (dimsOf (sourcePlanes p d).v)

/-- R115: the law of the layout. -/
def Obligations.LayoutLaw : Prop :=
  ∀ d : Dims, 0 < d.w → 0 < d.h →
    ((layoutI420 d).cw : Int) = ⌈(d.w : ℚ) / 2⌉ ∧ ((layoutI420 d).ch : Int) = ⌈(d.h : ℚ) / 2⌉ ∧
    (2 * (layoutI420 d).cw = d.w ∨ 2 * (layoutI420 d).cw = d.w + 1) ∧
    (2 * (layoutI420 d).ch = d.h ∨ 2 * (layoutI420 d).ch = d.h + 1) ∧
    (layoutNv12 d).cw = (layoutI420 d).cw ∧ (layoutNv12 d).ch = (layoutI420 d).ch ∧
    (layoutNv12 d).total = (layoutI420 d).total ∧
    (2 ∣ d.w → 2 ∣ d.h → (layoutI420 d).total = 3 * d.w * d.h / 2)

/-- R112: the tight views start where Y, U, V (or Y, UV) follow one another, each with its stride
equal to its row width, and they tile the buffer exactly, with no gap and no overlap. -/
def Obligations.TightViewsTileTheBuffer : Prop :=
  ∀ (d : Dims) (addr a : Nat),
    tightViewsI420 (layoutI420 d) addr =
      { y := ⟨addr, d.w, d.w, d.h⟩,
        u := ⟨addr + d.w * d.h, (d.w + 1) / 2, (d.w + 1) / 2, (d.h + 1) / 2⟩,
        v := ⟨addr + d.w * d.h + (d.w + 1) / 2 * ((d.h + 1) / 2), (d.w + 1) / 2, (d.w + 1) / 2,
          (d.h + 1) / 2⟩ } ∧
    tightViewsNv12 (layoutNv12 d) addr =
      (⟨addr, d.w, d.w, d.h⟩,
       ⟨addr + d.w * d.h, 2 * ((d.w + 1) / 2), 2 * ((d.w + 1) / 2), (d.h + 1) / 2⟩) ∧
    (addr ≤ a ∧ a < addr + (layoutI420 d).total ↔
      a ∈ (tightViewsI420 (layoutI420 d) addr).y.footprint ∨
      a ∈ (tightViewsI420 (layoutI420 d) addr).u.footprint ∨
      a ∈ (tightViewsI420 (layoutI420 d) addr).v.footprint) ∧
    (addr ≤ a ∧ a < addr + (layoutNv12 d).total ↔
      a ∈ (tightViewsNv12 (layoutNv12 d) addr).1.footprint ∨
      a ∈ (tightViewsNv12 (layoutNv12 d) addr).2.footprint) ∧
    ((tightViewsI420 (layoutI420 d) addr).y.footprint ++
      (tightViewsI420 (layoutI420 d) addr).u.footprint ++
      (tightViewsI420 (layoutI420 d) addr).v.footprint).Nodup ∧
    ((tightViewsNv12 (layoutNv12 d) addr).1.footprint ++
      (tightViewsNv12 (layoutNv12 d) addr).2.footprint).Nodup

/-! ### Errors (60_exceptions.md) -/

/-- R184: a tag a command does not accept raises UnsupportedFormat and an angle it does not accept
UnsupportedAngle, changing nothing but the outcome; accepted ones raise neither. -/
def Obligations.FormatsAndAnglesAccepted : Prop :=
  ∀ (i : Instr) (s : State),
    (formatsAccepted i = false → exec i s = .next (failed s s.regs .unsupportedFormat 0)) ∧
    (formatsAccepted i = true → angleAccepted i = false →
      exec i s = .next (failed s s.regs .unsupportedAngle 0)) ∧
    (formatsAccepted i = true → angleAccepted i = true → ∀ t, exec i s = .next t →
      t.regs.err ≠ .unsupportedFormat ∧ t.regs.err ≠ .unsupportedAngle)

/-- R185: every legal command with an accepted format and angle ends with INVALID_DIMENSIONS when
WIDTH or HEIGHT is at most 0, and changes nothing but the outcome. -/
def Obligations.BadDimensionsRaised : Prop :=
  ∀ (i : Instr) (s : State), formatsAccepted i = true → angleAccepted i = true →
    BadDims s.params → exec i s = .next (failed s s.regs .invalidDimensions 0)

/-- R183 (5), R97, R181: with everything before accepted, the first slot of the command's row that does
not fit is reported by its number of R21, SRC0 to SRC2 as 0 to 2 and DST0 to DST2 as 3 to 5, after the
layout is written; and where all slots fit, a tight buffer that does not fit is reported as slot 3. -/
def Obligations.FirstFailingBufferReported : Prop :=
  ∀ (i : Instr) (s : State) (d : Dims), formatsAccepted i = true → angleAccepted i = true →
    HasDims s.params d →
    (∀ (pre post : List (SlotId × Dims)) (e : SlotId × Dims) (n : BitVec 3),
      slotTable i d = pre ++ e :: post → (∀ x ∈ pre, SlotFits s.params x.1 x.2) →
      ¬ SlotFits s.params e.1 e.2 →
      (e.1, n) ∈ [(SlotId.src0, 0), (.src1, 1), (.src2, 2), (.dst0, 3), (.dst1, 4), (.dst2, 5)] →
      exec i s = .next (failed s (s.regs.layoutStep (layoutWritten i d)) .bufferTooSmall n)) ∧
    ((∀ e ∈ slotTable i d, SlotFits s.params e.1 e.2) → usesTight i = true →
      ¬ TightFits s.params (tightTotal (outDims i d)) →
      exec i s = .next (failed s (s.regs.layoutStep (layoutWritten i d)) .bufferTooSmall 3))

/-- R187: errors 1 to 5 leave every byte unchanged and change only STATUS (and ERR_ADDR and the phase,
by R181), and for BUFFER_TOO_SMALL of a command that writes a layout the layout registers. -/
def Obligations.PreciseErrors : Prop :=
  ∀ (i : Instr) (s t : State), exec i s = .next t → t.regs.err ≠ .none → t.regs.err ≠ .busError →
    t = failed s s.regs t.regs.err t.regs.errSlot ∨
    (t.regs.err = .bufferTooSmall ∧ ∃ d l, HasDims s.params d ∧ layoutWritten i d = some l ∧
      t = failed s (s.regs.writeLayout l) t.regs.err t.regs.errSlot)

/-- R186: when the memory faults an access the engine must make, the command ends with BUS_ERROR and
the address of one faulting access it may make; its write footprint is unspecified and no other byte
changes. -/
def Obligations.BusFaultEndsWithBusError : Prop :=
  ∀ (i : Instr) (s : State) (plan : Plan), s.mem.wf → (workOf i s.params).plan = .ok plan →
    OrdinaryBuffers s plan →
    ((∃ a ∈ plan.readFootprint, s.faults .read a = true) ∨
      ∃ a ∈ plan.writeFootprint, s.faults .write a = true) →
    ∃ (t : State) (a : Nat), exec i s = .next t ∧ t.engine = .idle ∧
      FaultedAddress s plan a ∧ a < 2 ^ 32 ∧
      t.regs = { s.regs.layoutStep (workOf i s.params).layout with
        err := .busError, errSlot := 0, errAddr := BitVec.ofNat 32 a, done := true } ∧
      Unspecified t.mem s.draws plan.writeFootprint ∧
      SameOutside s.mem t.mem plan.writeFootprint

/-- R68: when the footprints overlap, the engine still runs and reports no error for it; every byte of
the write footprint holds an unspecified value and every other byte is unchanged. -/
def Obligations.OverlapIsUnspecified : Prop :=
  ∀ (i : Instr) (s : State) (plan : Plan), s.mem.wf → (workOf i s.params).plan = .ok plan →
    ¬ Separated plan → OrdinaryBuffers s plan → NoBusFault s plan →
    ∃ m, exec i s =
        .next (ended s (s.regs.layoutStep (workOf i s.params).layout) plan m) ∧
      Unspecified m s.draws plan.writeFootprint ∧ SameOutside s.mem m plan.writeFootprint

/-- R67 (the window's place in the memory space is the model's choice, log 17): a command that passed
its checks is refused exactly when one of its source extents or its write footprint meets a device
region or the register window, and no command is refused otherwise. -/
def Obligations.DeviceBuffersRefused : Prop :=
  ∀ (i : Instr) (s : State) (r : Refusal),
    exec i s = .refused r ↔
      r = .deviceBuffer ∧ ∃ plan, (workOf i s.params).plan = .ok plan ∧ ¬ OrdinaryBuffers s plan

/-! ### Frames -/

/-- R66: a command that passes its checks writes every byte of its write footprint, and no command
writes a byte outside it, whatever its outcome; a command that fails a check writes none. -/
def Obligations.NoByteOutsideTheFootprint : Prop :=
  ∀ (i : Instr) (s t : State), exec i s = .next t →
    (∀ plan, (workOf i s.params).plan = .ok plan →
      (∀ a ∈ plan.writeFootprint, ∃ mv ∈ plan.moves, mv.dst = a) ∧
      SameOutside s.mem t.mem plan.writeFootprint) ∧
    (∀ e, (workOf i s.params).plan = .error e → t.mem = s.mem)

/-- R31, R38, R181: no command writes CTRL.IRQ_EN, CMD, WIDTH, HEIGHT or a slot register; the layout
registers and LAYOUT_OVF change only as `layoutWritten` says; and no command changes the model's own
fields but the draw number, the buffers whose command's end is unseen and, without coherent caches,
the bytes to be invalidated. -/
def Obligations.RegisterFrame : Prop :=
  ∀ (i : Instr) (s t : State), exec i s = .next t →
    t.regs.irqEn = s.regs.irqEn ∧ t.regs.params = s.regs.params ∧ t.regs.done = true ∧
    t.engine = .idle ∧ t.platform = s.platform ∧ t.busFaults = s.busFaults ∧
    t.uncleaned = s.uncleaned ∧ t.inbox = s.inbox ∧ t.readData = s.readData ∧
    (s.platform.coherent = true → t.stale = s.stale) ∧
    (t.unseen = s.unseen ∨ ∃ plan, (workOf i s.params).plan = .ok plan ∧
      t.unseen = plan.buffers :: s.unseen) ∧
    ((t.regs.layout = s.regs.layout ∧ t.regs.layoutOvf = s.regs.layoutOvf) ∨
      ∃ d l, HasDims s.params d ∧ layoutWritten i d = some l ∧ t.regs.layout = l.regs ∧
        t.regs.layoutOvf = decide (l.total ≥ 2 ^ 32))

/-- R31: the layout registers change only in the engine's turn and by reset; the primitives and every
command that ends with ILLEGAL_COMMAND, UNSUPPORTED_FORMAT, UNSUPPORTED_ANGLE or INVALID_DIMENSIONS
leave them unchanged; START does not clear them; a host's write to one is ignored. Each offset of
R21's table reads the register it names there, when no running command is about to write them. -/
def Obligations.LayoutRegistersReadOnly : Prop :=
  (∀ (s t : State) (e : Event), e ≠ .engineTurn → s.handle e = .next t →
    t.regs.layout = s.regs.layout ∨ t.regs = Registers.reset) ∧
  (∀ (s t : State) (i : Instr), exec i s = .next t →
    ((∃ dst src angle, i = .copyPlane dst src angle ∨ i = .interleaveUv dst src angle ∨
        i = .rotatePlane dst src angle) ∨
      t.regs.err = .unsupportedFormat ∨ t.regs.err = .unsupportedAngle ∨
      t.regs.err = .invalidDimensions) → t.regs.layout = s.regs.layout) ∧
  (∀ (s t : State) (latched : Params) (f : Bool) (r : DecodeReject),
    s.engine = .busy latched f → decodeWord latched.cmd = .error r →
    s.engineTurn = .next t → t.regs.layout = s.regs.layout) ∧
  (∀ s : State, s.start.regs.layout = s.regs.layout) ∧
  (∀ (s : State) (offset : Nat) (v : Word), 0x80 ≤ offset → offset ≤ 0xA8 → offset % 4 = 0 →
    s.regWrite offset 4 v = .next s) ∧
  (∀ s : State, s.pendingLayout = none →
    s.readOffset 0x80 = s.regs.layout.cw ∧ s.readOffset 0x84 = s.regs.layout.ch ∧
    s.readOffset 0x88 = s.regs.layout.outW ∧ s.readOffset 0x8C = s.regs.layout.outH ∧
    s.readOffset 0x90 = s.regs.layout.yOff ∧ s.readOffset 0x94 = s.regs.layout.yStride ∧
    s.readOffset 0x98 = s.regs.layout.uOff ∧ s.readOffset 0x9C = s.regs.layout.uStride ∧
    s.readOffset 0xA0 = s.regs.layout.vOff ∧ s.readOffset 0xA4 = s.regs.layout.vStride ∧
    s.readOffset 0xA8 = s.regs.layout.total)

/-- R20, R68, R182: what a command leaves in its write footprint, and its error code, depend only on
its operands, on the bytes of its read footprint, and on what the platform and the hosts did; no other
byte of memory can influence them. -/
def Obligations.ResultDependsOnlyOnReadFootprint : Prop :=
  ∀ (i : Instr) (s s' t t' : State) (plan : Plan),
    s.mem.wf → s'.mem.wf → s.params = s'.params → s.platform = s'.platform →
    s.busFaults = s'.busFaults → s.interfered = s'.interfered → s.draws = s'.draws →
    (workOf i s.params).plan = .ok plan →
    (∀ a ∈ plan.readFootprint, s.mem.read a = s'.mem.read a) →
    exec i s = .next t → exec i s' = .next t' →
    (∀ a ∈ plan.writeFootprint, t.mem.read a = t'.mem.read a) ∧
    t.regs.err = t'.regs.err ∧ t.regs.errAddr = t'.regs.errAddr

/-! ### The register port (10_state.md) -/

/-- R22: ID always reads 0x53504331, in every state; a write to it changes nothing, and reset does not
change it. -/
def Obligations.IdIsConstant : Prop :=
  ∀ (s : State) (v : Word),
    s.regRead 0x00 4 = .next { s with readData := 0x53504331, draws := s.draws + 1 } ∧
    s.regWrite 0x00 4 v = .next s ∧
    (∀ t, s.handle .resetInput = .next t → t.readOffset 0x00 = 0x53504331)

/-- R23: a read of CTRL returns `IRQ_EN << 1`; a write of CTRL takes IRQ_EN from bit 1 unless it asks
for a software reset, and one that asks for neither a reset nor a start changes nothing else. -/
def Obligations.CtrlReadAndWrite : Prop :=
  ∀ (s : State) (v : Word),
    s.readOffset 0x04 = (if s.regs.irqEn = true then 2 else 0) ∧
    (bits 2 2 v = 0 → ∃ t, s.regWrite 0x04 4 v = .next t ∧
      t.regs.irqEn = decide (bits 1 1 v = 1)) ∧
    (bits 2 2 v = 0 → bits 0 0 v = 0 →
      s.regWrite 0x04 4 v =
        .next { s with regs := { s.regs with irqEn := decide (bits 1 1 v = 1) } })

/-- R24: START while IDLE clears the outcome, latches the registers and becomes BUSY, in the same
write that sets IRQ_EN; START while BUSY only sets IRQ_EN. The flag of `busy` is the model's own (log
4, log 10): the command starts undisturbed when caches are coherent, and when no cache line that a
host has not cleaned holds a byte of the command's buffers (R75, R78). -/
def Obligations.StartLatchesOrIsIgnored : Prop :=
  ∀ (s : State) (v : Word), bits 0 0 v = 1 → bits 2 2 v = 0 →
    (s.engine = .idle → ∃ f, s.regWrite 0x04 4 v = .next
      { s with
        regs := { s.regs with irqEn := decide (bits 1 1 v = 1), done := false, err := .none,
                              errSlot := 0, layoutOvf := false, errAddr := 0 },
        engine := .busy { cmd := s.regs.cmd, width := s.regs.width, height := s.regs.height,
                          slots := s.regs.slots } f } ∧
      (s.platform.coherent = true → f = false) ∧
      ((∀ plan a b, s.regs.params.plan = some plan → a ∈ s.uncleaned →
        (s.platform.line a).contains b = true → plan.touches b = false) → f = false)) ∧
    (s.busy = true → s.regWrite 0x04 4 v =
      .next { s with regs := { s.regs with irqEn := decide (bits 1 1 v = 1) } })

/-- R27, R28, R29, R38, R182: the fields of a STATUS read, the codes of ERR by their numbers among them,
and LAYOUT_OVF when no command runs that is about to set it; once LAYOUT_OVF reads 1 it stays 1 until START or reset; and ERR_ADDR reads the
register, which a host's write does not change. That a running command may show LAYOUT_OVF before it
ends is a free value (log 9). -/
def Obligations.StatusFields : Prop :=
  ∀ s : State,
    bits 0 0 (s.readOffset 0x08) = (if s.busy = true then 1 else 0) ∧
    bits 1 1 (s.readOffset 0x08) = (if s.regs.done = true then 1 else 0) ∧
    ((∀ l, s.pendingLayout = some l → l.total < 2 ^ 32) →
      bits 2 2 (s.readOffset 0x08) = (if s.regs.layoutOvf = true then 1 else 0)) ∧
    bits 3 3 (s.readOffset 0x08) = 0 ∧
    (∀ code : Nat, (s.regs.err, code) ∈ [(ErrCode.none, 0), (.invalidDimensions, 1),
        (.bufferTooSmall, 2), (.unsupportedAngle, 3), (.unsupportedFormat, 4), (.illegalCommand, 5),
        (.busError, 6)] → bits 7 4 (s.readOffset 0x08) = code) ∧
    bits 10 8 (s.readOffset 0x08) = s.regs.errSlot.toNat ∧
    bits 31 11 (s.readOffset 0x08) = 0 ∧
    (s.regs.layoutOvf = true → bits 2 2 (s.readOffset 0x08) = 1) ∧
    (∀ t, s.regRead 0x08 4 = .next t → bits 2 2 t.readData = 1 → t.regs.layoutOvf = true) ∧
    (∀ (t : State) (e : Event), Consistent s → s.regs.layoutOvf = true → s.handle e = .next t →
      t.regs.layoutOvf = true ∨ t.regs = Registers.reset ∨ (s.engine = .idle ∧ t.busy = true)) ∧
    s.readOffset 0x0C = s.regs.errAddr ∧ ∀ v : Word, s.regWrite 0x0C 4 v = .next s

/-- R28: a write of STATUS with bit 1 set clears DONE, every other bit is ignored, and the rest of the
state is kept; in a consistent BUSY state it has no effect. -/
def Obligations.StatusWriteClearsDone : Prop :=
  ∀ (s : State) (v : Word),
    s.regWrite 0x08 4 v =
      .next { s with regs := { s.regs with
        done := if bits 1 1 v = 1 then false else s.regs.done } } ∧
    (Consistent s → s.busy = true → s.regWrite 0x08 4 v = .next s)

/-- R21, R30, R32, R34: while IDLE a write of CMD, WIDTH, HEIGHT or a slot register stores any value,
which then reads back, and leaves every other register of these as it was; and the offset of each is
the one R21's table gives: CMD, WIDTH and HEIGHT at 0x10, 0x14 and 0x18, and ADDR, LEN and STRIDE of
slot n at 0x20 + 0x10 n, + 4 and + 8. -/
def Obligations.OperandRegistersReadBack : Prop :=
  (∀ (s : State) (offset : Nat) (v : Word), s.engine = .idle → 0x10 ≤ offset → offset < 0x7C →
    offset % 4 = 0 → offset % 16 ≠ 12 →
    ∃ t, s.regWrite offset 4 v = .next t ∧ t.readOffset offset = v ∧
      (∀ other, other ≠ offset → t.readOffset other = s.readOffset other) ∧
      t.engine = .idle ∧ t.mem = s.mem ∧ t.draws = s.draws) ∧
  (∀ (s : State) (v : Word), s.engine = .idle →
    s.regWrite 0x10 4 v = .next { s with regs := { s.regs with cmd := v } } ∧
    s.regWrite 0x14 4 v = .next { s with regs := { s.regs with width := v } } ∧
    s.regWrite 0x18 4 v = .next { s with regs := { s.regs with height := v } } ∧
    ∀ e ∈ [(0x20, SlotId.src0), (0x30, .src1), (0x40, .src2), (0x50, .dst0), (0x60, .dst1),
        (0x70, .dst2)],
      s.regWrite e.1 4 v = .next { s with regs := { s.regs with
        slots := s.regs.slots.set e.2 { s.regs.slots.get e.2 with addr := v } } } ∧
      s.regWrite (e.1 + 4) 4 v = .next { s with regs := { s.regs with
        slots := s.regs.slots.set e.2 { s.regs.slots.get e.2 with len := v } } } ∧
      s.regWrite (e.1 + 8) 4 v = .next { s with regs := { s.regs with
        slots := s.regs.slots.set e.2 { s.regs.slots.get e.2 with stride := v } } })

/-- R34: while BUSY a write to CMD, WIDTH, HEIGHT or a slot register is ignored: nothing changes, the
running command's latched parameters included. -/
def Obligations.BusyIgnoresOperandWrites : Prop :=
  ∀ (s : State) (offset : Nat) (v : Word), s.busy = true → 0x10 ≤ offset → offset < 0x80 →
    offset % 4 = 0 → s.regWrite offset 4 v = .next s

/-- R33: a reserved offset reads 0 and ignores writes; the reserved bits of CTRL and STATUS read 0 and
ignore writes. A read shows in the model's own fields (log 15). -/
def Obligations.ReservedReadsZeroIgnoresWrites : Prop :=
  ∀ (s : State) (offset : Nat) (v : Word),
    (offset % 4 = 0 → (0x10 ≤ offset ∧ offset < 0x80 ∧ offset % 16 = 12) ∨
        (0xAC ≤ offset ∧ offset < 0x100) →
      s.regRead offset 4 = .next { s with readData := 0, draws := s.draws + 1 } ∧
      s.regWrite offset 4 v = .next s) ∧
    bits 31 3 (s.readOffset 0x04) = 0 ∧ bits 3 3 (s.readOffset 0x08) = 0 ∧
    bits 31 11 (s.readOffset 0x08) = 0 ∧
    (∀ w : Word, bits 2 0 v = bits 2 0 w → s.regWrite 0x04 4 v = s.regWrite 0x04 4 w) ∧
    ∀ w : Word, bits 1 1 v = bits 1 1 w → s.regWrite 0x08 4 v = s.regWrite 0x08 4 w

/-- R35: a register access that is not 32 bits wide at a multiple of 4 is refused. -/
def Obligations.OtherRegisterAccessRefused : Prop :=
  ∀ (s : State) (offset bytes : Nat) (v : Word), bytes ≠ 4 ∨ offset % 4 ≠ 0 →
    s.regRead offset bytes = .refused .registerAccess ∧
    s.regWrite offset bytes v = .refused .registerAccess

/-- R39: `irq` is DONE AND IRQ_EN in every state, and it is low after a host clears DONE, clears
IRQ_EN, writes START while IDLE, or resets the block. -/
def Obligations.IrqLevelAndItsFalls : Prop :=
  ∀ (s t : State) (v : Word),
    (s.irq = true ↔ s.regs.done = true ∧ s.regs.irqEn = true) ∧
    (bits 1 1 v = 1 → s.regWrite 0x08 4 v = .next t → t.irq = false) ∧
    (bits 1 1 v = 0 → s.regWrite 0x04 4 v = .next t → t.irq = false) ∧
    (bits 0 0 v = 1 → s.engine = .idle → s.regWrite 0x04 4 v = .next t → t.irq = false) ∧
    (bits 2 2 v = 1 → s.regWrite 0x04 4 v = .next t → t.irq = false) ∧
    (s.handle .resetInput = .next t → t.irq = false)

/-! ### Reset (70_reset_and_hazards.md) -/

/-- R210: the state after reset, by either way of asking for it and in `State.reset`: the phase IDLE,
`irq` 0, every offset but ID reads 0, and memory unchanged when no command runs, or one that would
fail a check and so has no write footprint. -/
def Obligations.ResetState : Prop :=
  (∀ (s t : State) (v : Word), bits 2 2 v = 1 →
    s.regWrite 0x04 4 v = .next t ∨ s.handle .resetInput = .next t →
    t.engine = .idle ∧ t.irq = false ∧ t.readOffset 0x00 = 0x53504331 ∧
    (∀ offset, offset ≠ 0x00 → t.readOffset offset = 0) ∧
    (s.runningPlan = none → t.mem = s.mem)) ∧
  State.reset.engine = .idle ∧ State.reset.irq = false ∧
  State.reset.readOffset 0x00 = 0x53504331 ∧
  ∀ offset, offset ≠ 0x00 → State.reset.readOffset offset = 0

/-- R211: a reset that arrives while a command runs abandons it: IDLE, DONE not set, `irq` low, every
byte of its write footprint unspecified and no byte outside it changed. Buffers in ordinary memory
(R67). -/
def Obligations.ResetAbandonsTheCommand : Prop :=
  ∀ (s : State) (plan : Plan) (v : Word), s.mem.wf → s.runningPlan = some plan →
    OrdinaryBuffers s plan → bits 2 2 v = 1 →
    ∃ t, s.handle .resetInput = .next t ∧ s.regWrite 0x04 4 v = .next t ∧
      t.regs = Registers.reset ∧ t.engine = .idle ∧ t.irq = false ∧
      Unspecified t.mem s.draws plan.writeFootprint ∧
      SameOutside s.mem t.mem plan.writeFootprint

/-! ### Hosts and memory (20_memory.md section 6) -/

/-- R74, R75, R78, R82: a write to an ordinary address that no running command, and no ended command
whose end is still unseen (log 7), touches stores the byte, leaves every other byte, every register and
the running command alone, and is read back. A host's is read back by the host, and still is after
cleaning any region, with coherent caches (where cleaning does nothing, the model's choice, log 10) or
without, whatever was written there before; another bus master's (log 21) leaves nothing to clean and is
read back by that master, where no host holds the byte uncleaned, and without coherent caches a host has to invalidate it. -/
def Obligations.HostWriteIsReadBack : Prop :=
  ∀ (s : State) (addr : Word) (v : Byte), s.mem.wf → HostAddress s addr →
    s.runningTouches (uint32 addr) = false →
    (∀ p ∈ s.unseen, p.touches (uint32 addr) = false) →
    (∃ t u, s.handle (.memWrite addr v) = .next t ∧ t.regs = s.regs ∧ t.engine = s.engine ∧
      t.mem.read (uint32 addr) = v ∧ SameOutside s.mem t.mem [uint32 addr] ∧
      t.handle (.memRead addr) = .next u ∧ u.readData = v.setWidth 32 ∧ u.mem = t.mem ∧
      ∀ r : Region, ∃ c w, t.handle (.cacheClean r) = .next c ∧
        c.handle (.memRead addr) = .next w ∧ w.readData = v.setWidth 32) ∧
    ∃ t u, s.handle (.busWrite addr v) = .next t ∧ t.regs = s.regs ∧ t.engine = s.engine ∧
      t.mem.read (uint32 addr) = v ∧ SameOutside s.mem t.mem [uint32 addr] ∧
      t.uncleaned = s.uncleaned ∧ (s.platform.coherent = false → uint32 addr ∈ t.stale) ∧
      t.handle (.busRead addr) = .next u ∧ u.mem = t.mem ∧
      (s.platform.coherent = true ∨ uint32 addr ∉ s.uncleaned → u.readData = v.setWidth 32)

/-- R77, R82 (log 4, log 8): a write of a host or another bus master to a byte of the running command's
source extents or write footprint makes every byte of the write footprint unspecified when the command
then completes, and the command reports no error for it. -/
def Obligations.HostWriteDisturbsTheCommand : Prop :=
  ∀ (s : State) (e : Event) (addr : Word) (v : Byte) (latched : Params) (f : Bool) (i : Instr)
    (plan : Plan),
    e = .memWrite addr v ∨ e = .busWrite addr v →
    s.mem.wf → s.engine = .busy latched f → decodeWord latched.cmd = .ok i →
    (workOf i latched).plan = .ok plan → plan.touches (uint32 addr) = true →
    (∀ p ∈ s.unseen, p.touches (uint32 addr) = false) →
    HostAddress s addr → OrdinaryBuffers s plan → NoBusFault s plan →
    ∃ t u, s.handle e = .next t ∧ t.engineTurn = .next u ∧
      u.regs.err = .none ∧ u.regs.done = true ∧
      Unspecified u.mem t.draws plan.writeFootprint ∧
      SameOutside s.mem u.mem (uint32 addr :: plan.writeFootprint)

/-- R77, R82: a read by a host or another bus master of a byte of the running command's write footprint
returns an unspecified value; of any other ordinary byte it returns the byte, for a host with coherent
caches, and for another bus master also without, where no host holds the byte uncleaned (log 21).
Neither changes memory, a register or the running command. -/
def Obligations.HostReadWhileRunning : Prop :=
  ∀ (s : State) (e : Event) (addr : Word) (plan : Plan), e = .memRead addr ∨ e = .busRead addr →
    s.runningPlan = some plan → HostAddress s addr →
    ∃ b, s.handle e =
        .next { s with readData := BitVec.setWidth 32 b, draws := s.draws + 1 } ∧
      (uint32 addr ∈ plan.writeFootprint → b = Config.unspecifiedByte s.draws (uint32 addr)) ∧
      (uint32 addr ∉ plan.writeFootprint → (∀ p ∈ s.unseen, uint32 addr ∉ p.writeFootprint) →
        s.platform.coherent = true ∨ (e = .busRead addr ∧ uint32 addr ∉ s.uncleaned) →
        b = s.mem.read (uint32 addr))

/-- R76, R82 (what a host has seen is the model's own record, log 7): with coherent caches, once a host
has read STATUS with DONE = 1, or seen `irq` high, reads of any ordinary byte, a host's or another bus
master's, return the byte the command left in memory. -/
def Obligations.ResultSeenAfterDone : Prop :=
  ∀ (s : State) (e : Event) (addr : Word), e = .memRead addr ∨ e = .busRead addr →
    s.engine = .idle → s.platform.coherent = true → HostAddress s addr →
    (s.regs.done = true → ∃ t u, s.regRead 0x08 4 = .next t ∧ bits 1 1 t.readData = 1 ∧
      t.mem = s.mem ∧ t.handle e = .next u ∧
      u.readData = BitVec.setWidth 32 (s.mem.read (uint32 addr))) ∧
    (s.irq = true → ∃ t u, s.handle .irqRead = .next t ∧ t.readData = 1 ∧
      t.mem = s.mem ∧ t.handle e = .next u ∧
      u.readData = BitVec.setWidth 32 (s.mem.read (uint32 addr)))

/-- R77, R82, until DONE is seen (the model's own record, log 7): a read, by a host or another bus
master, of the write footprint of a command whose end no host has seen returns an unspecified value, and
a write to its buffers makes its write footprint unspecified, and leaves alone every byte but its own
and the write footprints of the unseen commands it touches. -/
def Obligations.UnseenEndKeepsBuffersOpen : Prop :=
  ∀ (s : State) (e : Event) (addr : Word) (v : Byte) (p : Plan), p ∈ s.unseen →
    HostAddress s addr →
    (e = .memRead addr ∨ e = .busRead addr → uint32 addr ∈ p.writeFootprint →
      ∃ u, s.handle e = .next u ∧
        u.readData = BitVec.setWidth 32 (Config.unspecifiedByte s.draws (uint32 addr))) ∧
    (e = .memWrite addr v ∨ e = .busWrite addr v → s.mem.wf → p.touches (uint32 addr) = true →
      ∃ t, s.handle e = .next t ∧
        Unspecified t.mem s.draws p.writeFootprint ∧ t.regs = s.regs ∧
        ∀ a, a ≠ uint32 addr →
          (∀ q ∈ s.unseen, q.touches (uint32 addr) = true → a ∉ q.writeFootprint) →
          t.mem.read a = s.mem.read a)

/-- R75, R77, R78 (the model's own record of cache lines, log 10): without coherent caches, a command
started while a host has not cleaned a cache line of its buffers leaves its write footprint unspecified;
a command started after a host has cleaned the lines of its buffers is not disturbed so, where cleaning
changes no byte but those that the engine or another bus master wrote in a line a host has not cleaned.
While a command runs, cleaning leaves it alone where no uncleaned line holds a byte of its write
footprint or a byte of its source extents that the host never invalidated, and disturbs it where one of
the cleaned lines holds a byte of its write footprint, since that is written back: that a write-back
counts as a write of R77 here is the model's choice (log 10). -/
def Obligations.UncleanedBuffersAreUnspecified : Prop :=
  (∀ (s : State) (i : Instr) (plan : Plan) (a b : Nat), s.mem.wf → s.platform.coherent = false →
    a ∈ s.uncleaned → decodeWord s.regs.cmd = .ok i → (workOf i s.regs.params).plan = .ok plan →
    (s.platform.line a).contains b = true → plan.touches b = true → OrdinaryBuffers s plan →
    NoBusFault s plan →
    ∃ u, s.start.engineTurn = .next u ∧ u.regs.err = .none ∧
      Unspecified u.mem s.draws plan.writeFootprint ∧
      SameOutside s.mem u.mem plan.writeFootprint) ∧
  (∀ (s : State) (plan : Plan) (r : Region), s.platform.coherent = false →
    s.regs.params.plan = some plan → (∀ b, plan.touches b = true → r.contains b = true) →
    ∃ t, s.handle (.cacheClean r) = .next t ∧ t.regs = s.regs ∧ t.start.interfered = false ∧
      ∀ b, b ∉ s.stale ∨ (∀ a ∈ s.uncleaned, (s.platform.line b).contains a = false) →
        t.mem.read b = s.mem.read b) ∧
  (∀ (s : State) (r : Region), s.platform.coherent = false →
    (∀ a ∈ s.uncleaned, ∀ b, (s.platform.line a).contains b = true →
      s.runningWrites b = false ∧ (b ∈ s.stale → s.runningTouches b = false)) →
    ∃ t, s.handle (.cacheClean r) = .next t ∧ t.engine = s.engine) ∧
  ∀ (s : State) (r : Region) (latched : Params) (f : Bool) (plan : Plan) (a b : Nat),
    s.platform.coherent = false → s.engine = .busy latched f → latched.plan = some plan →
    a ∈ s.uncleaned → r.meets (s.platform.line a) = true →
    (s.platform.line a).contains b = true → b ∈ plan.writeFootprint →
    ∃ t, s.handle (.cacheClean r) = .next t ∧ t.engine = .busy latched true

/-- R76, R78 (the model's own record of cache lines, log 10): without coherent caches, every byte that a
command, or another bus master, wrote reads as unspecified until the host invalidates it; an invalidation of clean lines while
no command runs makes it read as memory, once a host has seen the command's end, and does not count
before that (the model's choice, log 10). -/
def Obligations.InvalidateBeforeReading : Prop :=
  ∀ (s : State) (addr : Word) (r : Region), s.platform.coherent = false → s.engine = .idle →
    HostAddress s addr → uint32 addr ∈ s.stale →
    (∃ u, s.handle (.memRead addr) = .next u ∧
      u.readData = BitVec.setWidth 32 (Config.unspecifiedByte s.draws (uint32 addr))) ∧
    (r.contains (uint32 addr) = true →
      (∀ a ∈ s.uncleaned, ∀ b, (s.platform.line a).contains b = true → r.contains b = false) →
      ∃ t, s.handle (.cacheInvalidate r) = .next t ∧ t.mem = s.mem ∧
        ((∀ p ∈ s.unseen, uint32 addr ∉ p.writeFootprint) →
          ∃ u, t.handle (.memRead addr) = .next u ∧
            u.readData = BitVec.setWidth 32 (s.mem.read (uint32 addr))) ∧
        ((∃ p ∈ s.unseen, uint32 addr ∈ p.writeFootprint) → uint32 addr ∈ t.stale))

/-! ### The invariant -/

/-- The state after reset is consistent. -/
def Obligations.ResetIsConsistent : Prop := Consistent State.reset

/-- R24, R27, R29, R34, R36, R60: every step from a consistent state, reachable or not, leads to a
consistent state. -/
def Obligations.StepKeepsConsistent : Prop :=
  ∀ s t : State, Consistent s → step s = .next t → Consistent t

/-- R24, R36: in a consistent state a BUSY block reads STATUS 0x00000001, when the running command is
not about to set LAYOUT_OVF, and ERR_ADDR 0. -/
def Obligations.BusyReadsOnlyBusy : Prop :=
  ∀ s : State, Consistent s → s.busy = true →
    (∀ l, s.pendingLayout = some l → l.total < 2 ^ 32) →
    s.readOffset 0x08 = 0x00000001 ∧ s.readOffset 0x0C = 0 ∧ s.irq = false
end

