-- ==== Sys2Proof/Laws/State.lean ====
section
/-! SUPPORT. One lemma per field per update of the state, so that no later proof unfolds an update. -/

namespace Sys2Proof.Machine

open Sys2Proof

/-! ### `State.complete` -/

@[simp] theorem complete_engine (s : State) : s.complete.engine = .idle := rfl
@[simp] theorem complete_mem (s : State) : s.complete.mem = s.mem := rfl
@[simp] theorem complete_platform (s : State) : s.complete.platform = s.platform := rfl
@[simp] theorem complete_busFaults (s : State) : s.complete.busFaults = s.busFaults := rfl
@[simp] theorem complete_uncleaned (s : State) : s.complete.uncleaned = s.uncleaned := rfl
@[simp] theorem complete_stale (s : State) : s.complete.stale = s.stale := rfl
@[simp] theorem complete_unseen (s : State) : s.complete.unseen = s.unseen := rfl
@[simp] theorem complete_inbox (s : State) : s.complete.inbox = s.inbox := rfl
@[simp] theorem complete_readData (s : State) : s.complete.readData = s.readData := rfl
@[simp] theorem complete_draws (s : State) : s.complete.draws = s.draws := rfl
theorem complete_regs (s : State) :
    s.complete.regs = { s.regs with err := .none, errSlot := 0, errAddr := 0, done := true } := rfl

/-! ### `State.raise` -/

@[simp] theorem raise_engine (s : State) (e : CommandError) : (s.raise e).engine = .idle := rfl
@[simp] theorem raise_mem (s : State) (e : CommandError) : (s.raise e).mem = s.mem := rfl
@[simp] theorem raise_platform (s : State) (e : CommandError) :
    (s.raise e).platform = s.platform := rfl
@[simp] theorem raise_busFaults (s : State) (e : CommandError) :
    (s.raise e).busFaults = s.busFaults := rfl
@[simp] theorem raise_uncleaned (s : State) (e : CommandError) :
    (s.raise e).uncleaned = s.uncleaned := rfl
@[simp] theorem raise_stale (s : State) (e : CommandError) : (s.raise e).stale = s.stale := rfl
@[simp] theorem raise_unseen (s : State) (e : CommandError) : (s.raise e).unseen = s.unseen := rfl
@[simp] theorem raise_inbox (s : State) (e : CommandError) : (s.raise e).inbox = s.inbox := rfl
@[simp] theorem raise_readData (s : State) (e : CommandError) :
    (s.raise e).readData = s.readData := rfl
@[simp] theorem raise_draws (s : State) (e : CommandError) : (s.raise e).draws = s.draws := rfl
theorem raise_regs (s : State) (e : CommandError) :
    (s.raise e).regs =
      { s.regs with err := e.errCode, errSlot := e.errSlot, errAddr := e.errAddr, done := true } :=
  rfl

/-! ### `State.moved` and `State.busError` -/

@[simp] theorem moved_engine (s : State) (plan : Plan) : (s.moved plan).engine = .idle := rfl
@[simp] theorem moved_mem (s : State) (plan : Plan) : (s.moved plan).mem = s.movedMemory plan := rfl
@[simp] theorem moved_regs (s : State) (plan : Plan) :
    (s.moved plan).regs =
      { s.regs with err := .none, errSlot := 0, errAddr := 0, done := true } := rfl
@[simp] theorem moved_platform (s : State) (plan : Plan) :
    (s.moved plan).platform = s.platform := rfl
@[simp] theorem moved_busFaults (s : State) (plan : Plan) :
    (s.moved plan).busFaults = s.busFaults := rfl
@[simp] theorem moved_uncleaned (s : State) (plan : Plan) :
    (s.moved plan).uncleaned = s.uncleaned := rfl
@[simp] theorem moved_stale (s : State) (plan : Plan) :
    (s.moved plan).stale = s.engineWrote plan.writeFootprint := rfl
@[simp] theorem moved_unseen (s : State) (plan : Plan) :
    (s.moved plan).unseen = plan.buffers :: s.unseen := rfl
@[simp] theorem moved_inbox (s : State) (plan : Plan) : (s.moved plan).inbox = s.inbox := rfl
@[simp] theorem moved_readData (s : State) (plan : Plan) :
    (s.moved plan).readData = s.readData := rfl
@[simp] theorem moved_draws (s : State) (plan : Plan) : (s.moved plan).draws = s.draws + 1 := rfl

@[simp] theorem busError_engine (s : State) (plan : Plan) (a : Nat) :
    (s.busError plan a).engine = .idle := rfl
@[simp] theorem busError_mem (s : State) (plan : Plan) (a : Nat) :
    (s.busError plan a).mem = s.mem.unspecify s.draws plan.writeFootprint := rfl
@[simp] theorem busError_regs (s : State) (plan : Plan) (a : Nat) :
    (s.busError plan a).regs =
      { s.regs with err := .busError, errSlot := 0, errAddr := BitVec.ofNat 32 a, done := true } :=
  rfl
@[simp] theorem busError_platform (s : State) (plan : Plan) (a : Nat) :
    (s.busError plan a).platform = s.platform := rfl
@[simp] theorem busError_busFaults (s : State) (plan : Plan) (a : Nat) :
    (s.busError plan a).busFaults = s.busFaults := rfl
@[simp] theorem busError_uncleaned (s : State) (plan : Plan) (a : Nat) :
    (s.busError plan a).uncleaned = s.uncleaned := rfl
@[simp] theorem busError_stale (s : State) (plan : Plan) (a : Nat) :
    (s.busError plan a).stale = s.engineWrote plan.writeFootprint := rfl
@[simp] theorem busError_unseen (s : State) (plan : Plan) (a : Nat) :
    (s.busError plan a).unseen = plan.buffers :: s.unseen := rfl
@[simp] theorem busError_inbox (s : State) (plan : Plan) (a : Nat) :
    (s.busError plan a).inbox = s.inbox := rfl
@[simp] theorem busError_readData (s : State) (plan : Plan) (a : Nat) :
    (s.busError plan a).readData = s.readData := rfl
@[simp] theorem busError_draws (s : State) (plan : Plan) (a : Nat) :
    (s.busError plan a).draws = s.draws + 1 := rfl

/-! ### `State.start`, `State.afterEvent` and `State.commanded` -/

@[simp] theorem start_regs (s : State) : s.start.regs = s.regs.cleared := rfl
@[simp] theorem start_engine (s : State) :
    s.start.engine = .busy s.regs.params (s.uncleanedBuffers s.regs.params) := rfl
@[simp] theorem start_mem (s : State) : s.start.mem = s.mem := rfl
@[simp] theorem start_platform (s : State) : s.start.platform = s.platform := rfl
@[simp] theorem start_busFaults (s : State) : s.start.busFaults = s.busFaults := rfl
@[simp] theorem start_uncleaned (s : State) : s.start.uncleaned = s.uncleaned := rfl
@[simp] theorem start_stale (s : State) : s.start.stale = s.stale := rfl
@[simp] theorem start_unseen (s : State) : s.start.unseen = s.unseen := rfl
@[simp] theorem start_inbox (s : State) : s.start.inbox = s.inbox := rfl
@[simp] theorem start_readData (s : State) : s.start.readData = s.readData := rfl
@[simp] theorem start_draws (s : State) : s.start.draws = s.draws := rfl
@[simp] theorem start_busy (s : State) : s.start.busy = true := rfl
@[simp] theorem start_params (s : State) : s.start.params = s.regs.params := rfl

@[simp] theorem cleared_params (r : Registers) : r.cleared.params = r.params := rfl

@[simp] theorem afterEvent_inbox (s : State) (es : List Event) : (s.afterEvent es).inbox = es := rfl
@[simp] theorem afterEvent_regs (s : State) (es : List Event) :
    (s.afterEvent es).regs = s.regs := rfl
@[simp] theorem afterEvent_engine (s : State) (es : List Event) :
    (s.afterEvent es).engine = s.engine := rfl
@[simp] theorem afterEvent_mem (s : State) (es : List Event) : (s.afterEvent es).mem = s.mem := rfl
@[simp] theorem afterEvent_platform (s : State) (es : List Event) :
    (s.afterEvent es).platform = s.platform := rfl
@[simp] theorem afterEvent_busFaults (s : State) (es : List Event) :
    (s.afterEvent es).busFaults = s.busFaults := rfl
@[simp] theorem afterEvent_uncleaned (s : State) (es : List Event) :
    (s.afterEvent es).uncleaned = s.uncleaned := rfl
@[simp] theorem afterEvent_stale (s : State) (es : List Event) :
    (s.afterEvent es).stale = s.stale := rfl
@[simp] theorem afterEvent_unseen (s : State) (es : List Event) :
    (s.afterEvent es).unseen = s.unseen := rfl
@[simp] theorem afterEvent_readData (s : State) (es : List Event) :
    (s.afterEvent es).readData = s.readData := rfl
@[simp] theorem afterEvent_draws (s : State) (es : List Event) :
    (s.afterEvent es).draws = s.draws := rfl

@[simp] theorem commanded_inbox (s : State) (w : Word) : (s.commanded w).inbox = [] := rfl
@[simp] theorem commanded_mem (s : State) (w : Word) : (s.commanded w).mem = s.mem := rfl
@[simp] theorem commanded_params (s : State) (w : Word) :
    (s.commanded w).params = { s.regs.params with cmd := w } := rfl

/-! ### The layout step -/

@[simp] theorem layoutStep_none (r : Registers) : r.layoutStep none = r := rfl
@[simp] theorem layoutStep_some (l : TightLayout) (r : Registers) :
    r.layoutStep (some l) = { r with layout := l.regs, layoutOvf := l.overflows } := rfl
@[simp] theorem layoutStep_params (o : Option TightLayout) (r : Registers) :
    (r.layoutStep o).params = r.params := by cases o <;> rfl
@[simp] theorem layoutStep_irqEn (o : Option TightLayout) (r : Registers) :
    (r.layoutStep o).irqEn = r.irqEn := by cases o <;> rfl
@[simp] theorem layoutStep_done (o : Option TightLayout) (r : Registers) :
    (r.layoutStep o).done = r.done := by cases o <;> rfl

end Sys2Proof.Machine
end

