-- ==== Sys2Proof/Laws/Memory.lean ====
section
/-! SUPPORT. The laws of memory: read after write, writes leave other bytes alone, every operation keeps
the canonical form, and what a list of byte moves does. -/

namespace Sys2Proof.Machine

open Sys2Proof

/-! ### One byte -/

@[simp] theorem read_nil (a : Nat) : Memory.read [] a = Memory.unlisted := rfl

theorem read_cons (b : Nat) (w : Byte) (m : Memory) (a : Nat) :
    Memory.read ((b, w) :: m) a = if a = b then w else Memory.read m a := rfl

/-- An address below every listed one is not listed. -/
theorem read_of_lt (m : Memory) (a : Nat) (h : ∀ c ∈ m, a < c.1) :
    Memory.read m a = Memory.unlisted := by
  induction m with
  | nil => rfl
  | cons c m ih =>
    obtain ⟨b, w⟩ := c
    have hb : a < b := h (b, w) (by simp)
    rw [read_cons, if_neg (by omega)]
    exact ih fun c hc => h c (by simp [hc])

/-- A write leaves every other byte alone, in any memory. -/
theorem read_write_other (m : Memory) (a b : Nat) (v : Byte) (h : b ≠ a) :
    (Memory.write m a v).read b = Memory.read m b := by
  induction m with
  | nil => unfold Memory.write; split <;> simp [read_cons, h]
  | cons c m ih =>
    obtain ⟨d, w⟩ := c
    unfold Memory.write
    split
    · split <;> simp [read_cons, h]
    · split
      · split <;> simp_all [read_cons]
      · simp [read_cons, ih]

/-- A write is read back, in a memory whose addresses rise. -/
theorem read_write_same (m : Memory) (a : Nat) (v : Byte)
    (hm : m.Pairwise fun c d => c.1 < d.1) : (Memory.write m a v).read a = v := by
  induction m with
  | nil =>
    unfold Memory.write; split
    · simp_all
    · simp [read_cons]
  | cons c m ih =>
    obtain ⟨d, w⟩ := c
    rw [List.pairwise_cons] at hm
    unfold Memory.write
    split
    · split
      · next had hv =>
        rw [read_of_lt _ _ (by
          intro c hc
          rcases List.mem_cons.mp hc with rfl | hc
          · exact had
          · exact lt_trans had (hm.1 c hc)), hv]
      · simp [read_cons]
    · split
      · next hda =>
        split
        · next hv => rw [read_of_lt _ _ (fun c hc => hda ▸ hm.1 c hc), hv]
        · simp [read_cons]
      · next h1 h2 => rw [read_cons, if_neg (by omega)]; exact ih hm.2

/-- What a write to memory makes of its cells: every one is an old one or the new one. -/
theorem mem_write (m : Memory) (a : Nat) (v : Byte) (c : Host.Cell)
    (hc : c ∈ Memory.write m a v) : c ∈ m ∨ (c = (a, v) ∧ v ≠ Memory.unlisted) := by
  induction m with
  | nil =>
    unfold Memory.write at hc
    split at hc <;> simp_all
  | cons d m ih =>
    obtain ⟨b, w⟩ := d
    unfold Memory.write at hc
    split at hc
    · split at hc
      · exact .inl hc
      · rcases List.mem_cons.mp hc with rfl | h
        · exact .inr ⟨rfl, ‹_›⟩
        · exact .inl h
    · split at hc
      · split at hc
        · exact .inl (by simp [hc])
        · rcases List.mem_cons.mp hc with rfl | h
          · exact .inr ⟨rfl, ‹_›⟩
          · exact .inl (by simp [h])
      · rcases List.mem_cons.mp hc with rfl | h
        · exact .inl (by simp)
        · rcases ih h with h | h
          · exact .inl (by simp [h])
          · exact .inr h

theorem write_rising (m : Memory) (a : Nat) (v : Byte) (hm : m.Pairwise fun c d => c.1 < d.1) :
    (Memory.write m a v).Pairwise fun c d => c.1 < d.1 := by
  induction m with
  | nil => unfold Memory.write; split <;> simp
  | cons d m ih =>
    obtain ⟨b, w⟩ := d
    have hm' := List.pairwise_cons.mp hm
    unfold Memory.write
    split
    · next hab =>
      split
      · exact hm
      · refine List.pairwise_cons.mpr ⟨?_, hm⟩
        intro c hc
        rcases List.mem_cons.mp hc with rfl | hc
        · exact hab
        · exact lt_trans hab (hm'.1 c hc)
    · split
      · next hab =>
        split
        · exact hm'.2
        · exact List.pairwise_cons.mpr ⟨fun c hc => hab ▸ hm'.1 c hc, hm'.2⟩
      · next h1 h2 =>
        refine List.pairwise_cons.mpr ⟨?_, ih hm'.2⟩
        intro c hc
        rcases mem_write m a v c hc with h | h
        · exact hm'.1 c h
        · obtain ⟨rfl, -⟩ := h
          simp only
          omega

/-- A write inside the memory space keeps the canonical form. -/
theorem write_wf (m : Memory) (a : Nat) (v : Byte) (hm : m.wf) (ha : a < 2 ^ 32) :
    (Memory.write m a v).wf := by
  refine ⟨write_rising m a v hm.1, fun c hc => ?_⟩
  rcases mem_write m a v c hc with h | ⟨rfl, hv⟩
  · exact hm.2 c h
  · exact ⟨ha, hv⟩

/-- Two canonical memories that read the same are the same list. -/
theorem eq_of_read_eq (m n : Memory) (hm : m.wf) (hn : n.wf) (h : ∀ a, m.read a = n.read a) :
    m = n := by
  induction m generalizing n with
  | nil =>
    cases n with
    | nil => rfl
    | cons d n =>
      have := h d.1
      rw [read_nil, read_cons, if_pos rfl] at this
      exact absurd this.symm (hn.2 d (by simp)).2
  | cons c m ih =>
    cases n with
    | nil =>
      have := h c.1
      rw [read_nil, read_cons, if_pos rfl] at this
      exact absurd this (hm.2 c (by simp)).2
    | cons d n =>
      obtain ⟨b, w⟩ := c
      obtain ⟨b', w'⟩ := d
      have hm' := List.pairwise_cons.mp hm.1
      have hn' := List.pairwise_cons.mp hn.1
      have hw := (hm.2 (b, w) (by simp)).2
      have hw' := (hn.2 (b', w') (by simp)).2
      have hbb : b = b' := by
        rcases Nat.lt_trichotomy b b' with hlt | heq | hgt
        · have := h b
          rw [read_cons, if_pos rfl, read_cons, if_neg (by omega),
            read_of_lt n b (fun c hc => lt_trans hlt (hn'.1 c hc))] at this
          exact absurd this hw
        · exact heq
        · have := h b'
          rw [read_cons, if_neg (by omega), read_cons, if_pos rfl,
            read_of_lt m b' (fun c hc => lt_trans hgt (hm'.1 c hc))] at this
          exact absurd this.symm hw'
      subst hbb
      have hww : w = w' := by simpa [read_cons] using h b
      subst hww
      congr 1
      refine ih n ⟨hm'.2, fun c hc => hm.2 c (by simp [hc])⟩
        ⟨hn'.2, fun c hc => hn.2 c (by simp [hc])⟩ fun a => ?_
      by_cases hab : a = b
      · subst hab
        rw [read_of_lt m a hm'.1, read_of_lt n a hn'.1]
      · simpa [read_cons, hab] using h a

/-! ### Unspecified bytes -/

theorem unspecify_cons (draw a : Nat) (as : List Nat) (m : Memory) :
    m.unspecify draw (a :: as) =
      (m.write a (Config.unspecifiedByte draw a)).unspecify draw as := rfl

@[simp] theorem unspecify_nil (draw : Nat) (m : Memory) : m.unspecify draw [] = m := rfl

/-- Bytes outside the list keep their values. -/
theorem read_unspecify_other (draw : Nat) (as : List Nat) (m : Memory) (b : Nat) (h : b ∉ as) :
    (m.unspecify draw as).read b = m.read b := by
  induction as generalizing m with
  | nil => rfl
  | cons a as ih =>
    simp only [List.mem_cons, not_or] at h
    rw [unspecify_cons, ih _ h.2, read_write_other _ _ _ _ h.1]

theorem unspecify_wf (draw : Nat) (as : List Nat) (m : Memory) (hm : m.wf)
    (h : ∀ a ∈ as, a < 2 ^ 32) : (m.unspecify draw as).wf := by
  induction as generalizing m with
  | nil => exact hm
  | cons a as ih =>
    rw [unspecify_cons]
    exact ih _ (write_wf _ _ _ hm (h a (by simp))) fun b hb => h b (by simp [hb])

/-- Every listed byte holds its free value. -/
theorem read_unspecify (draw : Nat) (as : List Nat) (m : Memory)
    (hm : m.Pairwise fun c d => c.1 < d.1) (a : Nat) (h : a ∈ as) :
    (m.unspecify draw as).read a = Config.unspecifiedByte draw a := by
  induction as generalizing m with
  | nil => cases h
  | cons b as ih =>
    rw [unspecify_cons]
    by_cases ha : a ∈ as
    · exact ih _ (write_rising _ _ _ hm) ha
    · have hab : a = b := by simpa [ha] using h
      subst hab
      rw [read_unspecify_other _ _ _ _ ha, read_write_same _ _ _ hm]

/-! ### Byte moves -/

@[simp] theorem runMoves_nil (m : Memory) : m.runMoves [] = m := rfl

theorem runMoves_cons (mv : Move) (mvs : List Move) (m : Memory) :
    m.runMoves (mv :: mvs) = (m.write mv.dst (m.read mv.src)).runMoves mvs := rfl

theorem runMoves_append (xs ys : List Move) (m : Memory) :
    m.runMoves (xs ++ ys) = (m.runMoves xs).runMoves ys := by
  simp [Memory.runMoves, List.foldl_append]

/-- Bytes that no move writes keep their values. -/
theorem read_runMoves_other (mvs : List Move) (m : Memory) (b : Nat)
    (h : ∀ mv ∈ mvs, mv.dst ≠ b) : (m.runMoves mvs).read b = m.read b := by
  induction mvs generalizing m with
  | nil => rfl
  | cons mv mvs ih =>
    rw [runMoves_cons, ih _ fun x hx => h x (by simp [hx]),
      read_write_other _ _ _ _ (h mv (by simp)).symm]

theorem runMoves_rising (mvs : List Move) (m : Memory)
    (hm : m.Pairwise fun c d => c.1 < d.1) :
    (m.runMoves mvs).Pairwise fun c d => c.1 < d.1 := by
  induction mvs generalizing m with
  | nil => exact hm
  | cons mv mvs ih => rw [runMoves_cons]; exact ih _ (write_rising _ _ _ hm)

theorem runMoves_wf (mvs : List Move) (m : Memory) (hm : m.wf)
    (h : ∀ mv ∈ mvs, mv.dst < 2 ^ 32) : (m.runMoves mvs).wf := by
  induction mvs generalizing m with
  | nil => exact hm
  | cons mv mvs ih =>
    rw [runMoves_cons]
    exact ih _ (write_wf _ _ _ hm (h mv (by simp))) fun x hx => h x (by simp [hx])

/-- Moves to distinct addresses, from addresses that no move writes, move the bytes of the memory
they start from. -/
theorem read_runMoves (mvs : List Move) (m : Memory)
    (hm : m.Pairwise fun c d => c.1 < d.1) (hnd : (mvs.map Move.dst).Nodup)
    (hdis : ∀ x ∈ mvs, ∀ y ∈ mvs, x.src ≠ y.dst) (mv : Move) (h : mv ∈ mvs) :
    (m.runMoves mvs).read mv.dst = m.read mv.src := by
  induction mvs generalizing m with
  | nil => cases h
  | cons x mvs ih =>
    rw [runMoves_cons]
    rw [List.map_cons, List.nodup_cons] at hnd
    rcases List.mem_cons.mp h with rfl | hmem
    · rw [read_runMoves_other, read_write_same _ _ _ hm]
      intro y hy hyd
      exact hnd.1 (by rw [← hyd]; exact List.mem_map_of_mem hy)
    · rw [ih _ (write_rising _ _ _ hm) hnd.2
        (fun a ha b hb => hdis a (by simp [ha]) b (by simp [hb])) hmem]
      exact read_write_other _ _ _ _ (hdis mv h x (by simp))

end Sys2Proof.Machine
end

