-- ==== Sys2Proof/Laws/Checks.lean ====
section
/-! SUPPORT. What the checks accept and what they raise, and the addresses of a plane whose check passed. -/

namespace Sys2Proof.Machine

open Sys2Proof Sys2Proof.Safety

/-! ### The checks as propositions -/

theorem dimensions_ok (p : Params) (d : Dims) (h : HasDims p d) : dimensions p = .ok d := by
  obtain ⟨hw, hh, w0, h0⟩ := h
  unfold dimensions
  rw [if_neg (by omega)]
  simp [hw, hh]

theorem dimensions_bad (p : Params) (h : BadDims p) :
    dimensions p = .error .invalidDimensions := by
  unfold dimensions
  exact if_pos h

theorem hasDims_of_dimensions (p : Params) (d : Dims) (h : dimensions p = .ok d) :
    HasDims p d := by
  unfold dimensions at h
  split at h
  · cases h
  · next hn =>
    cases h
    refine ⟨?_, ?_, ?_, ?_⟩ <;> simp only <;> omega

/-- The dimension check answers the dimensions or raises InvalidDimensions. -/
theorem dimensions_cases (p : Params) :
    (∃ d, HasDims p d ∧ dimensions p = .ok d) ∨
      (BadDims p ∧ dimensions p = .error .invalidDimensions) := by
  by_cases h : BadDims p
  · exact .inr ⟨h, dimensions_bad p h⟩
  · refine .inl ⟨⟨(sint32 p.width).toNat, (sint32 p.height).toNat⟩, ?_⟩
    have hd : HasDims p ⟨(sint32 p.width).toNat, (sint32 p.height).toNat⟩ := by
      unfold BadDims at h
      refine ⟨?_, ?_, ?_, ?_⟩ <;> simp only <;> omega
    exact ⟨hd, dimensions_ok p _ hd⟩

theorem hasDims_unique (p : Params) (d e : Dims) (hd : HasDims p d) (he : HasDims p e) : d = e := by
  have := (dimensions_ok p d hd).symm.trans (dimensions_ok p e he)
  exact Except.ok.inj this

theorem not_badDims (p : Params) (d : Dims) (h : HasDims p d) : ¬ BadDims p := by
  obtain ⟨hw, hh, w0, h0⟩ := h
  unfold BadDims
  omega

theorem checkSlot_ok (p : Params) (n : SlotId) (w h : Nat) (hf : SlotFits p n ⟨w, h⟩) :
    checkSlot p n w h = .ok () := by
  obtain ⟨h1, h2, h3⟩ := hf
  simp only at h1 h2 h3
  unfold checkSlot
  simp only
  rw [if_neg (by omega), if_neg (by omega), if_neg (by omega)]

theorem checkSlot_error (p : Params) (n : SlotId) (w h : Nat) (hf : ¬ SlotFits p n ⟨w, h⟩) :
    checkSlot p n w h = .error (.bufferTooSmall n) := by
  unfold SlotFits at hf
  simp only at hf
  unfold checkSlot
  simp only
  split
  · rfl
  · split
    · rfl
    · rw [if_pos (by omega)]

theorem slotFits_of_checkSlot (p : Params) (n : SlotId) (w h : Nat) (u : Unit)
    (hc : checkSlot p n w h = .ok u) : SlotFits p n ⟨w, h⟩ := by
  by_contra hf
  rw [checkSlot_error p n w h hf] at hc
  cases hc

theorem checkTight_ok (p : Params) (total : Nat) (hf : TightFits p total) :
    checkTight p total = .ok () := by
  obtain ⟨h1, h2⟩ := hf
  unfold checkTight
  simp only
  rw [if_neg (by omega), if_neg (by omega)]

theorem checkTight_error (p : Params) (total : Nat) (hf : ¬ TightFits p total) :
    checkTight p total = .error (.bufferTooSmall .dst0) := by
  unfold TightFits at hf
  unfold checkTight
  simp only
  split
  · rfl
  · rw [if_pos (by omega)]

theorem tightFits_of_checkTight (p : Params) (total : Nat) (u : Unit)
    (hc : checkTight p total = .ok u) : TightFits p total := by
  by_contra hf
  rw [checkTight_error p total hf] at hc
  cases hc

theorem rotationOf_accepted (angle : Nat) (h : rightAngle angle = true) :
    ∃ r, rotationOf angle = .ok r ∧ ∀ d : Dims, d.rotated r = turned angle d := by
  simp only [rightAngle, decide_eq_true_eq] at h
  rcases h with rfl | rfl | rfl | rfl
  · exact ⟨.r0, rfl, fun d => rfl⟩
  · exact ⟨.r90, rfl, fun d => rfl⟩
  · exact ⟨.r180, rfl, fun d => rfl⟩
  · exact ⟨.r270, rfl, fun d => rfl⟩

theorem rotationOf_rejected (angle : Nat) (h : rightAngle angle = false) :
    rotationOf angle = .error .unsupportedAngle := by
  simp only [rightAngle, decide_eq_false_iff_not, not_or] at h
  simp [rotationOf, h]

@[simp] theorem layoutI420_total (d : Dims) : (layoutI420 d).total = tightTotal d := by
  simp [layoutI420, tightTotal, Nat.mul_assoc]

@[simp] theorem layoutNv12_total (d : Dims) : (layoutNv12 d).total = tightTotal d := by
  simp [layoutNv12, tightTotal, Nat.mul_assoc]

/-! ### The bytes of a plane -/

theorem mem_footprint (v : View) (a : Nat) :
    a ∈ v.footprint ↔ ∃ x y, x < v.width ∧ y < v.height ∧ a = v.byteAddr x y := by
  simp only [View.footprint, List.mem_flatMap, List.mem_range, List.mem_map]
  constructor
  · rintro ⟨y, hy, x, hx, rfl⟩
    exact ⟨x, y, hx, hy, rfl⟩
  · rintro ⟨x, y, hx, hy, rfl⟩
    exact ⟨y, hy, x, hx, rfl⟩

/-- A view whose row width is at most its stride: what R63 and R112 give. -/
abbrev View.Proper (v : View) : Prop := v.width ≤ v.stride

/-- In a proper view different samples have different addresses. -/
theorem byteAddr_inj (v : View) (hv : v.Proper) (x y x' y' : Nat) (hx : x < v.width)
    (hx' : x' < v.width) (h : v.byteAddr x y = v.byteAddr x' y') : x = x' ∧ y = y' := by
  unfold View.byteAddr at h
  have hs : 0 < v.stride := by unfold View.Proper at hv; omega
  have hxs : x < v.stride := by unfold View.Proper at hv; omega
  have hxs' : x' < v.stride := by unfold View.Proper at hv; omega
  have h' : x + v.stride * y = x' + v.stride * y' := by
    rw [Nat.mul_comm v.stride, Nat.mul_comm v.stride]; omega
  have hy : y = y' := by
    have := congrArg (· / v.stride) h'
    simpa [Nat.add_mul_div_left _ _ hs, Nat.div_eq_of_lt hxs, Nat.div_eq_of_lt hxs'] using this
  subst hy
  omega

/-- A sample of a proper view lies inside its extent. -/
theorem byteAddr_lt (v : View) (hv : v.Proper) (x y : Nat) (hx : x < v.width) (hy : y < v.height) :
    v.addr ≤ v.byteAddr x y ∧ v.byteAddr x y < v.addr + v.stride * v.height := by
  unfold View.byteAddr
  unfold View.Proper at hv
  have : (y + 1) * v.stride ≤ v.height * v.stride := Nat.mul_le_mul_right _ hy
  rw [Nat.mul_comm v.height, Nat.add_mul] at this
  omega

theorem footprint_in_extent (v : View) (hv : v.Proper) (a : Nat) (ha : a ∈ v.footprint) :
    v.extent.contains a = true := by
  obtain ⟨x, y, hx, hy, rfl⟩ := (mem_footprint v a).mp ha
  have := byteAddr_lt v hv x y hx hy
  exact decide_eq_true this

theorem footprint_nodup (v : View) (hv : v.Proper) : v.footprint.Nodup := by
  unfold View.footprint
  rw [List.nodup_flatMap]
  refine ⟨fun y _ => ?_, ?_⟩
  · refine List.Nodup.map_on ?_ List.nodup_range
    intro x hx x' hx' h
    exact (byteAddr_inj v hv x y x' y (List.mem_range.mp hx) (List.mem_range.mp hx') h).1
  · refine List.Pairwise.imp ?_ (List.nodup_range (n := v.height))
    intro y y' hyy a ha ha'
    simp only [List.mem_map, List.mem_range] at ha ha'
    obtain ⟨x, hx, rfl⟩ := ha
    obtain ⟨x', hx', h⟩ := ha'
    exact hyy (byteAddr_inj v hv x y x' y' hx hx' h.symm).2

/-! ### The views of slots that passed -/

theorem view_proper (p : Params) (n : SlotId) (d : Dims) (hf : SlotFits p n d) :
    (p.view n d.w d.h).Proper := by
  have h1 := hf.1
  simp only [View.Proper, Params.view]
  omega

/-- No address of the extent of a slot that passed reaches 2^32 (R62). -/
theorem view_extent_le (p : Params) (n : SlotId) (d : Dims) (hf : SlotFits p n d) :
    (p.view n d.w d.h).addr + (p.view n d.w d.h).stride * (p.view n d.w d.h).height ≤ 2 ^ 32 := by
  obtain ⟨h1, -, h3⟩ := hf
  simp only [Params.view]
  have hs : ((sint32 (p.slots.get n).stride).toNat : Int) = sint32 (p.slots.get n).stride := by
    omega
  zify
  rw [hs]
  exact h3

theorem view_footprint_lt (p : Params) (n : SlotId) (d : Dims) (hf : SlotFits p n d) (a : Nat)
    (ha : a ∈ (p.view n d.w d.h).footprint) : a < 2 ^ 32 := by
  obtain ⟨x, y, hx, hy, rfl⟩ := (mem_footprint _ a).mp ha
  have := byteAddr_lt _ (view_proper p n d hf) x y hx hy
  have := view_extent_le p n d hf
  omega

/-! ### The views of a tight buffer -/

theorem tightI420_proper (d : Dims) (addr : Nat) :
    (tightViewsI420 (layoutI420 d) addr).y.Proper ∧
      (tightViewsI420 (layoutI420 d) addr).u.Proper ∧
      (tightViewsI420 (layoutI420 d) addr).v.Proper := by
  simp [tightViewsI420, layoutI420, View.Proper]

theorem tightNv12_proper (d : Dims) (addr : Nat) :
    (tightViewsNv12 (layoutNv12 d) addr).1.Proper ∧
      (tightViewsNv12 (layoutNv12 d) addr).2.Proper := by
  simp [tightViewsNv12, layoutNv12, View.Proper]

theorem tightI420_extent_le (d : Dims) (addr : Nat) (v : View)
    (hv : v = (tightViewsI420 (layoutI420 d) addr).y ∨
      v = (tightViewsI420 (layoutI420 d) addr).u ∨ v = (tightViewsI420 (layoutI420 d) addr).v) :
    addr ≤ v.addr ∧ v.addr + v.stride * v.height ≤ addr + tightTotal d := by
  rcases hv with rfl | rfl | rfl <;> (simp [tightViewsI420, layoutI420, tightTotal]; try omega)

theorem tightNv12_extent_le (d : Dims) (addr : Nat) (v : View)
    (hv : v = (tightViewsNv12 (layoutNv12 d) addr).1 ∨
      v = (tightViewsNv12 (layoutNv12 d) addr).2) :
    addr ≤ v.addr ∧ v.addr + v.stride * v.height ≤ addr + tightTotal d := by
  rcases hv with rfl | rfl <;>
    (simp [tightViewsNv12, layoutNv12, tightTotal, Nat.mul_assoc]; try omega)

end Sys2Proof.Machine
end

