-- ==== Sys2Proof/Laws/Encoding.lean ====
section
/-! SUPPORT. The fields of a command word, and words as bytes (R35, R91, R100). -/

namespace Sys2Proof

theorem tagOfBits_bitsOfTag (t : FmtTag) : tagOfBits (bitsOfTag t) = t := by cases t <;> rfl

theorem bitsOfTag_lt (t : FmtTag) : bitsOfTag t < 4 := by cases t <;> decide

theorem bitsOfTag_tagOfBits (n : Nat) (h : n < 4) : bitsOfTag (tagOfBits n) = n := by
  interval_cases n <;> rfl

/-- A field is smaller than two to its width. -/
theorem bits_lt (hi lo : Nat) (v : Word) : bits hi lo v < 2 ^ (hi - lo + 1) :=
  Nat.mod_lt _ (Nat.two_pow_pos _)

/-- Every field of a command word holds what was put into it, and the reserved fields hold 0. -/
theorem bits_commandWord (op : Nat) (tight : Bool) (dst src : FmtTag) (angle : Nat) (ho : op < 16)
    (ha : angle < 2 ^ 16) :
    bits 3 0 (commandWord op tight dst src angle) = op ∧
    bits 4 4 (commandWord op tight dst src angle) = tight.toNat ∧
    bits 7 5 (commandWord op tight dst src angle) = 0 ∧
    bits 9 8 (commandWord op tight dst src angle) = bitsOfTag dst ∧
    bits 11 10 (commandWord op tight dst src angle) = 0 ∧
    bits 13 12 (commandWord op tight dst src angle) = bitsOfTag src ∧
    bits 15 14 (commandWord op tight dst src angle) = 0 ∧
    bits 31 16 (commandWord op tight dst src angle) = angle := by
  have hd := bitsOfTag_lt dst
  have hs := bitsOfTag_lt src
  have ht : tight.toNat < 2 := Bool.toNat_lt tight
  simp only [bits, commandWord, BitVec.toNat_ofNat]
  refine ⟨?_, ?_, ?_, ?_, ?_, ?_, ?_, ?_⟩ <;> omega

/-- The bytes of a word give the word back. -/
theorem wordOfBytes_bytes (w : Word) :
    wordOfBytes (BitVec.ofNat 8 (bits 7 0 w)) (BitVec.ofNat 8 (bits 15 8 w))
      (BitVec.ofNat 8 (bits 23 16 w)) (BitVec.ofNat 8 (bits 31 24 w)) = w := by
  apply BitVec.eq_of_toNat_eq
  have := w.isLt
  simp only [wordOfBytes, bits, BitVec.toNat_ofNat]
  omega

/-- The decoder on the bytes of a word is the decoder on the word. -/
theorem decode_bytesOfWord (w : Word) : decode (bytesOfWord w) = decodeWord w := by
  simp only [bytesOfWord, decode, wordOfBytes_bytes]

end Sys2Proof
end

