-- ==== Sys2Proof/Laws/Moves.lean ====
section
/-! SUPPORT. The byte moves of the three loops: which bytes they write, in which order, and which they read. -/

namespace Sys2Proof.Machine

open Sys2Proof Sys2Proof.Safety

/-! ### `CopyView` -/

theorem mem_copyMoves (s d : View) (mv : Move) :
    mv ∈ copyMoves s d ↔ ∃ x y, x < d.width ∧ y < d.height ∧
      mv = { dst := d.byteAddr x y, src := s.byteAddr x y } := by
  simp only [copyMoves, List.mem_flatMap, List.mem_range, List.mem_map]
  constructor
  · rintro ⟨y, hy, x, hx, rfl⟩
    exact ⟨x, y, hx, hy, rfl⟩
  · rintro ⟨x, y, hx, hy, rfl⟩
    exact ⟨y, hy, x, hx, rfl⟩

theorem copyMoves_dst (s d : View) : (copyMoves s d).map Move.dst = d.footprint := by
  simp [copyMoves, View.footprint, List.map_flatMap, Function.comp_def]

theorem copyMoves_src (s d : View) (hw : s.width = d.width) (hh : s.height = d.height) (mv : Move)
    (h : mv ∈ copyMoves s d) : mv.src ∈ s.footprint := by
  obtain ⟨x, y, hx, hy, rfl⟩ := (mem_copyMoves s d mv).mp h
  exact (mem_footprint s _).mpr ⟨x, y, hw ▸ hx, hh ▸ hy, rfl⟩

/-! ### `RotateView` -/

theorem mem_rotateMoves (r : Rotation) (s d : View) (mv : Move) :
    mv ∈ rotateMoves r s d ↔ ∃ x y, x < d.width ∧ y < d.height ∧
      mv = { dst := d.byteAddr x y,
             src := s.byteAddr (rotationSource r s.width s.height x y).1
               (rotationSource r s.width s.height x y).2 } := by
  simp only [rotateMoves, List.mem_flatMap, List.mem_range, List.mem_map]
  constructor
  · rintro ⟨y, hy, x, hx, rfl⟩
    exact ⟨x, y, hx, hy, rfl⟩
  · rintro ⟨x, y, hx, hy, rfl⟩
    exact ⟨y, hy, x, hx, rfl⟩

theorem rotateMoves_dst (r : Rotation) (s d : View) :
    (rotateMoves r s d).map Move.dst = d.footprint := by
  simp [rotateMoves, View.footprint, List.map_flatMap, Function.comp_def]

/-- The input sample of an output sample lies inside the input rectangle (R141 to R144). -/
theorem rotationSource_lt (r : Rotation) (d : Dims) (x y : Nat) (hx : x < (d.rotated r).w)
    (hy : y < (d.rotated r).h) :
    (rotationSource r d.w d.h x y).1 < d.w ∧ (rotationSource r d.w d.h x y).2 < d.h := by
  cases r <;> simp only [Dims.rotated] at hx hy <;> simp only [rotationSource] <;> omega

theorem rotateMoves_src (r : Rotation) (s d : View)
    (hd : (Dims.mk s.width s.height).rotated r = ⟨d.width, d.height⟩) (mv : Move)
    (h : mv ∈ rotateMoves r s d) : mv.src ∈ s.footprint := by
  obtain ⟨x, y, hx, hy, rfl⟩ := (mem_rotateMoves r s d mv).mp h
  have := rotationSource_lt r ⟨s.width, s.height⟩ x y (by rw [hd]; exact hx) (by rw [hd]; exact hy)
  exact (mem_footprint s _).mpr ⟨_, _, this.1, this.2, rfl⟩

/-! ### `InterleaveViews` -/

theorem mem_interleaveMoves (u v d : View) (mv : Move) :
    mv ∈ interleaveMoves u v d ↔ ∃ col row, col < u.width ∧ row < u.height ∧
      (mv = { dst := d.byteAddr (2 * col) row, src := u.byteAddr col row } ∨
       mv = { dst := d.byteAddr (2 * col + 1) row, src := v.byteAddr col row }) := by
  simp only [interleaveMoves, List.mem_flatMap, List.mem_range, List.mem_cons,
    List.not_mem_nil, or_false]
  constructor
  · rintro ⟨row, hr, col, hc, h⟩
    exact ⟨col, row, hc, hr, h⟩
  · rintro ⟨col, row, hc, hr, h⟩
    exact ⟨row, hr, col, hc, h⟩

/-- The columns of a UV row are the columns of a chroma row, taken twice. -/
theorem range_pairs {α : Type} (f : Nat → α) (n : Nat) :
    (List.range n).flatMap (fun c => [f (2 * c), f (2 * c + 1)]) = (List.range (2 * n)).map f := by
  induction n with
  | zero => rfl
  | succ n ih =>
    rw [List.range_succ, List.flatMap_append, ih, show 2 * (n + 1) = 2 * n + 1 + 1 by ring,
      List.range_succ, List.range_succ]
    simp

theorem interleaveMoves_dst (u v d : View) (hw : d.width = 2 * u.width)
    (hh : d.height = u.height) : (interleaveMoves u v d).map Move.dst = d.footprint := by
  simp only [interleaveMoves, View.footprint, List.map_flatMap, List.map_cons, List.map_nil, hw, hh]
  congr 1
  funext y
  exact range_pairs (fun x => d.byteAddr x y) u.width

theorem interleaveMoves_src (u v d : View) (hw : u.width = v.width) (hh : u.height = v.height)
    (mv : Move) (h : mv ∈ interleaveMoves u v d) :
    mv.src ∈ u.footprint ∨ mv.src ∈ v.footprint := by
  obtain ⟨col, row, hc, hr, rfl | rfl⟩ := (mem_interleaveMoves u v d mv).mp h
  · exact .inl ((mem_footprint u _).mpr ⟨col, row, hc, hr, rfl⟩)
  · exact .inr ((mem_footprint v _).mpr ⟨col, row, hw ▸ hc, hh ▸ hr, rfl⟩)

/-! ### Sound plans -/

/-- What every plan that passed its checks is: its moves write exactly its write footprint, each byte
in the order of the footprint, from bytes of its read footprint, and every view is proper and inside
the memory space. -/
structure Plan.Sound (plan : Plan) : Prop where
  dst : plan.moves.map Move.dst = plan.writeFootprint
  src : ∀ mv ∈ plan.moves, mv.src ∈ plan.readFootprint
  proper : ∀ v, v ∈ plan.sources ∨ v ∈ plan.dests →
    v.Proper ∧ v.addr + v.stride * v.height ≤ 2 ^ 32

theorem mem_readFootprint (plan : Plan) (a : Nat) :
    a ∈ plan.readFootprint ↔ ∃ v ∈ plan.sources, a ∈ v.footprint := by
  simp [Plan.readFootprint]

theorem mem_writeFootprint (plan : Plan) (a : Nat) :
    a ∈ plan.writeFootprint ↔ ∃ v ∈ plan.dests, a ∈ v.footprint := by
  simp [Plan.writeFootprint]

theorem writeFootprint_lt (plan : Plan) (h : plan.Sound) (a : Nat)
    (ha : a ∈ plan.writeFootprint) : a < 2 ^ 32 := by
  obtain ⟨v, hv, ha⟩ := (mem_writeFootprint plan a).mp ha
  obtain ⟨hp, hle⟩ := h.proper v (.inr hv)
  obtain ⟨x, y, hx, hy, rfl⟩ := (mem_footprint v a).mp ha
  have := byteAddr_lt v hp x y hx hy
  omega

theorem move_dst_mem (plan : Plan) (h : plan.Sound) (mv : Move) (hm : mv ∈ plan.moves) :
    mv.dst ∈ plan.writeFootprint := by
  rw [← h.dst]
  exact List.mem_map_of_mem hm

theorem writeFootprint_nodup (plan : Plan) (h : plan.Sound) (hs : Separated plan) :
    plan.writeFootprint.Nodup := by
  unfold Plan.writeFootprint
  rw [List.nodup_flatMap]
  refine ⟨fun v hv => footprint_nodup v (h.proper v (.inr hv)).1, ?_⟩
  refine hs.2.imp ?_
  intro u v huv a ha hav
  exact huv a ha hav

/-- The moves of a sound plan with separated footprints move the bytes of the memory they start
from. -/
theorem read_runMoves_plan (plan : Plan) (h : plan.Sound) (hs : Separated plan) (m : Memory)
    (hm : m.Pairwise fun c d => c.1 < d.1) (mv : Move) (hmv : mv ∈ plan.moves) :
    (m.runMoves plan.moves).read mv.dst = m.read mv.src := by
  refine read_runMoves plan.moves m hm ?_ ?_ mv hmv
  · rw [h.dst]
    exact writeFootprint_nodup plan h hs
  · intro x hx y hy hxy
    exact hs.1 x.src (h.src x hx) (hxy ▸ move_dst_mem plan h y hy)

theorem read_runMoves_outside (plan : Plan) (h : plan.Sound) (m : Memory) (a : Nat)
    (ha : a ∉ plan.writeFootprint) : (m.runMoves plan.moves).read a = m.read a :=
  read_runMoves_other _ _ _ fun mv hmv hd => ha (hd ▸ move_dst_mem plan h mv hmv)

end Sys2Proof.Machine
end

