-- ==== Sys2Proof/Laws/Run.lean ====
section
/-! SUPPORT. What executing a command can do, said once: `exec` is one run of the command's work, a run
either raises the first error or executes the plan, and the plan of a command is sound. -/

namespace Sys2Proof.Machine

open Sys2Proof Sys2Proof.Safety

/-! ### Boolean tests and the propositions they decide -/

theorem disjoint_iff (xs ys : List Nat) : disjoint xs ys = true ↔ ∀ a ∈ xs, a ∉ ys := by
  simp [disjoint]

theorem pairwiseDisjoint_iff (vs : List View) :
    pairwiseDisjoint vs = true ↔ vs.Pairwise fun u v => ∀ a ∈ u.footprint, a ∉ v.footprint := by
  induction vs with
  | nil => simp [pairwiseDisjoint]
  | cons v vs ih => simp [pairwiseDisjoint, ih, disjoint_iff]

theorem separated_iff (plan : Plan) : plan.separated = true ↔ Separated plan := by
  simp [Plan.separated, Separated, disjoint_iff, pairwiseDisjoint_iff]

theorem contains_iff (r : Region) (a : Nat) :
    r.contains a = true ↔ r.base ≤ a ∧ a < r.base + r.size := by
  simp [Region.contains]

theorem meets_iff (r t : Region) :
    r.meets t = true ↔ ∃ a, r.contains a = true ∧ t.contains a = true := by
  simp only [Region.meets, decide_eq_true_eq, contains_iff]
  constructor
  · intro h
    refine ⟨max r.base t.base, ?_⟩
    simp only [lt_min_iff] at h
    omega
  · rintro ⟨a, h1, h2⟩
    simp only [lt_min_iff, max_lt_iff]
    omega

theorem touches_iff (plan : Plan) (a : Nat) :
    plan.touches a = true ↔
      (∃ v ∈ plan.sources, v.extent.contains a = true) ∨ a ∈ plan.writeFootprint := by
  simp [Plan.touches]

theorem touches_false (plan : Plan) (a : Nat) :
    plan.touches a = false ↔
      (∀ v ∈ plan.sources, v.extent.contains a = false) ∧ a ∉ plan.writeFootprint := by
  simp [Plan.touches]

/-- A plan meets a region exactly when the region holds a byte of its buffers. -/
theorem planMeets_iff (plan : Plan) (r : Region) :
    plan.meets r = true ↔ ∃ a, r.contains a = true ∧ plan.touches a = true := by
  simp only [Plan.meets, Bool.or_eq_true, List.any_eq_true, meets_iff, touches_iff]
  constructor
  · rintro (⟨v, hv, a, h1, h2⟩ | ⟨a, hw, ha⟩)
    · exact ⟨a, h2, .inl ⟨v, hv, h1⟩⟩
    · exact ⟨a, ha, .inr hw⟩
  · rintro ⟨a, ha, ⟨v, hv, h1⟩ | hw⟩
    · exact .inl ⟨v, hv, a, h1, ha⟩
    · exact .inr ⟨a, hw, ha⟩

theorem planMeets_false (plan : Plan) (r : Region) :
    plan.meets r = false ↔ ∀ a, r.contains a = true → plan.touches a = false := by
  rw [Bool.eq_false_iff, ne_eq, planMeets_iff]
  simp only [not_exists, not_and, Bool.not_eq_true]

/-- A cache line holds the addresses with one quotient by its size. -/
theorem line_contains_iff (p : Platform) (a b : Nat) :
    (p.line a).contains b = true ↔ b / 2 ^ p.lineBits = a / 2 ^ p.lineBits := by
  rw [contains_iff, Nat.div_eq_iff (Nat.two_pow_pos _)]
  have h := Nat.two_pow_pos p.lineBits
  simp only [Platform.line]
  omega

/-- An address lies in its own cache line. -/
theorem line_contains (p : Platform) (a : Nat) : (p.line a).contains a = true :=
  (line_contains_iff p a a).mpr rfl

/-- The line of any of its addresses is the line. -/
theorem line_eq (p : Platform) (a b : Nat) (h : (p.line a).contains b = true) :
    p.line b = p.line a := by
  simp only [Platform.line, (line_contains_iff p a b).mp h]

theorem forbids_iff (s : State) (plan : Plan) :
    s.platform.forbids plan = false ↔ OrdinaryBuffers s plan := by
  simp only [Platform.forbids, OrdinaryBuffers, List.any_eq_false, Bool.not_eq_true]
  simp only [planMeets_false, touches_false]

theorem mem_addrs (r : Region) (a : Nat) : a ∈ r.addrs ↔ r.contains a = true := by
  rw [contains_iff]
  simp only [Region.addrs, List.mem_map, List.mem_range]
  constructor
  · rintro ⟨k, hk, rfl⟩
    omega
  · rintro ⟨h1, h2⟩
    exact ⟨a - r.base, by omega, by omega⟩

/-- Every faulted access is a faulted read of a byte of a source extent or a faulted write of a byte
of the write footprint. -/
theorem mem_faultedAccesses (s : State) (plan : Plan) (h : plan.Sound) (a : Nat)
    (ha : a ∈ s.faultedAccesses plan) :
    ((∃ v ∈ plan.sources, v.extent.contains a = true) ∧ s.faults .read a = true) ∨
      (a ∈ plan.writeFootprint ∧ s.faults .write a = true) := by
  simp only [State.faultedAccesses, List.mem_append, List.mem_filter, List.mem_flatMap,
    mem_addrs, Bool.and_eq_true] at ha
  rcases ha with (⟨h1, h2⟩ | ⟨h1, h2⟩) | ⟨h1, ⟨-, h2⟩, -⟩
  · obtain ⟨v, hv, hva⟩ := (mem_readFootprint plan a).mp h1
    exact .inl ⟨⟨v, hv, footprint_in_extent v (h.proper v (.inl hv)).1 a hva⟩, h2⟩
  · exact .inr ⟨h1, h2⟩
  · exact .inl ⟨h1, h2⟩

theorem faultedAccesses_nil (s : State) (plan : Plan) (h : plan.Sound) (hn : NoBusFault s plan) :
    s.faultedAccesses plan = [] := by
  rw [List.eq_nil_iff_forall_not_mem]
  intro a ha
  rcases mem_faultedAccesses s plan h a ha with ⟨⟨v, hv, hc⟩, hf⟩ | ⟨hw, hf⟩
  · rw [hn.1 v hv a hc] at hf
    cases hf
  · rw [hn.2 a hw] at hf
    cases hf

theorem reportedFault_mem (draw : Nat) (as : List Nat) (h : as ≠ []) :
    reportedFault draw as ∈ as := by
  match as with
  | [] => exact absurd rfl h
  | [a] => simp [reportedFault]
  | a :: b :: as =>
    unfold reportedFault
    have hlt : Config.faultPick draw % (a :: b :: as).length < (a :: b :: as).length :=
      Nat.mod_lt _ (by simp)
    simp only [List.getD_eq_getElem?_getD, List.getElem?_eq_getElem hlt, Option.getD_some]
    exact List.getElem_mem hlt

/-! ### `runPlan` -/

/-- Everything the execution of a plan can do. -/
theorem runPlan_cases (s : State) (plan : Plan) :
    (s.platform.forbids plan = true ∧ s.runPlan plan = .refused .deviceBuffer) ∨
    (s.platform.forbids plan = false ∧ s.faultedAccesses plan = [] ∧
      s.runPlan plan = .next (s.moved plan)) ∨
    (s.platform.forbids plan = false ∧ s.faultedAccesses plan ≠ [] ∧
      s.runPlan plan =
        .next (s.busError plan (reportedFault s.draws (s.faultedAccesses plan)))) := by
  unfold State.runPlan
  cases hf : s.platform.forbids plan
  · cases he : (s.faultedAccesses plan).isEmpty
    · exact .inr (.inr ⟨rfl, by simpa using he, by simp⟩)
    · exact .inr (.inl ⟨rfl, by simpa using he, by simp⟩)
  · exact .inl ⟨rfl, by simp⟩

/-- An undisturbed plan: its moves are done and the command ends without error. -/
theorem runPlan_undisturbed (s : State) (plan : Plan) (h : plan.Sound) (hu : Undisturbed s plan) :
    s.runPlan plan = .next (ended s s.regs plan (s.mem.runMoves plan.moves)) := by
  obtain ⟨ho, hn, hs, hi⟩ := hu
  rcases runPlan_cases s plan with ⟨hf, -⟩ | ⟨-, -, hr⟩ | ⟨-, he, -⟩
  · rw [(forbids_iff s plan).mpr ho] at hf
    cases hf
  · rw [hr]
    unfold State.moved State.complete State.movedMemory State.engineWrote ended
    rw [(separated_iff plan).mpr hs, hi]
    rfl
  · exact absurd (faultedAccesses_nil s plan h hn) he

/-! ### `runWork` and `exec` -/

theorem runWork_error (s : State) (work : Work) (e : CommandError) (h : work.plan = .error e) :
    s.runWork work =
      .next (State.raise { s with regs := s.regs.layoutStep work.layout } e) := by
  unfold State.runWork
  rw [h]

theorem runWork_ok (s : State) (work : Work) (plan : Plan) (h : work.plan = .ok plan) :
    s.runWork work =
      State.runPlan { s with regs := s.regs.layoutStep work.layout } plan := by
  unfold State.runWork
  rw [h]

/-- Every command is one run of its work on the parameters. -/
theorem exec_eq_runWork (i : Instr) (s : State) : exec i s = s.runWork (workOf i s.params) := by
  cases i <;> rfl

/-! ### The work of each command -/

theorem imageFormats_eq (target : FmtTag) (tight : Bool) (dst src : FmtTag) :
    imageFormats target tight dst src =
      if src = .i420 ∧ (tight = true → dst = target) then .ok () else .error .unsupportedFormat := by
  unfold imageFormats requireFormat
  by_cases hs : src = .i420 <;> by_cases hd : dst = target <;> cases tight <;> simp [hs, hd] <;> rfl

/-- The plan of a command whose checks pass (R121, R131, R146, R163, R165, R170). -/
def planOf (i : Instr) (p : Params) (d : Dims) : Except CommandError Plan :=
  match i with
  | .copyPlane _ _ _ => .ok (copyPlanePlan p d)
  | .interleaveUv _ _ _ => .ok (interleaveUvPlan p d)
  | .rotatePlane _ _ angle => (rotationOf angle).map fun r => rotatePlanePlan p r d
  | .layout _ _ _ => .ok Plan.empty
  | .imageCopy tight _ _ _ => .ok (imageCopyPlan p tight d)
  | .convertNv12 tight _ _ _ => .ok (convertNv12Plan p tight d)
  | .rotate tight _ _ angle => (rotationOf angle).map fun r => rotatePlan p tight r d

end Sys2Proof.Machine
end

