-- ==== Sys2Proof/Laws/Work.lean ====
section
/-! SUPPORT. What the checks of each command decide, said once over R97's table: the error it raises, the
layout it writes and the plan it executes (R162, R183, R184). -/

namespace Sys2Proof.Machine

open Sys2Proof Sys2Proof.Safety

/-- The buffer checks of a row of R97's table, in its order. -/
def checkAll (p : Params) : List (SlotId × Dims) → Except CommandError Unit
  | [] => .ok ()
  | (n, d) :: rest =>
    match checkSlot p n d.w d.h with
    | .ok () => checkAll p rest
    | .error e => .error e

/-- The buffer checks of a command, the tight destination last, and then its plan. -/
def buffersOf (i : Instr) (p : Params) (d : Dims) : Except CommandError Plan :=
  match checkAll p (slotTable i d) with
  | .error e => .error e
  | .ok () =>
    if usesTight i = true then
      match checkTight p (tightTotal (outDims i d)) with
      | .error e => .error e
      | .ok () => planOf i p d
    else planOf i p d

theorem checkAll_ok (p : Params) (l : List (SlotId × Dims)) (h : ∀ e ∈ l, SlotFits p e.1 e.2) :
    checkAll p l = .ok () := by
  induction l with
  | nil => rfl
  | cons e l ih =>
    unfold checkAll
    rw [checkSlot_ok p e.1 e.2.w e.2.h (h e (by simp))]
    exact ih fun x hx => h x (by simp [hx])

theorem checkAll_error (p : Params) (pre post : List (SlotId × Dims)) (e : SlotId × Dims)
    (hp : ∀ x ∈ pre, SlotFits p x.1 x.2) (he : ¬ SlotFits p e.1 e.2) :
    checkAll p (pre ++ e :: post) = .error (.bufferTooSmall e.1) := by
  induction pre with
  | nil =>
    rw [List.nil_append]
    unfold checkAll
    rw [checkSlot_error p e.1 e.2.w e.2.h he]
  | cons x pre ih =>
    rw [List.cons_append]
    unfold checkAll
    rw [checkSlot_ok p x.1 x.2.w x.2.h (hp x (by simp))]
    exact ih fun y hy => hp y (by simp [hy])

/-- A row of checks passes, or its first failing slot is raised. -/
theorem checkAll_cases (p : Params) (l : List (SlotId × Dims)) :
    ((∀ e ∈ l, SlotFits p e.1 e.2) ∧ checkAll p l = .ok ()) ∨
    ∃ n, checkAll p l = .error (.bufferTooSmall n) := by
  induction l with
  | nil => exact .inl ⟨by simp, rfl⟩
  | cons e l ih =>
    by_cases he : SlotFits p e.1 e.2
    · unfold checkAll
      rw [checkSlot_ok p e.1 e.2.w e.2.h he]
      rcases ih with ⟨h, h'⟩ | h
      · exact .inl ⟨by simpa [he] using h, h'⟩
      · exact .inr h
    · exact .inr ⟨e.1, checkAll_error p [] l e (by simp) he⟩

theorem buffersOf_ok (i : Instr) (p : Params) (d : Dims) (h : BuffersFit i p d) :
    buffersOf i p d = planOf i p d := by
  unfold buffersOf
  rw [checkAll_ok p _ h.1]
  by_cases ht : usesTight i = true
  · simp only [if_pos ht, checkTight_ok p _ (h.2 ht)]
  · simp only [if_neg ht]

/-- The buffer checks of a command all pass, or BufferTooSmall is raised. -/
theorem buffersOf_cases (i : Instr) (p : Params) (d : Dims) :
    (BuffersFit i p d ∧ buffersOf i p d = planOf i p d) ∨
    ∃ n, buffersOf i p d = .error (.bufferTooSmall n) := by
  rcases checkAll_cases p (slotTable i d) with ⟨h, hc⟩ | ⟨n, hc⟩
  · by_cases ht : usesTight i = true
    · by_cases hf : TightFits p (tightTotal (outDims i d))
      · have hb : BuffersFit i p d := ⟨h, fun _ => hf⟩
        exact .inl ⟨hb, buffersOf_ok i p d hb⟩
      · refine .inr ⟨.dst0, ?_⟩
        unfold buffersOf
        rw [hc]
        simp only [if_pos ht, checkTight_error p _ hf]
    · have hb : BuffersFit i p d := ⟨h, fun h' => absurd h' ht⟩
      exact .inl ⟨hb, buffersOf_ok i p d hb⟩
  · refine .inr ⟨n, ?_⟩
    unfold buffersOf
    rw [hc]

/-- R183 (2): a format the command does not accept. -/
theorem workOf_badFormat (i : Instr) (p : Params) (h : formatsAccepted i = false) :
    workOf i p = { layout := none, plan := .error .unsupportedFormat } := by
  cases i with
  | copyPlane dst src angle => cases h
  | interleaveUv dst src angle => cases h
  | rotatePlane dst src angle => cases h
  | layout dst src angle =>
    cases dst <;> first | (simp [formatsAccepted] at h; done) | rfl
  | imageCopy tight dst src angle =>
    simp only [formatsAccepted, decide_eq_false_iff_not] at h
    simp only [workOf, workImageCopy, imageCopyChecks, imageFormats_eq, if_neg h]
    rfl
  | convertNv12 tight dst src angle =>
    simp only [formatsAccepted, decide_eq_false_iff_not] at h
    simp only [workOf, workConvertNv12, convertNv12Checks, imageFormats_eq, if_neg h]
    rfl
  | rotate tight dst src angle =>
    simp only [formatsAccepted, decide_eq_false_iff_not] at h
    simp only [workOf, workRotate, rotateChecks, imageFormats_eq, if_neg h]
    rfl

/-- R183 (3): an angle the command does not accept. -/
theorem workOf_badAngle (i : Instr) (p : Params) (hf : formatsAccepted i = true)
    (h : angleAccepted i = false) :
    workOf i p = { layout := none, plan := .error .unsupportedAngle } := by
  cases i with
  | copyPlane dst src angle => cases h
  | interleaveUv dst src angle => cases h
  | rotatePlane dst src angle =>
    simp only [workOf, workRotatePlane, rotationOf_rejected angle h]
    rfl
  | layout dst src angle => cases h
  | imageCopy tight dst src angle => cases h
  | convertNv12 tight dst src angle => cases h
  | rotate tight dst src angle =>
    simp only [formatsAccepted, decide_eq_true_eq] at hf
    simp only [workOf, workRotate, rotateChecks, imageFormats_eq, if_pos hf,
      rotationOf_rejected angle h]
    rfl

/-- R183 (4): bad dimensions. -/
theorem workOf_badDims (i : Instr) (p : Params) (hf : formatsAccepted i = true)
    (ha : angleAccepted i = true) (h : BadDims p) :
    workOf i p = { layout := none, plan := .error .invalidDimensions } := by
  have hd := dimensions_bad p h
  cases i with
  | copyPlane dst src angle => simp only [workOf, workCopyPlane, hd]; rfl
  | interleaveUv dst src angle => simp only [workOf, workInterleaveUv, hd]; rfl
  | rotatePlane dst src angle =>
    obtain ⟨r, hr, -⟩ := rotationOf_accepted angle ha
    simp only [workOf, workRotatePlane, hr, hd]; rfl
  | layout dst src angle =>
    cases dst with
    | i420 => simp only [workOf, workLayout, layoutChecks, hd]; rfl
    | nv12 => simp only [workOf, workLayout, layoutChecks, hd]; rfl
    | fmt2 => simp [formatsAccepted] at hf
    | fmt3 => simp [formatsAccepted] at hf
  | imageCopy tight dst src angle =>
    simp only [formatsAccepted, decide_eq_true_eq] at hf
    simp only [workOf, workImageCopy, imageCopyChecks, imageFormats_eq, if_pos hf, hd]; rfl
  | convertNv12 tight dst src angle =>
    simp only [formatsAccepted, decide_eq_true_eq] at hf
    simp only [workOf, workConvertNv12, convertNv12Checks, imageFormats_eq, if_pos hf, hd]; rfl
  | rotate tight dst src angle =>
    simp only [formatsAccepted, decide_eq_true_eq] at hf
    obtain ⟨r, hr, -⟩ := rotationOf_accepted angle ha
    simp only [workOf, workRotate, rotateChecks, imageFormats_eq, if_pos hf, hr, hd]; rfl

/-- A row of the table whose front is `l`. -/
theorem checkAll_append (p : Params) (l rest : List (SlotId × Dims)) :
    checkAll p (l ++ rest) = (checkAll p l >>= fun _ => checkAll p rest) := by
  induction l with
  | nil => rfl
  | cons e l ih =>
    simp only [List.cons_append, checkAll, ih]
    rcases checkSlot p e.1 e.2.w e.2.h with err | ⟨⟩ <;> rfl

theorem checkSourceImage_eq (p : Params) (d : Dims) :
    checkSourceImage p d = checkAll p [(.src0, d), (.src1, d.chroma), (.src2, d.chroma)] := by
  simp only [checkAll, checkSourceImage, bind, Except.bind]
  rcases checkSlot p .src0 d.w d.h with e | ⟨⟩ <;> try rfl
  rcases checkSlot p .src1 d.chroma.w d.chroma.h with e | ⟨⟩ <;> try rfl
  rcases checkSlot p .src2 d.chroma.w d.chroma.h with e | ⟨⟩ <;> rfl

/-- The destination check of IMAGE_COPY and ROTATE: the rest of the row, or the tight check. -/
theorem checkI420Destination_eq (p : Params) (tight : Bool) (d : Dims) :
    checkI420Destination p tight d =
      if tight then checkTight p (tightTotal d)
      else checkAll p [(.dst0, d), (.dst1, d.chroma), (.dst2, d.chroma)] := by
  unfold checkI420Destination
  cases tight
  · simp only [checkAll, bind, Except.bind]
    rcases checkSlot p .dst0 d.w d.h with e | ⟨⟩ <;> try rfl
    rcases checkSlot p .dst1 d.chroma.w d.chroma.h with e | ⟨⟩ <;> try rfl
    rcases checkSlot p .dst2 d.chroma.w d.chroma.h with e | ⟨⟩ <;> rfl
  · simp only [layoutI420_total, if_true]

theorem checkNv12Destination_eq (p : Params) (tight : Bool) (d : Dims) :
    checkNv12Destination p tight d =
      if tight then checkTight p (tightTotal d)
      else checkAll p [(.dst0, d), (.dst1, { w := 2 * d.chroma.w, h := d.chroma.h })] := by
  unfold checkNv12Destination
  cases tight
  · simp only [checkAll, bind, Except.bind]
    rcases checkSlot p .dst0 d.w d.h with e | ⟨⟩ <;> try rfl
    rcases checkSlot p .dst1 (2 * d.chroma.w) d.chroma.h with e | ⟨⟩ <;> rfl
  · simp only [layoutNv12_total, if_true]

/-- R183 (5) and after: with the formats, the angle and the dimensions accepted, the command writes
its layout, checks its buffers in the order of R97's table, and executes its plan. -/
theorem workOf_dims (i : Instr) (p : Params) (d : Dims) (hf : formatsAccepted i = true)
    (ha : angleAccepted i = true) (h : HasDims p d) :
    workOf i p = { layout := layoutWritten i d, plan := buffersOf i p d } := by
  have hd := dimensions_ok p d h
  cases i with
  | copyPlane dst src angle =>
    simp only [workOf, workCopyPlane, hd, layoutWritten, buffersOf, slotTable, checkAll, usesTight,
      Work.primitive, bind, Except.bind]
    rcases checkSlot p .src0 d.w d.h with e | ⟨⟩ <;> try rfl
    rcases checkSlot p .dst0 d.w d.h with e | ⟨⟩ <;> rfl
  | interleaveUv dst src angle =>
    simp only [workOf, workInterleaveUv, hd, layoutWritten, buffersOf, slotTable, checkAll,
      usesTight, Work.primitive, bind, Except.bind]
    rcases checkSlot p .src1 d.w d.h with e | ⟨⟩ <;> try rfl
    rcases checkSlot p .src2 d.w d.h with e | ⟨⟩ <;> try rfl
    rcases checkSlot p .dst1 (2 * d.w) d.h with e | ⟨⟩ <;> rfl
  | rotatePlane dst src angle =>
    obtain ⟨r, hr, ht⟩ := rotationOf_accepted angle ha
    simp only [workOf, workRotatePlane, hr, hd, layoutWritten, buffersOf, slotTable, checkAll,
      usesTight, planOf, ← ht, Work.primitive, bind, Except.bind]
    rcases checkSlot p .src0 d.w d.h with e | ⟨⟩ <;> try rfl
    rcases checkSlot p .dst0 (d.rotated r).w (d.rotated r).h with e | ⟨⟩ <;> rfl
  | layout dst src angle =>
    cases dst with
    | i420 => simp only [workOf, workLayout, layoutChecks, hd]; rfl
    | nv12 => simp only [workOf, workLayout, layoutChecks, hd]; rfl
    | fmt2 => simp [formatsAccepted] at hf
    | fmt3 => simp [formatsAccepted] at hf
  | imageCopy tight dst src angle =>
    simp only [formatsAccepted, decide_eq_true_eq] at hf
    simp only [workOf, workImageCopy, imageCopyChecks, imageFormats_eq, if_pos hf, hd,
      buffersOf, slotTable, checkAll_append, usesTight, outDims, planOf, Work.withLayout,
      imageCopyBuffers, checkSourceImage_eq, checkI420Destination_eq, layoutWritten, bind,
      Except.bind]
    generalize checkAll p [(.src0, d), (.src1, d.chroma), (.src2, d.chroma)] = a
    rcases a with e | ⟨⟩ <;> try rfl
    cases tight
    · simp only [Bool.false_eq_true, if_false]
      generalize checkAll p [(.dst0, d), (.dst1, d.chroma), (.dst2, d.chroma)] = b
      rcases b with e | ⟨⟩ <;> rfl
    · simp only [if_true]
      rcases checkTight p (tightTotal d) with e | ⟨⟩ <;> rfl
  | convertNv12 tight dst src angle =>
    simp only [formatsAccepted, decide_eq_true_eq] at hf
    simp only [workOf, workConvertNv12, convertNv12Checks, imageFormats_eq, if_pos hf, hd,
      buffersOf, slotTable, checkAll_append, usesTight, outDims, planOf, Work.withLayout,
      convertNv12Buffers, checkSourceImage_eq, checkNv12Destination_eq, layoutWritten, bind,
      Except.bind]
    generalize checkAll p [(.src0, d), (.src1, d.chroma), (.src2, d.chroma)] = a
    rcases a with e | ⟨⟩ <;> try rfl
    cases tight
    · simp only [Bool.false_eq_true, if_false]
      generalize checkAll p [(.dst0, d), (.dst1, { w := 2 * d.chroma.w, h := d.chroma.h })] = b
      rcases b with e | ⟨⟩ <;> rfl
    · simp only [if_true]
      rcases checkTight p (tightTotal d) with e | ⟨⟩ <;> rfl
  | rotate tight dst src angle =>
    simp only [formatsAccepted, decide_eq_true_eq] at hf
    obtain ⟨r, hr, ht⟩ := rotationOf_accepted angle ha
    simp only [workOf, workRotate, rotateChecks, imageFormats_eq, if_pos hf, hr, hd,
      buffersOf, slotTable, checkAll_append, usesTight, outDims, planOf, Work.withLayout,
      rotateBuffers, checkSourceImage_eq, checkI420Destination_eq, layoutWritten, ← ht, bind,
      Except.bind, pure, Except.pure]
    generalize checkAll p [(.src0, d), (.src1, d.chroma), (.src2, d.chroma)] = a
    rcases a with e | ⟨⟩ <;> try rfl
    generalize d.rotated r = d'
    cases tight
    · simp only [Bool.false_eq_true, if_false]
      generalize checkAll p [(.dst0, d'), (.dst1, d'.chroma), (.dst2, d'.chroma)] = b
      rcases b with e | ⟨⟩ <;> rfl
    · simp only [if_true]
      rcases checkTight p (tightTotal d') with e | ⟨⟩ <;> rfl

/-- A command whose checks all pass. -/
theorem workOf_fits (i : Instr) (p : Params) (d : Dims) (hf : formatsAccepted i = true)
    (ha : angleAccepted i = true) (h : HasDims p d) (hb : BuffersFit i p d) :
    workOf i p = { layout := layoutWritten i d, plan := planOf i p d } := by
  rw [workOf_dims i p d hf ha h, buffersOf_ok i p d hb]

/-- Every way a command's checks can end (R183). -/
theorem workOf_cases (i : Instr) (p : Params) :
    (formatsAccepted i = false ∧
      workOf i p = { layout := none, plan := .error .unsupportedFormat }) ∨
    (formatsAccepted i = true ∧ angleAccepted i = false ∧
      workOf i p = { layout := none, plan := .error .unsupportedAngle }) ∨
    (formatsAccepted i = true ∧ angleAccepted i = true ∧ BadDims p ∧
      workOf i p = { layout := none, plan := .error .invalidDimensions }) ∨
    (formatsAccepted i = true ∧ angleAccepted i = true ∧ ∃ d n, HasDims p d ∧
      workOf i p = { layout := layoutWritten i d, plan := .error (.bufferTooSmall n) }) ∨
    (formatsAccepted i = true ∧ angleAccepted i = true ∧ ∃ d, HasDims p d ∧ BuffersFit i p d ∧
      workOf i p = { layout := layoutWritten i d, plan := planOf i p d }) := by
  cases hf : formatsAccepted i with
  | false => exact .inl ⟨rfl, workOf_badFormat i p hf⟩
  | true =>
    cases ha : angleAccepted i with
    | false => exact .inr (.inl ⟨rfl, rfl, workOf_badAngle i p hf ha⟩)
    | true =>
      rcases dimensions_cases p with ⟨d, hd, -⟩ | ⟨hb, -⟩
      · rcases buffersOf_cases i p d with ⟨hb, -⟩ | ⟨n, hn⟩
        · exact .inr (.inr (.inr (.inr ⟨rfl, rfl, d, hd, hb, workOf_fits i p d hf ha hd hb⟩)))
        · exact .inr (.inr (.inr (.inl ⟨rfl, rfl, d, n, hd, by
            rw [workOf_dims i p d hf ha hd, hn]⟩)))
      · exact .inr (.inr (.inl ⟨rfl, rfl, hb, workOf_badDims i p hf ha hb⟩))

end Sys2Proof.Machine
end

