-- ==== Sys2Proof/Laws/Plans.lean ====
section
/-! SUPPORT. The plan of every command that passes its checks is sound, and what its moves do to each
plane (R122, R132, R141 to R146, R164, R166). -/

namespace Sys2Proof.Machine

open Sys2Proof Sys2Proof.Safety

/-! ### The destination views of the image commands -/

/-- A view that is proper and inside the memory space. -/
abbrev View.Inside (v : View) : Prop := v.Proper ∧ v.addr + v.stride * v.height ≤ 2 ^ 32

theorem view_inside (p : Params) (n : SlotId) (d : Dims) (hf : SlotFits p n d) :
    (p.view n d.w d.h).Inside := ⟨view_proper p n d hf, view_extent_le p n d hf⟩

theorem i420Planes_inside (p : Params) (tight : Bool) (d : Dims)
    (he : tight = false → SlotFits p .dst0 d ∧ SlotFits p .dst1 d.chroma ∧ SlotFits p .dst2 d.chroma)
    (ht : tight = true → TightFits p (tightTotal d)) :
    (i420Planes p tight d).y.Inside ∧ (i420Planes p tight d).u.Inside ∧
      (i420Planes p tight d).v.Inside := by
  cases tight
  · obtain ⟨h0, h1, h2⟩ := he rfl
    exact ⟨view_inside p _ _ h0, view_inside p _ _ h1, view_inside p _ _ h2⟩
  · obtain ⟨-, hle⟩ := ht rfl
    have hp := tightI420_proper d (uint32 p.slots.dst0.addr)
    have hx := tightI420_extent_le d (uint32 p.slots.dst0.addr)
    have key : ∀ v, (v = (tightViewsI420 (layoutI420 d) (uint32 p.slots.dst0.addr)).y ∨
        v = (tightViewsI420 (layoutI420 d) (uint32 p.slots.dst0.addr)).u ∨
        v = (tightViewsI420 (layoutI420 d) (uint32 p.slots.dst0.addr)).v) →
        v.addr + v.stride * v.height ≤ 2 ^ 32 := fun v hv => (hx v hv).2.trans hle
    exact ⟨⟨hp.1, key _ (.inl rfl)⟩, ⟨hp.2.1, key _ (.inr (.inl rfl))⟩,
      ⟨hp.2.2, key _ (.inr (.inr rfl))⟩⟩

theorem nv12Planes_inside (p : Params) (tight : Bool) (d : Dims)
    (he : tight = false → SlotFits p .dst0 d ∧
      SlotFits p .dst1 { w := 2 * d.chroma.w, h := d.chroma.h })
    (ht : tight = true → TightFits p (tightTotal d)) :
    (nv12Planes p tight d).1.Inside ∧ (nv12Planes p tight d).2.Inside := by
  cases tight
  · obtain ⟨h0, h1⟩ := he rfl
    exact ⟨view_inside p _ _ h0, view_inside p _ _ h1⟩
  · obtain ⟨-, hle⟩ := ht rfl
    have hp := tightNv12_proper d (uint32 p.slots.dst0.addr)
    have hx := tightNv12_extent_le d (uint32 p.slots.dst0.addr)
    exact ⟨⟨hp.1, (hx _ (.inl rfl)).2.trans hle⟩, ⟨hp.2, (hx _ (.inr rfl)).2.trans hle⟩⟩

/-- The dimensions of the destination views (R112, R161). -/
theorem i420Planes_dims (p : Params) (tight : Bool) (d : Dims) :
    ((i420Planes p tight d).y.width = d.w ∧ (i420Planes p tight d).y.height = d.h) ∧
    ((i420Planes p tight d).u.width = d.chroma.w ∧ (i420Planes p tight d).u.height = d.chroma.h) ∧
    ((i420Planes p tight d).v.width = d.chroma.w ∧ (i420Planes p tight d).v.height = d.chroma.h) := by
  cases tight <;> exact ⟨⟨rfl, rfl⟩, ⟨rfl, rfl⟩, rfl, rfl⟩

theorem nv12Planes_dims (p : Params) (tight : Bool) (d : Dims) :
    ((nv12Planes p tight d).1.width = d.w ∧ (nv12Planes p tight d).1.height = d.h) ∧
    ((nv12Planes p tight d).2.width = 2 * d.chroma.w ∧
      (nv12Planes p tight d).2.height = d.chroma.h) := by
  cases tight <;> exact ⟨⟨rfl, rfl⟩, rfl, rfl⟩

/-- The chroma of a rotated image is the rotated chroma (R172). -/
theorem chroma_rotated (d : Dims) (r : Rotation) : (d.rotated r).chroma = d.chroma.rotated r := by
  cases r <;> rfl

/-! ### Soundness -/

theorem empty_sound : Plan.empty.Sound :=
  ⟨rfl, by simp [Plan.empty], by simp [Plan.empty]⟩

theorem copyPlanePlan_sound (p : Params) (d : Dims) (h0 : SlotFits p .src0 d)
    (h3 : SlotFits p .dst0 d) : (copyPlanePlan p d).Sound where
  dst := by
    simp [copyPlanePlan, Plan.writeFootprint, copyMoves_dst]
  src mv hmv := by
    have := copyMoves_src (p.view .src0 d.w d.h) (p.view .dst0 d.w d.h) rfl rfl mv hmv
    simpa [copyPlanePlan, Plan.readFootprint] using this
  proper v hv := by
    simp only [copyPlanePlan, List.mem_singleton] at hv
    rcases hv with rfl | rfl
    · exact view_inside p _ d h0
    · exact view_inside p _ d h3

theorem interleaveUvPlan_sound (p : Params) (d : Dims) (h1 : SlotFits p .src1 d)
    (h2 : SlotFits p .src2 d) (h4 : SlotFits p .dst1 { w := 2 * d.w, h := d.h }) :
    (interleaveUvPlan p d).Sound where
  dst := by
    simp only [interleaveUvPlan, Plan.writeFootprint]
    rw [interleaveMoves_dst (p.view .src1 d.w d.h) (p.view .src2 d.w d.h)
      (p.view .dst1 (2 * d.w) d.h) rfl rfl]
    simp
  src mv hmv := by
    have := interleaveMoves_src (p.view .src1 d.w d.h) (p.view .src2 d.w d.h)
      (p.view .dst1 (2 * d.w) d.h) rfl rfl mv hmv
    simpa [interleaveUvPlan, Plan.readFootprint] using this
  proper v hv := by
    simp only [interleaveUvPlan, List.mem_cons, List.not_mem_nil, or_false] at hv
    rcases hv with (rfl | rfl) | rfl
    · exact view_inside p _ d h1
    · exact view_inside p _ d h2
    · exact view_inside p _ _ h4

theorem rotatePlanePlan_sound (p : Params) (r : Rotation) (d : Dims) (h0 : SlotFits p .src0 d)
    (h3 : SlotFits p .dst0 (d.rotated r)) : (rotatePlanePlan p r d).Sound where
  dst := by
    simp [rotatePlanePlan, Plan.writeFootprint, rotateMoves_dst]
  src mv hmv := by
    have := rotateMoves_src r (p.view .src0 d.w d.h)
      (p.view .dst0 (d.rotated r).w (d.rotated r).h) rfl mv hmv
    simpa [rotatePlanePlan, Plan.readFootprint] using this
  proper v hv := by
    simp only [rotatePlanePlan, List.mem_singleton] at hv
    rcases hv with rfl | rfl
    · exact view_inside p _ d h0
    · exact view_inside p _ _ h3

/-- The source views of an image command are inside the memory space. -/
theorem sourcePlanes_inside (p : Params) (d : Dims) (h0 : SlotFits p .src0 d)
    (h1 : SlotFits p .src1 d.chroma) (h2 : SlotFits p .src2 d.chroma) (v : View)
    (hv : v ∈ [(sourcePlanes p d).y, (sourcePlanes p d).u, (sourcePlanes p d).v]) : v.Inside := by
  simp only [List.mem_cons, List.not_mem_nil, or_false] at hv
  rcases hv with rfl | rfl | rfl
  · exact view_inside p _ _ h0
  · exact view_inside p _ _ h1
  · exact view_inside p _ _ h2

theorem imageCopyPlan_sound (p : Params) (tight : Bool) (d : Dims)
    (hs : ∀ v ∈ [(sourcePlanes p d).y, (sourcePlanes p d).u, (sourcePlanes p d).v], v.Inside)
    (hd : (i420Planes p tight d).y.Inside ∧ (i420Planes p tight d).u.Inside ∧
      (i420Planes p tight d).v.Inside) : (imageCopyPlan p tight d).Sound where
  dst := by
    simp [imageCopyPlan, Plan.writeFootprint, copyMoves_dst]
  src mv hmv := by
    obtain ⟨⟨yw, yh⟩, ⟨uw, uh⟩, vw, vh⟩ := i420Planes_dims p tight d
    simp only [imageCopyPlan, List.mem_append] at hmv
    rw [mem_readFootprint]
    rcases hmv with (h | h) | h
    · exact ⟨_, by simp [imageCopyPlan], copyMoves_src _ _ yw.symm yh.symm mv h⟩
    · exact ⟨_, by simp [imageCopyPlan], copyMoves_src _ _ uw.symm uh.symm mv h⟩
    · exact ⟨_, by simp [imageCopyPlan], copyMoves_src _ _ vw.symm vh.symm mv h⟩
  proper v hv := by
    simp only [imageCopyPlan, List.mem_cons, List.not_mem_nil, or_false] at hv
    rcases hv with h | rfl | rfl | rfl
    · exact hs v (by simpa using h)
    · exact hd.1
    · exact hd.2.1
    · exact hd.2.2

theorem convertNv12Plan_sound (p : Params) (tight : Bool) (d : Dims)
    (hs : ∀ v ∈ [(sourcePlanes p d).y, (sourcePlanes p d).u, (sourcePlanes p d).v], v.Inside)
    (hd : (nv12Planes p tight d).1.Inside ∧ (nv12Planes p tight d).2.Inside) :
    (convertNv12Plan p tight d).Sound where
  dst := by
    obtain ⟨-, uvw, uvh⟩ := nv12Planes_dims p tight d
    simp only [convertNv12Plan, Plan.writeFootprint, List.map_append, copyMoves_dst]
    rw [interleaveMoves_dst _ _ _ uvw uvh]
    simp
  src mv hmv := by
    obtain ⟨⟨yw, yh⟩, uvw, uvh⟩ := nv12Planes_dims p tight d
    simp only [convertNv12Plan, List.mem_append] at hmv
    rw [mem_readFootprint]
    rcases hmv with h | h
    · exact ⟨_, by simp [convertNv12Plan], copyMoves_src _ _ yw.symm yh.symm mv h⟩
    · rcases interleaveMoves_src (sourcePlanes p d).u (sourcePlanes p d).v _ rfl rfl mv h with h | h
      · exact ⟨_, by simp [convertNv12Plan], h⟩
      · exact ⟨_, by simp [convertNv12Plan], h⟩
  proper v hv := by
    simp only [convertNv12Plan, List.mem_cons, List.not_mem_nil, or_false] at hv
    rcases hv with h | rfl | rfl
    · exact hs v (by simpa using h)
    · exact hd.1
    · exact hd.2

theorem rotatePlan_sound (p : Params) (tight : Bool) (r : Rotation) (d : Dims)
    (hs : ∀ v ∈ [(sourcePlanes p d).y, (sourcePlanes p d).u, (sourcePlanes p d).v], v.Inside)
    (hd : (i420Planes p tight (d.rotated r)).y.Inside ∧
      (i420Planes p tight (d.rotated r)).u.Inside ∧
      (i420Planes p tight (d.rotated r)).v.Inside) : (rotatePlan p tight r d).Sound where
  dst := by
    simp [rotatePlan, Plan.writeFootprint, rotateMoves_dst]
  src mv hmv := by
    obtain ⟨⟨yw, yh⟩, ⟨uw, uh⟩, vw, vh⟩ := i420Planes_dims p tight (d.rotated r)
    simp only [rotatePlan, List.mem_append] at hmv
    rw [mem_readFootprint]
    have hc := chroma_rotated d r
    rcases hmv with (h | h) | h
    · refine ⟨_, by simp [rotatePlan], rotateMoves_src r _ _ ?_ mv h⟩
      rw [yw, yh]; rfl
    · refine ⟨_, by simp [rotatePlan], rotateMoves_src r _ _ ?_ mv h⟩
      rw [uw, uh, hc]; rfl
    · refine ⟨_, by simp [rotatePlan], rotateMoves_src r _ _ ?_ mv h⟩
      rw [vw, vh, hc]; rfl
  proper v hv := by
    simp only [rotatePlan, List.mem_cons, List.not_mem_nil, or_false] at hv
    rcases hv with h | rfl | rfl | rfl
    · exact hs v (by simpa using h)
    · exact hd.1
    · exact hd.2.1
    · exact hd.2.2

/-- The plan of a command whose checks pass is sound (R62, R66). -/
theorem planOf_sound (i : Instr) (p : Params) (d : Dims) (plan : Plan)
    (ha : angleAccepted i = true) (hb : BuffersFit i p d) (hp : planOf i p d = .ok plan) :
    plan.Sound := by
  obtain ⟨hs, ht⟩ := hb
  cases i with
  | copyPlane dst src angle =>
    cases hp
    exact copyPlanePlan_sound p d (hs (.src0, d) (by simp [slotTable]))
      (hs (.dst0, d) (by simp [slotTable]))
  | interleaveUv dst src angle =>
    cases hp
    exact interleaveUvPlan_sound p d (hs (.src1, d) (by simp [slotTable]))
      (hs (.src2, d) (by simp [slotTable]))
      (hs (.dst1, { w := 2 * d.w, h := d.h }) (by simp [slotTable]))
  | rotatePlane dst src angle =>
    obtain ⟨r, hr, hrot⟩ := rotationOf_accepted angle ha
    simp only [planOf, hr, Except.map] at hp
    cases hp
    refine rotatePlanePlan_sound p r d (hs (.src0, d) (by simp [slotTable])) ?_
    rw [hrot]
    exact hs (.dst0, turned angle d) (by simp [slotTable])
  | layout dst src angle =>
    cases hp
    exact empty_sound
  | imageCopy tight dst src angle =>
    cases hp
    have hin := sourcePlanes_inside p d (hs (.src0, d) (by simp [slotTable]))
      (hs (.src1, d.chroma) (by simp [slotTable])) (hs (.src2, d.chroma) (by simp [slotTable]))
    refine imageCopyPlan_sound p tight d hin (i420Planes_inside p tight d ?_ ht)
    rintro rfl
    exact ⟨hs (.dst0, d) (by simp [slotTable]), hs (.dst1, d.chroma) (by simp [slotTable]),
      hs (.dst2, d.chroma) (by simp [slotTable])⟩
  | convertNv12 tight dst src angle =>
    cases hp
    have hin := sourcePlanes_inside p d (hs (.src0, d) (by simp [slotTable]))
      (hs (.src1, d.chroma) (by simp [slotTable])) (hs (.src2, d.chroma) (by simp [slotTable]))
    refine convertNv12Plan_sound p tight d hin (nv12Planes_inside p tight d ?_ ht)
    rintro rfl
    exact ⟨hs (.dst0, d) (by simp [slotTable]),
      hs (.dst1, { w := 2 * d.chroma.w, h := d.chroma.h }) (by simp [slotTable])⟩
  | rotate tight dst src angle =>
    obtain ⟨r, hr, hrot⟩ := rotationOf_accepted angle ha
    simp only [planOf, hr, Except.map] at hp
    cases hp
    have hin := sourcePlanes_inside p d (hs (.src0, d) (by simp [slotTable]))
      (hs (.src1, d.chroma) (by simp [slotTable])) (hs (.src2, d.chroma) (by simp [slotTable]))
    refine rotatePlan_sound p tight r d hin (i420Planes_inside p tight (d.rotated r) ?_ ?_)
    · rintro rfl
      rw [hrot]
      exact ⟨hs (.dst0, turned angle d) (by simp [slotTable]),
        hs (.dst1, (turned angle d).chroma) (by simp [slotTable]),
        hs (.dst2, (turned angle d).chroma) (by simp [slotTable])⟩
    · intro h
      rw [hrot]
      exact ht h

/-- Every plan a command executes is sound. -/
theorem workOf_sound (i : Instr) (p : Params) (plan : Plan) (h : (workOf i p).plan = .ok plan) :
    plan.Sound := by
  rcases workOf_cases i p with ⟨-, hw⟩ | ⟨-, -, hw⟩ | ⟨-, -, -, hw⟩ | ⟨-, -, d, n, -, hw⟩ |
    ⟨-, ha, d, -, hb, hw⟩
  all_goals rw [hw] at h
  · cases h
  · cases h
  · cases h
  · cases h
  · exact planOf_sound i p d plan ha hb h

/-! ### What the moves do to each plane -/

/-- After the moves of `CopyView`, the destination plane holds the source plane. -/
theorem planeMoved_copy (plan : Plan) (h : plan.Sound) (hs : Separated plan) (m : Memory)
    (hm : m.Pairwise fun c d => c.1 < d.1) (s d : View)
    (hsub : ∀ mv ∈ copyMoves s d, mv ∈ plan.moves) :
    PlaneMoved m (m.runMoves plan.moves) s d fun x y => (x, y) := fun x y hx hy =>
  read_runMoves_plan plan h hs m hm _
    (hsub _ ((mem_copyMoves s d _).mpr ⟨x, y, hx, hy, rfl⟩))

theorem planeMoved_rotate (plan : Plan) (h : plan.Sound) (hs : Separated plan) (m : Memory)
    (hm : m.Pairwise fun c d => c.1 < d.1) (r : Rotation) (s d : View)
    (hsub : ∀ mv ∈ rotateMoves r s d, mv ∈ plan.moves) :
    PlaneMoved m (m.runMoves plan.moves) s d (rotationSource r s.width s.height) :=
  fun x y hx hy => read_runMoves_plan plan h hs m hm _
    (hsub _ ((mem_rotateMoves r s d _).mpr ⟨x, y, hx, hy, rfl⟩))

theorem pairsMoved_interleave (plan : Plan) (h : plan.Sound) (hs : Separated plan) (m : Memory)
    (hm : m.Pairwise fun c d => c.1 < d.1) (u v d : View)
    (hsub : ∀ mv ∈ interleaveMoves u v d, mv ∈ plan.moves) :
    PairsMoved m (m.runMoves plan.moves) u v d := fun col row hc hr =>
  ⟨read_runMoves_plan plan h hs m hm _
      (hsub _ ((mem_interleaveMoves u v d _).mpr ⟨col, row, hc, hr, .inl rfl⟩)),
    read_runMoves_plan plan h hs m hm _
      (hsub _ ((mem_interleaveMoves u v d _).mpr ⟨col, row, hc, hr, .inr rfl⟩))⟩

end Sys2Proof.Machine
end

