-- ==== Sys2Proof/Laws/Exec.lean ====
section
/-! SUPPORT. Everything `exec` can do, said once, and what its outcomes tell about the checks. -/

namespace Sys2Proof.Machine

open Sys2Proof Sys2Proof.Safety

/-- The state behind a command's layout step (R162 step 4). -/
abbrev State.laidOut (s : State) (i : Instr) : State :=
  { s with regs := s.regs.layoutStep (workOf i s.params).layout }

/-- Everything executing a command can do: raise its first error, refuse device buffers, end without
error, or end with a bus fault. -/
theorem exec_cases (i : Instr) (s : State) :
    (∃ e, (workOf i s.params).plan = .error e ∧ exec i s = .next ((s.laidOut i).raise e)) ∨
    (∃ plan, (workOf i s.params).plan = .ok plan ∧ plan.Sound ∧
      ((s.platform.forbids plan = true ∧ exec i s = .refused .deviceBuffer) ∨
       (s.platform.forbids plan = false ∧ s.faultedAccesses plan = [] ∧
         exec i s = .next ((s.laidOut i).moved plan)) ∨
       (s.platform.forbids plan = false ∧ s.faultedAccesses plan ≠ [] ∧
         exec i s = .next ((s.laidOut i).busError plan
           (reportedFault s.draws (s.faultedAccesses plan)))))) := by
  rw [exec_eq_runWork]
  cases h : (workOf i s.params).plan with
  | error e => exact .inl ⟨e, rfl, runWork_error _ _ _ h⟩
  | ok plan =>
    refine .inr ⟨plan, rfl, workOf_sound _ _ _ h, ?_⟩
    rw [runWork_ok _ _ _ h]
    exact runPlan_cases (s.laidOut i) plan

/-- A command with an accepted angle has a plan. -/
theorem planOf_isOk (i : Instr) (p : Params) (d : Dims) (ha : angleAccepted i = true) :
    ∃ plan, planOf i p d = .ok plan := by
  cases i <;> try exact ⟨_, rfl⟩
  all_goals
    obtain ⟨r, hr, -⟩ := rotationOf_accepted _ ha
    simp only [planOf, hr, Except.map]
    exact ⟨_, rfl⟩

/-- What an error of a command's checks tells (R183). -/
theorem workOf_error (i : Instr) (p : Params) (e : CommandError)
    (h : (workOf i p).plan = .error e) :
    (formatsAccepted i = false ∧ e = .unsupportedFormat ∧ (workOf i p).layout = none) ∨
    (formatsAccepted i = true ∧ angleAccepted i = false ∧ e = .unsupportedAngle ∧
      (workOf i p).layout = none) ∨
    (formatsAccepted i = true ∧ angleAccepted i = true ∧ BadDims p ∧ e = .invalidDimensions ∧
      (workOf i p).layout = none) ∨
    (formatsAccepted i = true ∧ angleAccepted i = true ∧ ∃ d n, HasDims p d ∧
      e = .bufferTooSmall n ∧ (workOf i p).layout = layoutWritten i d) := by
  rcases workOf_cases i p with ⟨h1, hw⟩ | ⟨h1, h2, hw⟩ | ⟨h1, h2, h3, hw⟩ |
    ⟨h1, h2, d, n, h3, hw⟩ | ⟨h1, ha, d, hd, hb, hw⟩
  all_goals rw [hw] at h
  · cases h; exact .inl ⟨h1, rfl, by rw [hw]⟩
  · cases h; exact .inr (.inl ⟨h1, h2, rfl, by rw [hw]⟩)
  · cases h; exact .inr (.inr (.inl ⟨h1, h2, h3, rfl, by rw [hw]⟩))
  · cases h; exact .inr (.inr (.inr ⟨h1, h2, d, n, h3, rfl, by rw [hw]⟩))
  · obtain ⟨plan, hp⟩ := planOf_isOk i p d ha
    rw [hp] at h
    cases h

/-- The layout a command writes, if it gets that far. -/
theorem workOf_layout (i : Instr) (p : Params) :
    (workOf i p).layout = none ∨
      ∃ d, HasDims p d ∧ (workOf i p).layout = layoutWritten i d := by
  rcases workOf_cases i p with ⟨-, hw⟩ | ⟨-, -, hw⟩ | ⟨-, -, -, hw⟩ | ⟨-, -, d, n, hd, hw⟩ |
    ⟨-, -, d, hd, -, hw⟩
  all_goals rw [hw]
  · exact .inl rfl
  · exact .inl rfl
  · exact .inl rfl
  · exact .inr ⟨d, hd, rfl⟩
  · exact .inr ⟨d, hd, rfl⟩

/-- A plan is the plan of the command's dimensions. -/
theorem planOf_of_ok (i : Instr) (p : Params) (d : Dims) (plan : Plan) (hd : HasDims p d)
    (h : (workOf i p).plan = .ok plan) : planOf i p d = .ok plan := by
  rcases workOf_cases i p with ⟨-, hw⟩ | ⟨-, -, hw⟩ | ⟨-, -, -, hw⟩ | ⟨-, -, d', n, -, hw⟩ |
    ⟨-, -, d', hd', -, hw⟩
  all_goals rw [hw] at h
  · cases h
  · cases h
  · cases h
  · cases h
  · rw [hasDims_unique p d d' hd hd']
    exact h

/-- A command whose checks raise `e`. -/
theorem exec_error (i : Instr) (s : State) (l : Option TightLayout) (e : CommandError)
    (h : workOf i s.params = { layout := l, plan := .error e }) :
    exec i s = .next (State.raise { s with regs := s.regs.layoutStep l } e) := by
  rw [exec_eq_runWork, h, runWork_error _ _ e rfl]

/-- A command that ends without error has done its plan. -/
theorem exec_ok (i : Instr) (s t : State) (h : exec i s = .next t) (he : t.regs.err = .none) :
    ∃ plan, (workOf i s.params).plan = .ok plan ∧ plan.Sound ∧
      t = (s.laidOut i).moved plan := by
  rcases exec_cases i s with ⟨e, hw, hx⟩ | ⟨plan, hp, hs, ⟨-, hx⟩ | ⟨-, -, hx⟩ | ⟨-, -, hx⟩⟩
  all_goals rw [hx] at h
  all_goals cases h
  · cases e <;> simp [raise_regs, CommandError.errCode] at he
  · exact ⟨plan, hp, hs, rfl⟩
  · simp at he

@[simp] theorem laidOut_interfered (s : State) (i : Instr) :
    (s.laidOut i).interfered = s.interfered := rfl

/-- What the memory result of a plan is, and when it is which. -/
theorem movedMemory_cases (s : State) (plan : Plan) :
    (Separated plan ∧ s.interfered = false ∧ s.movedMemory plan = s.mem.runMoves plan.moves) ∨
    ((¬ Separated plan ∨ s.interfered = true) ∧
      s.movedMemory plan = s.mem.unspecify s.draws plan.writeFootprint) := by
  unfold State.movedMemory
  by_cases hs : Separated plan
  · rw [(separated_iff plan).mpr hs]
    cases hi : s.interfered
    · exact .inl ⟨hs, rfl, rfl⟩
    · exact .inr ⟨.inr rfl, rfl⟩
  · have hf : plan.separated = false := by
      rw [← Bool.not_eq_true, separated_iff]
      exact hs
    rw [hf]
    exact .inr ⟨.inl hs, rfl⟩

end Sys2Proof.Machine
end

