-- ==== Sys2Proof/Laws/PerInstr.lean ====
section
/-! SUPPORT. The family of statements made per command: its word has the fields its row of
opcode_table.json fixes. -/

namespace Sys2Proof.Laws.LegalWord

open Sys2Proof

/-- The OP of a command (R92). -/
def op : Instr → Nat
  | .copyPlane _ _ _ => 1
  | .interleaveUv _ _ _ => 2
  | .rotatePlane _ _ _ => 3
  | .layout _ _ _ => 4
  | .imageCopy _ _ _ _ => 5
  | .convertNv12 _ _ _ _ => 6
  | .rotate _ _ _ _ => 7

/-- Whether the command can have TIGHT = 1 (R93). -/
def hasTight : Instr → Bool
  | .copyPlane _ _ _ => false
  | .interleaveUv _ _ _ => false
  | .rotatePlane _ _ _ => false
  | .layout _ _ _ => false
  | .imageCopy _ _ _ _ => true
  | .convertNv12 _ _ _ _ => true
  | .rotate _ _ _ _ => true

/-- The word of a well-formed command has its OP, no reserved bit, and TIGHT = 0 where the command has
no tight mode (R91, R92, R98). -/
def Statement (i : Instr) : Prop :=
  i.wellFormed = true →
    bits 3 0 (encodeWord i) = op i ∧ bits 7 5 (encodeWord i) = 0 ∧
    bits 11 10 (encodeWord i) = 0 ∧ bits 15 14 (encodeWord i) = 0 ∧
    (hasTight i = false → bits 4 4 (encodeWord i) = 0)

theorem of_commandWord (o : Nat) (tight : Bool) (dst src : FmtTag) (angle : Nat) (ho : o < 16)
    (ha : angleFits angle = true) (may : Bool) (hm : may = false → tight = false) :
    bits 3 0 (commandWord o tight dst src angle) = o ∧
    bits 7 5 (commandWord o tight dst src angle) = 0 ∧
    bits 11 10 (commandWord o tight dst src angle) = 0 ∧
    bits 15 14 (commandWord o tight dst src angle) = 0 ∧
    (may = false → bits 4 4 (commandWord o tight dst src angle) = 0) := by
  obtain ⟨h1, h2, h3, -, h5, -, h7, -⟩ :=
    bits_commandWord o tight dst src angle ho (of_decide_eq_true ha)
  exact ⟨h1, h3, h5, h7, fun h => by rw [h2, hm h]; rfl⟩

theorem copyPlane (dst src : FmtTag) (angle : Nat) : Statement (.copyPlane dst src angle) :=
  fun h => of_commandWord 1 false dst src angle (by decide) h false fun _ => rfl

theorem interleaveUv (dst src : FmtTag) (angle : Nat) : Statement (.interleaveUv dst src angle) :=
  fun h => of_commandWord 2 false dst src angle (by decide) h false fun _ => rfl

theorem rotatePlane (dst src : FmtTag) (angle : Nat) : Statement (.rotatePlane dst src angle) :=
  fun h => of_commandWord 3 false dst src angle (by decide) h false fun _ => rfl

theorem layout (dst src : FmtTag) (angle : Nat) : Statement (.layout dst src angle) :=
  fun h => of_commandWord 4 false dst src angle (by decide) h false fun _ => rfl

theorem imageCopy (tight : Bool) (dst src : FmtTag) (angle : Nat) :
    Statement (.imageCopy tight dst src angle) :=
  fun h => of_commandWord 5 tight dst src angle (by decide) h true fun h => Bool.noConfusion h

theorem convertNv12 (tight : Bool) (dst src : FmtTag) (angle : Nat) :
    Statement (.convertNv12 tight dst src angle) :=
  fun h => of_commandWord 6 tight dst src angle (by decide) h true fun h => Bool.noConfusion h

theorem rotate (tight : Bool) (dst src : FmtTag) (angle : Nat) :
    Statement (.rotate tight dst src angle) :=
  fun h => of_commandWord 7 tight dst src angle (by decide) h true fun h => Bool.noConfusion h

end Sys2Proof.Laws.LegalWord
end

