-- ==== Sys2Proof/Machine/HostProgram.lean ====
section
/-! DEFINITION. What a host writes: the command syntax and its encoding (R100), register accesses and
the pseudo-instructions of host programs as events (R101, R102). `step` uses none of it. -/

namespace Sys2Proof.Machine

open Sys2Proof

/-! ### Commands as a host spells them (R100) -/

/-- The mnemonics of R92. -/
inductive Mnemonic where
  | copyPlane
  | interleaveUv
  | rotatePlane
  | layout
  | imageCopy
  | convertNv12
  | rotate
deriving DecidableEq, Repr

/-- `MNEMONIC[.T] [angle=N] [dst=FMT] [src=FMT]`; `none` is an absent operand. -/
structure Spelling where
  mnemonic : Mnemonic
  tight : Bool
  angle : Option Nat
  dst : Option FmtTag
  src : Option FmtTag
deriving DecidableEq, Repr

/-- The OP value of a mnemonic (R92). -/
def Mnemonic.op : Mnemonic → Nat
  | .copyPlane => 1
  | .interleaveUv => 2
  | .rotatePlane => 3
  | .layout => 4
  | .imageCopy => 5
  | .convertNv12 => 6
  | .rotate => 7

/-- What an absent `dst=` means: I420, but NV12 for `CONVERT_NV12.T` (R100). -/
def Spelling.defaultDst (c : Spelling) : FmtTag :=
  if c.mnemonic = .convertNv12 ∧ c.tight = true then .nv12 else .i420

/-- The CMD word of a spelling, `none` where the angle is above 65535 (R100). -/
def Spelling.word (c : Spelling) : Option Word :=
  if c.angle.getD 0 ≤ 65535 then
    some (commandWord c.mnemonic.op c.tight (c.dst.getD c.defaultDst) (c.src.getD .i420)
      (c.angle.getD 0))
  else none

/-! ### Register accesses and pseudo-instructions (R101, R102) -/

/-- The offset of each register (R21). -/
def Reg.offset : Reg → Nat
  | .id => 0x00
  | .ctrl => 0x04
  | .status => 0x08
  | .errAddr => 0x0C
  | .cmd => 0x10
  | .width => 0x14
  | .height => 0x18
  | .slotAddr n => 0x20 + 0x10 * n.number
  | .slotLen n => 0x24 + 0x10 * n.number
  | .slotStride n => 0x28 + 0x10 * n.number
  | .lCw => 0x80
  | .lCh => 0x84
  | .lOutW => 0x88
  | .lOutH => 0x8C
  | .lYOff => 0x90
  | .lYStride => 0x94
  | .lUOff => 0x98
  | .lUStride => 0x9C
  | .lVOff => 0xA0
  | .lVStride => 0xA4
  | .lTotal => 0xA8

/-- `WR REG, v`. -/
def wr (r : Reg) (v : Word) : Event := .regWrite r.offset 4 v

/-- `RD REG`. -/
def rd (r : Reg) : Event := .regRead r.offset 4

/-- `SLOT name, a, l, s`. -/
def slotWrites (n : SlotId) (addr len stride : Word) : List Event :=
  [wr (.slotAddr n) addr, wr (.slotLen n) len, wr (.slotStride n) stride]

/-- `GEOM w, h`. -/
def geomWrites (w h : Word) : List Event := [wr .width w, wr .height h]

/-- `RUN command`: CMD, START with IRQ_EN 0, and the poll of STATUS.DONE. The engine's turn ends the
command (log 4), so the read behind it is the one that sees DONE = 1. -/
def runEvents (cmd : Word) : List Event := [wr .cmd cmd, wr .ctrl 1, .engineTurn, rd .status]

/-- `RUNI command`: CMD, START with IRQ_EN 1, and the wait for `irq` (log 4). -/
def runIrqEvents (cmd : Word) : List Event := [wr .cmd cmd, wr .ctrl 3, .engineTurn, .irqRead]

/-- `CLRDONE`. -/
def clearDone : List Event := [wr .status 2]

/-- `SRST`. -/
def softReset : List Event := [wr .ctrl 4]

end Sys2Proof.Machine
end

