-- ==== Sys2Proof/Laws/Port.lean ====
section
/-! SUPPORT. What each action of a host can do to the state, said once: register reads and writes, reset,
memory accesses and cache maintenance. -/

namespace Sys2Proof.Machine

open Sys2Proof Sys2Proof.Safety

/-! ### Reset -/

/-- Everything a reset can do. -/
theorem resetBlock_cases (s : State) :
    (s.runningPlan = none ∧
      s.resetBlock = .next { s with regs := Registers.reset, engine := .idle, unseen := [] }) ∨
    ∃ plan, s.runningPlan = some plan ∧
      ((s.platform.forbids plan = true ∧ s.resetBlock = .refused .deviceBuffer) ∨
       (s.platform.forbids plan = false ∧ s.resetBlock = .next
        { s with
          regs := Registers.reset, engine := .idle, unseen := [],
          mem := s.mem.unspecify s.draws plan.writeFootprint,
          stale := s.engineWrote plan.writeFootprint, draws := s.draws + 1 })) := by
  unfold State.resetBlock
  cases hp : s.runningPlan with
  | none => exact .inl ⟨rfl, rfl⟩
  | some plan =>
    refine .inr ⟨plan, rfl, ?_⟩
    cases hf : s.platform.forbids plan
    · exact .inr ⟨rfl, by simp [hf]⟩
    · exact .inl ⟨rfl, by simp [hf]⟩

theorem resetBlock_next (s t : State) (h : s.resetBlock = .next t) :
    t.regs = Registers.reset ∧ t.engine = .idle ∧ t.unseen = [] ∧ t.inbox = s.inbox := by
  rcases resetBlock_cases s with ⟨-, hx⟩ | ⟨plan, -, ⟨-, hx⟩ | ⟨-, hx⟩⟩
  all_goals rw [hx] at h
  all_goals cases h
  · exact ⟨rfl, rfl, rfl, rfl⟩
  · exact ⟨rfl, rfl, rfl, rfl⟩

/-- The plan of a running command is sound. -/
theorem runningPlan_sound (s : State) (plan : Plan) (h : s.runningPlan = some plan) :
    plan.Sound := by
  unfold State.runningPlan at h
  split at h
  · next latched f he =>
    unfold Params.plan at h
    split at h
    · next q hq =>
      cases h
      unfold Params.work at hq
      split at hq
      · exact workOf_sound _ _ _ hq
      · cases hq
    · cases h
  · cases h

theorem engine_of_busy_false (s : State) (h : s.busy = false) : s.engine = .idle := by
  unfold State.busy at h
  split at h
  · cases h
  · assumption

theorem busy_of_idle (s : State) (h : s.engine = .idle) : s.busy = false := by
  unfold State.busy
  rw [h]

/-! ### The register map -/

theorem regTable_offset : ∀ e ∈ regTable, e.1 = e.2.offset := by decide

/-- An offset that holds a register is that register's offset. -/
theorem regAt_some (o : Nat) (r : Reg) (h : regAt o = some r) : o = r.offset := by
  unfold regAt at h
  obtain ⟨e, he, rfl⟩ := Option.map_eq_some_iff.mp h
  have h1 := List.find?_some he
  rw [← regTable_offset e (List.mem_of_find?_eq_some he)]
  exact (beq_iff_eq.mp h1).symm

/-- Every register is found at its offset. -/
theorem regAt_offset (r : Reg) : regAt r.offset = some r := by
  cases r <;> try rfl
  all_goals (rename_i n; cases n <;> rfl)

/-! ### Register writes -/

theorem writeOperand_idle (s : State) (r : Registers) (h : s.busy = false) :
    s.writeOperand r = { s with regs := r } := by
  unfold State.writeOperand
  rw [h]
  rfl

theorem writeOperand_busy (s : State) (r : Registers) (h : s.busy = true) :
    s.writeOperand r = s := by
  unfold State.writeOperand
  rw [h]
  rfl

/-- Everything a write of CTRL can do. -/
theorem writeCtrl_cases (s : State) (v : Word) :
    (bits 2 2 v = 1 ∧ s.writeCtrl v = s.resetBlock) ∨
    (bits 2 2 v ≠ 1 ∧ bits 0 0 v = 1 ∧ s.busy = false ∧ s.writeCtrl v =
      .next (State.start { s with regs := { s.regs with irqEn := bits 1 1 v == 1 } })) ∨
    (bits 2 2 v ≠ 1 ∧ ¬ (bits 0 0 v = 1 ∧ s.busy = false) ∧ s.writeCtrl v =
      .next { s with regs := { s.regs with irqEn := bits 1 1 v == 1 } }) := by
  unfold State.writeCtrl
  by_cases h2 : bits 2 2 v = 1
  · exact .inl ⟨h2, if_pos h2⟩
  · by_cases h0 : bits 0 0 v = 1 ∧ s.busy = false
    · exact .inr (.inl ⟨h2, h0.1, h0.2, by rw [if_neg h2]; exact if_pos h0⟩)
    · exact .inr (.inr ⟨h2, h0, by rw [if_neg h2]; exact if_neg h0⟩)

/-- Everything a register write that is not refused can do: nothing, a write of CTRL, a write of
STATUS, or new operand registers of an IDLE block. -/
theorem regWrite_cases (s t : State) (o b : Nat) (v : Word) (h : s.regWrite o b v = .next t) :
    t = s ∨ (regAt o = some .ctrl ∧ s.writeCtrl v = .next t) ∨
    (regAt o = some .status ∧ t = s.writeStatus v) ∨
    (s.busy = false ∧ ∃ cmd width height slots, t =
      { s with regs := { s.regs with cmd := cmd, width := width, height := height,
                                     slots := slots } }) := by
  unfold State.regWrite at h
  split at h
  · split at h
    · next r hr =>
      cases r <;> simp only [State.writeReg] at h
      case ctrl => exact .inr (.inl ⟨hr, h⟩)
      case status => cases h; exact .inr (.inr (.inl ⟨hr, rfl⟩))
      all_goals
        cases h
        first
        | exact .inl rfl
        | (cases hb : s.busy
           · rw [writeOperand_idle s _ hb]
             exact .inr (.inr (.inr ⟨rfl, _, _, _, _, rfl⟩))
           · rw [writeOperand_busy s _ hb]
             exact .inl rfl)
    · cases h; exact .inl rfl
  · cases h

/-! ### Register reads -/

/-- STATUS shows the stored LAYOUT_OVF unless the running command is about to set it. -/
theorem readLayoutOvf_eq (s : State) (h : ∀ l, s.pendingLayout = some l → l.total < 2 ^ 32) :
    s.readLayoutOvf = s.regs.layoutOvf := by
  unfold State.readLayoutOvf
  cases hp : s.pendingLayout with
  | none => simp
  | some l =>
    have ho : l.overflows = false := decide_eq_false (by have := h l hp; omega)
    simp [ho]

/-- STATUS shows LAYOUT_OVF set where it is stored set. -/
theorem readLayoutOvf_of_set (s : State) (h : s.regs.layoutOvf = true) :
    s.readLayoutOvf = true := by
  simp [State.readLayoutOvf, h]

/-- STATUS shows LAYOUT_OVF set only where it is stored set or the running command sets it. -/
theorem readLayoutOvf_true (s : State) (h : s.readLayoutOvf = true) :
    s.regs.layoutOvf = true ∨ ∃ l, s.pendingLayout = some l ∧ l.total ≥ 2 ^ 32 := by
  unfold State.readLayoutOvf at h
  rcases Bool.or_eq_true _ _ ▸ h with h | h
  · exact .inl h
  · split at h
    · cases h
    · next l hl =>
      simp only [Bool.and_eq_true] at h
      exact .inr ⟨l, hl, of_decide_eq_true h.1⟩

/-- A read changes no register but, of STATUS, LAYOUT_OVF. -/
theorem regsAfterRead_cases (s : State) (o : Nat) :
    (o = 0x08 ∧ s.regsAfterRead o = { s.regs with layoutOvf := s.readLayoutOvf }) ∨
    (o ≠ 0x08 ∧ s.regsAfterRead o = s.regs) := by
  unfold State.regsAfterRead
  split
  · exact .inl ⟨‹_›, rfl⟩
  · exact .inr ⟨‹_›, rfl⟩

/-- A read changes no register where no command is about to set LAYOUT_OVF. -/
theorem regsAfterRead_eq (s : State) (o : Nat)
    (h : ∀ l, s.pendingLayout = some l → l.total < 2 ^ 32) : s.regsAfterRead o = s.regs := by
  rcases regsAfterRead_cases s o with ⟨-, hx⟩ | ⟨-, hx⟩
  · rw [hx, readLayoutOvf_eq s h]
  · exact hx

/-- An IDLE block has no layout pending. -/
theorem pendingLayout_idle (s : State) (h : s.engine = .idle) : s.pendingLayout = none := by
  unfold State.pendingLayout
  rw [h]

theorem errCode_lt (e : ErrCode) : e.code < 7 := by cases e <;> decide

/-- The fields of the STATUS word (R27). -/
theorem bits_statusWord (busy done ovf : Bool) (err : ErrCode) (slot : BitVec 3) :
    bits 0 0 (statusWord busy done ovf err slot) = busy.toNat ∧
    bits 1 1 (statusWord busy done ovf err slot) = done.toNat ∧
    bits 2 2 (statusWord busy done ovf err slot) = ovf.toNat ∧
    bits 3 3 (statusWord busy done ovf err slot) = 0 ∧
    bits 7 4 (statusWord busy done ovf err slot) = err.code ∧
    bits 10 8 (statusWord busy done ovf err slot) = slot.toNat ∧
    bits 31 11 (statusWord busy done ovf err slot) = 0 := by
  have he := errCode_lt err
  have hs := slot.isLt
  have h1 := Bool.toNat_lt busy
  have h2 := Bool.toNat_lt done
  have h3 := Bool.toNat_lt ovf
  unfold statusWord bits
  simp only [BitVec.toNat_ofNat]
  refine ⟨?_, ?_, ?_, ?_, ?_, ?_, ?_⟩ <;> omega

/-! ### Host memory accesses -/

theorem memAccess_next (s t u : State) (addr : Word) (h : s.memAccess addr t = .next u) : u = t := by
  unfold State.memAccess at h
  split at h
  · cases h
  · split at h <;> cases h
    rfl

theorem memAccess_ok (s t : State) (addr : Word) (h : HostAddress s addr) :
    s.memAccess addr t = .next t := by
  unfold State.memAccess
  rw [h.1, if_neg (by simp), if_neg (by simpa using h.2)]

theorem hostWrite_next (s t : State) (addr : Word) (v : Byte) (h : s.hostWrite addr v = .next t) :
    t = s.ordinaryWrite (uint32 addr) v := memAccess_next _ _ _ _ h

theorem hostRead_next (s t : State) (addr : Word) (h : s.hostRead addr = .next t) :
    t = s.afterRead (s.ordinaryRead (uint32 addr)) := memAccess_next _ _ _ _ h

theorem busWrite_next (s t : State) (addr : Word) (v : Byte) (h : s.busWrite addr v = .next t) :
    t = s.masterWrite (uint32 addr) v := memAccess_next _ _ _ _ h

theorem busRead_next (s t : State) (addr : Word) (h : s.busRead addr = .next t) :
    t = s.afterRead (s.masterRead (uint32 addr)) := memAccess_next _ _ _ _ h

theorem hostWrite_ok (s : State) (addr : Word) (v : Byte) (h : HostAddress s addr) :
    s.hostWrite addr v = .next (s.ordinaryWrite (uint32 addr) v) := memAccess_ok _ _ _ h

theorem hostRead_ok (s : State) (addr : Word) (h : HostAddress s addr) :
    s.hostRead addr = .next (s.afterRead (s.ordinaryRead (uint32 addr))) := memAccess_ok _ _ _ h

theorem busWrite_ok (s : State) (addr : Word) (v : Byte) (h : HostAddress s addr) :
    s.busWrite addr v = .next (s.masterWrite (uint32 addr) v) := memAccess_ok _ _ _ h

theorem busRead_ok (s : State) (addr : Word) (h : HostAddress s addr) :
    s.busRead addr = .next (s.afterRead (s.masterRead (uint32 addr))) := memAccess_ok _ _ _ h

/-- An address outside the buffers of R77. -/
theorem contested_false (s : State) (a : Nat) :
    s.contested a = false ↔ s.runningTouches a = false ∧ ∀ p ∈ s.unseen, p.touches a = false := by
  simp [State.contested, State.unseenAt]

/-- The running command's write footprint has no byte in the region. -/
theorem runningWritesIn_false (s : State) (r : Region) :
    s.runningWritesIn r = false ↔ ∀ b, r.contains b = true → s.runningWrites b = false := by
  unfold State.runningWritesIn State.runningWrites
  cases s.runningPlan with
  | none => simp
  | some plan =>
    simp only [List.any_eq_false, Bool.not_eq_true]
    constructor
    · intro h b hb
      rw [Bool.eq_false_iff, ne_eq, List.contains_iff_mem]
      intro hm
      rw [h b hm] at hb
      cases hb
    · intro h b hm
      rw [Bool.eq_false_iff]
      intro hb
      have := h b hb
      rw [Bool.eq_false_iff, ne_eq, List.contains_iff_mem] at this
      exact this hm

/-- Everything a byte written by another agent than the engine can do. -/
theorem storeByte_cases (s : State) (a : Nat) (v : Byte) :
    (s.contested a = false ∧ s.storeByte a v = { s with mem := s.mem.write a v }) ∨
    (s.contested a = true ∧ s.storeByte a v =
      { s with
        engine := if s.runningTouches a then s.engine.disturbed else s.engine,
        mem := Memory.unspecify s.draws ((s.unseenAt a).flatMap Plan.writeFootprint)
          (if Config.hostWriteSurvives s.draws then s.mem.write a v else s.mem),
        draws := s.draws + 1 }) := by
  unfold State.storeByte
  cases s.contested a
  · exact .inl ⟨rfl, rfl⟩
  · exact .inr ⟨rfl, rfl⟩

/-- A byte written by another agent leaves alone what is not the command's, memory's or a draw. -/
theorem storeByte_frame (s : State) (a : Nat) (v : Byte) :
    (s.storeByte a v).regs = s.regs ∧ (s.storeByte a v).platform = s.platform ∧
    (s.storeByte a v).busFaults = s.busFaults ∧ (s.storeByte a v).uncleaned = s.uncleaned ∧
    (s.storeByte a v).stale = s.stale ∧ (s.storeByte a v).unseen = s.unseen ∧
    (s.storeByte a v).inbox = s.inbox ∧ (s.storeByte a v).readData = s.readData := by
  rcases storeByte_cases s a v with ⟨-, h⟩ | ⟨-, h⟩ <;> rw [h] <;> simp

/-- Everything a host's memory write does beside the byte. -/
theorem ordinaryWrite_eq (s : State) (a : Nat) (v : Byte) :
    s.ordinaryWrite a v =
      { s.storeByte a v with
        uncleaned := if s.platform.coherent then s.uncleaned else a :: s.uncleaned,
        stale := if s.platform.coherent ∨ s.contested a then s.stale
          else s.stale.filter (· ≠ a) } := by
  unfold State.ordinaryWrite
  obtain ⟨-, -, -, hu, hs, -⟩ := storeByte_frame s a v
  cases hc : s.platform.coherent
  · simp
  · rw [if_pos rfl, if_pos rfl, if_pos (.inl rfl)]
    conv_rhs => rw [← hu, ← hs]

theorem unseenWrites_iff (s : State) (a : Nat) :
    s.unseenWrites a = true ↔ ∃ p ∈ s.unseen, a ∈ p.writeFootprint := by
  simp [State.unseenWrites]

/-- What a host's memory read returns. -/
theorem ordinaryRead_cases (s : State) (a : Nat) :
    ((s.runningWrites a = true ∨ (∃ p ∈ s.unseen, a ∈ p.writeFootprint) ∨
        (s.platform.coherent = false ∧ a ∈ s.stale)) ∧
      s.ordinaryRead a = Config.unspecifiedByte s.draws a) ∨
    (s.runningWrites a = false ∧ (∀ p ∈ s.unseen, a ∉ p.writeFootprint) ∧
      (s.platform.coherent = false → a ∉ s.stale) ∧ s.ordinaryRead a = s.mem.read a) := by
  unfold State.ordinaryRead
  by_cases h : (s.runningWrites a || s.unseenWrites a ||
      (!s.platform.coherent && s.stale.contains a)) = true
  · refine .inl ⟨?_, if_pos h⟩
    simp only [Bool.or_eq_true, unseenWrites_iff, List.contains_iff_mem, Bool.and_eq_true,
      Bool.not_eq_true'] at h
    rcases h with (h | h) | h
    · exact .inl h
    · exact .inr (.inl h)
    · exact .inr (.inr h)
  · refine .inr ⟨?_, ?_, ?_, if_neg h⟩
    all_goals
      simp only [Bool.or_eq_true, unseenWrites_iff, List.contains_iff_mem, Bool.and_eq_true,
        Bool.not_eq_true', not_or, not_exists, not_and] at h
    · exact Bool.eq_false_iff.mpr h.1.1
    · exact h.1.2
    · exact h.2

/-- What another bus master's memory read returns. -/
theorem masterRead_cases (s : State) (a : Nat) :
    ((s.runningWrites a = true ∨ (∃ p ∈ s.unseen, a ∈ p.writeFootprint) ∨
        (s.platform.coherent = false ∧ a ∈ s.uncleaned)) ∧
      s.masterRead a = Config.unspecifiedByte s.draws a) ∨
    (s.runningWrites a = false ∧ (∀ p ∈ s.unseen, a ∉ p.writeFootprint) ∧
      (s.platform.coherent = false → a ∉ s.uncleaned) ∧ s.masterRead a = s.mem.read a) :=
  ordinaryRead_cases { s with stale := s.uncleaned } a

/-- A byte outside a command's buffers is outside its write footprint. -/
theorem not_mem_of_not_touches (p : Plan) (a : Nat) (h : p.touches a = false) :
    a ∉ p.writeFootprint := by
  unfold Plan.touches at h
  simp only [Bool.or_eq_false_iff] at h
  simpa using h.2

/-- A memory write leaves every register, the queue and the model's records of commands alone. -/
theorem ordinaryWrite_frame (s : State) (a : Nat) (v : Byte) :
    (s.ordinaryWrite a v).regs = s.regs ∧ (s.ordinaryWrite a v).platform = s.platform ∧
    (s.ordinaryWrite a v).unseen = s.unseen ∧ (s.ordinaryWrite a v).inbox = s.inbox ∧
    (s.ordinaryWrite a v).engine = (s.storeByte a v).engine ∧
    (s.ordinaryWrite a v).mem = (s.storeByte a v).mem ∧
    (s.ordinaryWrite a v).draws = (s.storeByte a v).draws := by
  rw [ordinaryWrite_eq]
  obtain ⟨h1, h2, -, -, -, h3, h4, -⟩ := storeByte_frame s a v
  exact ⟨h1, h2, h3, h4, rfl, rfl, rfl⟩

/-- Another bus master's memory write leaves the same alone, and the bytes to be cleaned. -/
theorem masterWrite_frame (s : State) (a : Nat) (v : Byte) :
    (s.masterWrite a v).regs = s.regs ∧ (s.masterWrite a v).platform = s.platform ∧
    (s.masterWrite a v).unseen = s.unseen ∧ (s.masterWrite a v).inbox = s.inbox ∧
    (s.masterWrite a v).engine = (s.storeByte a v).engine ∧
    (s.masterWrite a v).mem = (s.storeByte a v).mem ∧
    (s.masterWrite a v).draws = (s.storeByte a v).draws ∧
    (s.masterWrite a v).uncleaned = s.uncleaned ∧
    (s.masterWrite a v).stale = s.engineWrote [a] := by
  obtain ⟨h1, h2, -, hu, -, h3, h4, -⟩ := storeByte_frame s a v
  exact ⟨h1, h2, h3, h4, rfl, rfl, rfl, hu, rfl⟩

/-- A memory write keeps the canonical form. -/
theorem storeByte_wf (s : State) (a : Nat) (v : Byte) (hm : s.mem.wf) (ha : a < 2 ^ 32)
    (hu : ∀ p ∈ s.unseen, ∀ b ∈ p.writeFootprint, b < 2 ^ 32) : (s.storeByte a v).mem.wf := by
  rcases storeByte_cases s a v with ⟨-, h⟩ | ⟨-, h⟩ <;> rw [h]
  · exact write_wf _ _ _ hm ha
  · refine unspecify_wf _ _ _ ?_ fun b hb => ?_
    · split
      · exact write_wf _ _ _ hm ha
      · exact hm
    · obtain ⟨p, hp, hb⟩ := List.mem_flatMap.mp hb
      exact hu p (List.mem_filter.mp hp).1 b hb

/-! ### Cache maintenance -/

/-- Everything cleaning can do. -/
theorem cacheClean_cases (s : State) (r : Region) :
    (s.platform.coherent = true ∧ s.cacheClean r = s) ∨
    (s.platform.coherent = false ∧ s.cacheClean r =
      { s with
        engine := s.engineAfterWriteBack r,
        mem := s.mem.unspecify s.draws (s.spoiled r),
        uncleaned := s.platform.outsideLines r s.uncleaned, draws := s.draws + 1 }) := by
  unfold State.cacheClean
  cases hc : s.platform.coherent
  · exact .inr ⟨rfl, rfl⟩
  · exact .inl ⟨rfl, rfl⟩

/-- Everything invalidating can do. -/
theorem cacheInvalidate_cases (s : State) (r : Region) :
    (s.platform.coherent = true ∧ s.cacheInvalidate r = s) ∨
    (s.platform.coherent = false ∧ s.cacheInvalidate r =
      { s with
        engine := s.engineAfterWriteBack r,
        mem := s.mem.unspecify s.draws (s.spoiled r ++ s.dirtyIn r),
        uncleaned := s.platform.outsideLines r s.uncleaned,
        stale := s.stale.filter fun a => !r.meets (s.platform.line a) || s.unseenWrites a,
        draws := s.draws + 1 }) := by
  unfold State.cacheInvalidate
  cases hc : s.platform.coherent
  · exact .inr ⟨rfl, rfl⟩
  · exact .inl ⟨rfl, rfl⟩

/-- Writing lines back disturbs the running command or leaves it alone. -/
theorem engineAfterWriteBack_cases (s : State) (r : Region) :
    s.engineAfterWriteBack r = s.engine ∨ s.engineAfterWriteBack r = s.engine.disturbed := by
  unfold State.engineAfterWriteBack
  split
  · exact .inr rfl
  · exact .inl rfl

theorem spoiled_iff (s : State) (r : Region) (b : Nat) :
    b ∈ s.spoiled r ↔ b ∈ s.stale ∧ r.meets (s.platform.line b) = true ∧
      ∃ a ∈ s.uncleaned, (s.platform.line b).contains a = true := by
  simp [State.spoiled]

/-- Writing lines back leaves the running command alone where none of them holds a byte of its write
footprint and it spoils no byte of its buffers. -/
theorem engineAfterWriteBack_eq (s : State) (r : Region)
    (h1 : ∀ a ∈ s.dirtyIn r, ∀ b, (s.platform.line a).contains b = true → s.runningWrites b = false)
    (h2 : ∀ b ∈ s.spoiled r, s.runningTouches b = false) : s.engineAfterWriteBack r = s.engine := by
  unfold State.engineAfterWriteBack
  rw [if_neg]
  simp only [Bool.or_eq_true, List.any_eq_true, not_or, not_exists, not_and, Bool.not_eq_true]
  exact ⟨fun a ha => (runningWritesIn_false _ _).mpr (h1 a ha), h2⟩

theorem spoiled_stale (s : State) (r : Region) (a : Nat) (h : a ∈ s.spoiled r) : a ∈ s.stale :=
  (List.mem_filter.mp h).1

theorem cacheClean_wf (s : State) (r : Region) (hm : s.mem.wf) (hs : ∀ a ∈ s.stale, a < 2 ^ 32) :
    (s.cacheClean r).mem.wf := by
  rcases cacheClean_cases s r with ⟨-, h⟩ | ⟨-, h⟩ <;> rw [h]
  · exact hm
  · exact unspecify_wf _ _ _ hm fun a ha => hs a (spoiled_stale s r a ha)

theorem cacheInvalidate_wf (s : State) (r : Region) (hm : s.mem.wf)
    (hu : ∀ a ∈ s.uncleaned, a < 2 ^ 32) (hs : ∀ a ∈ s.stale, a < 2 ^ 32) :
    (s.cacheInvalidate r).mem.wf := by
  rcases cacheInvalidate_cases s r with ⟨-, h⟩ | ⟨-, h⟩ <;> rw [h]
  · exact hm
  · refine unspecify_wf _ _ _ hm fun a ha => ?_
    rcases List.mem_append.mp ha with ha | ha
    · exact hs a (spoiled_stale s r a ha)
    · exact hu a (List.mem_filter.mp ha).1

theorem cacheClean_regs (s : State) (r : Region) : (s.cacheClean r).regs = s.regs := by
  unfold State.cacheClean
  split <;> rfl

theorem cacheInvalidate_regs (s : State) (r : Region) : (s.cacheInvalidate r).regs = s.regs := by
  unfold State.cacheInvalidate
  split <;> rfl

/-! ### Steps -/

/-- A step at an empty queue is the engine's turn. -/
theorem step_turn (s : State) (h : s.inbox = []) : step s = s.engineTurn := by
  unfold step
  rw [h]

/-- A step at a queue handles its first event. -/
theorem step_event (s : State) (e : Event) (rest : List Event) (h : s.inbox = e :: rest) :
    step s = (s.afterEvent rest).handle e := by
  unfold step
  rw [h]

/-- No step faults (R190). -/
theorem step_next_or_refused (s : State) :
    (∃ t, step s = .next t) ∨ ∃ r, step s = .refused r := by
  cases h : step s with
  | next t => exact .inl ⟨t, rfl⟩
  | fault f => cases f
  | refused r => exact .inr ⟨r, rfl⟩

/-- Handling an event leaves the queue behind it alone. -/
theorem handle_inbox (s t : State) (e : Event) (h : s.handle e = .next t) : t.inbox = s.inbox := by
  cases e <;> simp only [State.handle] at h
  case engineTurn =>
    unfold State.engineTurn at h
    split at h
    · cases h; rfl
    · split at h
      · next i _ =>
        rcases exec_cases i s with ⟨e, -, hx⟩ | ⟨plan, -, -, ⟨-, hx⟩ | ⟨-, -, hx⟩ | ⟨-, -, hx⟩⟩
        all_goals rw [hx] at h
        all_goals cases h
        all_goals rfl
      · cases h; rfl
  case regWrite o b v =>
    rcases regWrite_cases s t o b v h with rfl | ⟨-, h⟩ | ⟨-, rfl⟩ | ⟨-, c, w, hh, sl, rfl⟩
    · rfl
    · rcases writeCtrl_cases s v with ⟨-, hx⟩ | ⟨-, -, -, hx⟩ | ⟨-, -, hx⟩
      all_goals rw [hx] at h
      · exact (resetBlock_next s t h).2.2.2
      · cases h; rfl
      · cases h; rfl
    · unfold State.writeStatus
      split <;> rfl
    · rfl
  case regRead o b =>
    unfold State.regRead at h
    split at h <;> cases h
    rfl
  case irqRead => cases h; rfl
  case memWrite a v => rw [hostWrite_next s t a v h, (ordinaryWrite_frame s _ v).2.2.2.1]
  case memRead a => rw [hostRead_next s t a h]; rfl
  case busWrite a v => rw [busWrite_next s t a v h, (masterWrite_frame s _ v).2.2.2.1]
  case busRead a => rw [busRead_next s t a h]; rfl
  case cacheClean r => cases h; unfold State.cacheClean; split <;> rfl
  case cacheInvalidate r => cases h; unfold State.cacheInvalidate; split <;> rfl
  case resetInput => exact (resetBlock_next s t h).2.2.2
  case memoryFaults => cases h; rfl

end Sys2Proof.Machine
end

