-- ==== Sys2Proof/Tests/Slice0.lean ====
section
/-! SUPPORT. The model's own tests. Expected results come from 95_test_vectors.md (V, L, P, I, R, M and G
numbers) or from the rules named. Below them, one witness for every obligation that has hypotheses. -/

namespace Sys2Proof.Tests

open Sys2Proof Sys2Proof.Machine Sys2Proof.Safety

/-! ### Well-formedness: an angle beyond 16 bits is refused, one of 16 bits is not (R95, R100) -/

theorem test_wellFormed_copyPlane :
    (Instr.copyPlane .i420 .i420 65536).wellFormed = false ∧
    (Instr.copyPlane .fmt3 .fmt2 65535).wellFormed = true := by decide

theorem test_wellFormed_interleaveUv :
    (Instr.interleaveUv .i420 .i420 65536).wellFormed = false ∧
    (Instr.interleaveUv .fmt3 .fmt2 65535).wellFormed = true := by decide

theorem test_wellFormed_rotatePlane :
    (Instr.rotatePlane .i420 .i420 65536).wellFormed = false ∧
    (Instr.rotatePlane .fmt3 .fmt2 65535).wellFormed = true := by decide

theorem test_wellFormed_layout :
    (Instr.layout .i420 .i420 65536).wellFormed = false ∧
    (Instr.layout .fmt3 .fmt2 65535).wellFormed = true := by decide

theorem test_wellFormed_imageCopy :
    (Instr.imageCopy true .i420 .i420 65536).wellFormed = false ∧
    (Instr.imageCopy false .fmt3 .fmt2 65535).wellFormed = true := by decide

theorem test_wellFormed_convertNv12 :
    (Instr.convertNv12 true .i420 .i420 65536).wellFormed = false ∧
    (Instr.convertNv12 false .fmt3 .fmt2 65535).wellFormed = true := by decide

theorem test_wellFormed_rotate :
    (Instr.rotate true .i420 .i420 65536).wellFormed = false ∧
    (Instr.rotate false .fmt3 .fmt2 65535).wellFormed = true := by decide

/-! ### Host programs: the spellings of R103, and the offsets of R21 -/

theorem test_spelling_defaults :
    Spelling.word ⟨.convertNv12, true, none, none, none⟩ = some 0x00000116 ∧
    Spelling.word ⟨.convertNv12, false, none, none, none⟩ = some 0x00000006 ∧
    Spelling.word ⟨.rotate, true, some 270, none, none⟩ = some 0x010E0017 ∧
    Spelling.word ⟨.layout, false, none, some .nv12, none⟩ = some 0x00000104 := by decide

theorem test_spelling_angle :
    Spelling.word ⟨.rotatePlane, false, some 180, none, none⟩ = some 0x00B40003 ∧
    Spelling.word ⟨.rotatePlane, false, some 65536, none, none⟩ = none := by decide

theorem test_slotWrites :
    slotWrites .dst1 0x3100 12 6 =
      [.regWrite 0x60 4 0x3100, .regWrite 0x64 4 12, .regWrite 0x68 4 6] := by decide

theorem test_runEvents :
    runEvents 0x15 = [.regWrite 0x10 4 0x15, .regWrite 0x04 4 1, .engineTurn, .regRead 0x08 4] := by
  decide

/-! ### Decoding: words of R103 and of 95_test_vectors.md, as bytes of the bus (R35) -/

theorem test_decode_copyPlane :
    decode [0x01, 0x00, 0x00, 0x00] = .ok (.copyPlane .i420 .i420 0) ∧
    decode [0x01, 0x03, 0xB4, 0x00] = .ok (.copyPlane .fmt3 .i420 180) := by decide

theorem test_decode_interleaveUv :
    decode [0x02, 0x00, 0x00, 0x00] = .ok (.interleaveUv .i420 .i420 0) := by decide

theorem test_decode_rotatePlane :
    decode [0x03, 0x00, 0x0E, 0x01] = .ok (.rotatePlane .i420 .i420 270) ∧
    decode [0x03, 0x12, 0x5A, 0x00] = .ok (.rotatePlane .fmt2 .nv12 90) := by decide

theorem test_decode_layout :
    decode [0x04, 0x01, 0x00, 0x00] = .ok (.layout .nv12 .i420 0) ∧
    decode [0x04, 0x10, 0x2D, 0x00] = .ok (.layout .i420 .nv12 45) := by decide

theorem test_decode_imageCopy :
    decode [0x05, 0x00, 0x00, 0x00] = .ok (.imageCopy false .i420 .i420 0) ∧
    decode [0x15, 0x10, 0x00, 0x00] = .ok (.imageCopy true .i420 .nv12 0) := by decide

theorem test_decode_convertNv12 :
    decode [0x06, 0x00, 0x00, 0x00] = .ok (.convertNv12 false .i420 .i420 0) ∧
    decode [0x16, 0x01, 0x00, 0x00] = .ok (.convertNv12 true .nv12 .i420 0) := by decide

theorem test_decode_rotate :
    decode [0x07, 0x00, 0x5A, 0x00] = .ok (.rotate false .i420 .i420 90) ∧
    decode [0x17, 0x10, 0x2D, 0x00] = .ok (.rotate true .i420 .nv12 45) := by decide

/-- R98: OP 0, OP 8, OP 15, each reserved field, TIGHT on a primitive and on LAYOUT. -/
theorem test_decode_illegal :
    decodeWord 0x00000000 = .error .illegalOp ∧ decodeWord 0x00000008 = .error .illegalOp ∧
    decodeWord 0x0000000F = .error .illegalOp ∧ decodeWord 0x00000021 = .error .reservedBits ∧
    decodeWord 0x00000085 = .error .reservedBits ∧ decodeWord 0x00000401 = .error .reservedBits ∧
    decodeWord 0x00008007 = .error .reservedBits ∧
    decodeWord 0x00000011 = .error .tightPrimitive ∧
    decodeWord 0x00000014 = .error .tightPrimitive ∧ decode [0x01] = .error .wrongLength := by
  decide

/-- R103: the encoder writes the table's words. -/
theorem test_encode :
    encodeWord (.rotatePlane .i420 .i420 270) = 0x010E0003 ∧
    encodeWord (.convertNv12 true .nv12 .i420 0) = 0x00000116 ∧
    encode (.rotate true .i420 .i420 90) = [0x17, 0x00, 0x5A, 0x00] := by decide

theorem test_decodeTableWord :
    decodeTableWord 32 0x005A0017 = some (.rotate true .i420 .i420 90) ∧
    decodeTableWord 16 0x00000104 = some (.layout .nv12 .i420 0) ∧
    decodeTableWord 32 0x00000012 = none := by decide

/-! ### Memory -/

theorem test_write_unlisted_removes :
    Memory.write [(4, 1), (5, 2)] 4 0 = [(5, 2)] ∧
    Memory.write [(4, 1), (6, 2)] 5 9 = [(4, 1), (5, 9), (6, 2)] ∧
    Memory.read [(4, 1), (6, 2)] 6 = 2 ∧ Memory.read [(4, 1), (6, 2)] 5 = 0 := by decide

/-! ### Helpers -/

/-- The bytes `bs` stored from address `a` on. -/
def put (a : Nat) (bs : List Nat) (m : Memory) : Memory :=
  ((List.range bs.length).zip bs).foldl (fun m e => m.write (a + e.1) (BitVec.ofNat 8 e.2)) m

/-- A slot `(A, L, S)`. -/
def slot (a l : Nat) (stride : Int) : Slot :=
  { addr := BitVec.ofNat 32 a, len := BitVec.ofNat 32 l, stride := BitVec.ofInt 32 stride }

/-- The reset state with operands and memory, the register window out of the way. -/
def setup (w h : Nat) (slots : Slots) (m : Memory) : State :=
  { State.reset with
    regs := { Registers.reset with width := BitVec.ofNat 32 w, height := BitVec.ofNat 32 h,
                                   slots := slots },
    mem := m, platform := { Platform.reset with regBase := 0xFFFF0000 } }

/-- The next state of an outcome satisfies `p`. -/
def nextHas (o : Host.Outcome State Fault Refusal) (p : State → Bool) : Bool :=
  match o with
  | .next t => p t
  | .fault _ => false
  | .refused _ => false

/-- The state after the command word `c`, started and run, satisfies `p`. -/
def ran (s : State) (c : Nat) (p : State → Bool) : Bool := nextHas (step (s.withFetchWord 32 c)) p

/-- The bytes from `a` on are `bs`. -/
def holds (a : Nat) (bs : List Nat) (s : State) : Bool :=
  ((List.range bs.length).zip bs).all fun e => (s.mem.read (a + e.1)).toNat == e.2

/-- STATUS reads `v`. -/
def statusIs (v : Nat) (s : State) : Bool := (s.readOffset 0x08).toNat == v

/-- Offsets 0x80 to 0xA8 read these values. -/
def layoutIs (vs : List Nat) (s : State) : Bool :=
  ((List.range vs.length).zip vs).all fun e => (s.readOffset (0x80 + 4 * e.1)).toNat == e.2

def noSlots : Slots := Registers.reset.slots

/-- The base setup of section 3: a 2 by 2 plane. -/
def planeSetup : State :=
  setup 2 2 { noSlots with src0 := slot 0x100 6 3, dst0 := slot 0x200 8 4 }
    (put 0x100 [0x0A, 0x0B, 0xFF, 0x0C, 0x0D, 0xFF] (put 0x200 (List.replicate 8 0xEE) []))

/-- The base setup of section 4. -/
def uvSetup : State :=
  setup 2 2 { noSlots with src1 := slot 0x1100 4 2, src2 := slot 0x1200 8 4,
                           dst1 := slot 0x600 12 6 }
    (put 0x1100 [51, 52, 53, 54] (put 0x1200 [101, 102, 103, 104, 105, 106, 107, 108]
      (put 0x600 (List.replicate 12 0xEE) [])))

/-- The source plane of section 5. -/
def turnSetup : State :=
  setup 3 2 { noSlots with src0 := slot 0x800 6 3, dst0 := slot 0x900 9 3 }
    (put 0x800 [1, 2, 3, 4, 5, 6] (put 0x900 (List.replicate 9 0xEE) []))

/-- The sources of section 6. -/
def imageSources : Slots :=
  { noSlots with src0 := slot 0x4000 6 3, src1 := slot 0x4006 2 2, src2 := slot 0x4008 2 2 }

def imageMemory : Memory := put 0x4000 [1, 2, 3, 4, 5, 6, 0x10, 0x11, 0x20, 0x21] []

/-- Section 6 with the tight destination. -/
def tightSetup : State := setup 3 2 { imageSources with dst0 := slot 0x4100 10 0 } imageMemory

/-- Section 6 with explicit destinations that fit every image command but a rotation by 90 or 270. -/
def explicitSetup : State :=
  setup 3 2 { imageSources with dst0 := slot 0x4200 8 4, dst1 := slot 0x4300 4 4,
                                dst2 := slot 0x4400 3 3 } imageMemory

/-- M19: explicit destinations of a rotation by 90. -/
def turnedSetup : State :=
  setup 3 2 { imageSources with dst0 := slot 0x4200 9 2, dst1 := slot 0x4300 2 1,
                                dst2 := slot 0x4400 2 1 } imageMemory

/-- `s` with the command word `c` started and running. -/
def started (s : State) (c : Nat) : State := s.withFetchWord 32 c

set_option maxRecDepth 100000

/-! ### One step of each command -/

/-- P2v: ANGLE and DST_FMT ignored, padding kept. -/
theorem test_copyPlane_P2v :
    ran planeSetup 0x00B40301 (fun t => statusIs 0x2 t &&
      holds 0x200 [0x0A, 0x0B, 0xEE, 0xEE, 0x0C, 0x0D, 0xEE, 0xEE] t) = true := by decide

/-- P10v: slot 0 before slot 3. -/
theorem test_copyPlane_P10v :
    ran { planeSetup with regs := { planeSetup.regs with
        slots := { noSlots with src0 := slot 0x100 6 1, dst0 := slot 0x200 8 1 } } } 0x1
      (fun t => statusIs 0x22 t && decide (t.mem = planeSetup.mem)) = true := by decide

/-- I2v: U at the even offsets, padding kept. -/
theorem test_interleaveUv_I2v :
    ran uvSetup 0x2 (fun t => statusIs 0x2 t &&
      holds 0x600 [0x33, 0x65, 0x34, 0x66, 0xEE, 0xEE, 0x35, 0x69, 0x36, 0x6A, 0xEE, 0xEE] t)
      = true := by decide

/-- I3v: a stride of 2 × cw − 1. -/
theorem test_interleaveUv_I3v :
    ran { uvSetup with regs := { uvSetup.regs with
        slots := { uvSetup.regs.slots with dst1 := slot 0x600 8 3 } } } 0x2
      (fun t => statusIs 0x422 t && decide (t.mem = uvSetup.mem)) = true := by decide

/-- R5v: 90 degrees into a padded plane. -/
theorem test_rotatePlane_R5v :
    ran turnSetup 0x005A0003 (fun t => statusIs 0x2 t &&
      holds 0x900 [4, 1, 0xEE, 5, 2, 0xEE, 6, 3, 0xEE] t) = true := by decide

/-- R14v: the angle before the dimensions. -/
theorem test_rotatePlane_R14v :
    ran { turnSetup with regs := { turnSetup.regs with width := 0 } } 0x002D0003
      (statusIs 0x32) = true := by decide

/-- L5: odd dimensions, NV12. -/
theorem test_layout_L5 :
    ran (setup 5 3 noSlots []) 0x104 (fun t => statusIs 0x2 t &&
      layoutIs [3, 2, 5, 3, 0, 5, 15, 6, 0, 0, 27] t) = true := by decide

/-- L8: a total beyond 32 bits. -/
theorem test_layout_L8 :
    ran (setup 0x7FFFFFFF 0x7FFFFFFF noSlots []) 0x4 (fun t => statusIs 0x6 t &&
      layoutIs [0x40000000, 0x40000000, 0x7FFFFFFF, 0x7FFFFFFF, 0, 0x7FFFFFFF, 1, 0x40000000, 1,
        0x40000000, 1] t) = true := by decide

/-- V1: the document's scenario, copied into a tight buffer. -/
theorem test_imageCopy_V1 :
    ran (setup 3 3 { noSlots with src0 := slot 0x1000 9 3, src1 := slot 0x1100 4 2,
                                  src2 := slot 0x1200 8 4, dst0 := slot 0x2000 17 0 }
        (put 0x1000 [1, 2, 3, 4, 5, 6, 7, 8, 9] (put 0x1100 [51, 52, 53, 54]
          (put 0x1200 [101, 102, 103, 104, 105, 106, 107, 108] [])))) 0x15
      (fun t => statusIs 0x2 t && layoutIs [2, 2, 3, 3, 0, 3, 9, 2, 13, 2, 17] t &&
        holds 0x2000 [1, 2, 3, 4, 5, 6, 7, 8, 9, 51, 52, 53, 54, 101, 102, 105, 106, 0] t)
      = true := by decide

/-- M9: the layout is written before the buffer check fails. -/
theorem test_imageCopy_M9 :
    ran { tightSetup with regs := { tightSetup.regs with
        slots := { imageSources with dst0 := slot 0x4100 9 0 } } } 0x15
      (fun t => statusIs 0x322 t && layoutIs [2, 1, 3, 2, 0, 3, 6, 2, 8, 2, 10] t &&
        decide (t.mem = imageMemory)) = true := by decide

/-- M2: the tight NV12 layout of an odd width. -/
theorem test_convertNv12_M2 :
    ran tightSetup 0x116 (fun t => statusIs 0x2 t &&
      layoutIs [2, 1, 3, 2, 0, 3, 6, 4, 0, 0, 10] t &&
      holds 0x4100 [1, 2, 3, 4, 5, 6, 0x10, 0x20, 0x11, 0x21] t) = true := by decide

/-- M13: a UV stride below 2 × cw. -/
theorem test_convertNv12_M13 :
    ran { explicitSetup with regs := { explicitSetup.regs with
        slots := { explicitSetup.regs.slots with dst1 := slot 0x4300 3 3 } } } 0x6
      (statusIs 0x422) = true := by decide

/-- M5: 270 degrees into a tight buffer. -/
theorem test_rotate_M5 :
    ran tightSetup 0x010E0017 (fun t => statusIs 0x2 t &&
      layoutIs [1, 2, 2, 3, 0, 2, 6, 1, 8, 1, 10] t &&
      holds 0x4100 [3, 6, 2, 5, 1, 4, 0x11, 0x10, 0x21, 0x20] t) = true := by decide

/-- M19: 90 degrees into explicit planes. -/
theorem test_rotate_M19 :
    ran turnedSetup 0x005A0007 (fun t => statusIs 0x2 t &&
      holds 0x4200 [4, 1, 5, 2, 6, 3] t && holds 0x4300 [0x10, 0x11] t &&
      holds 0x4400 [0x20, 0x21] t) = true := by decide

/-- M21: a faulted read. -/
theorem test_busFault_M21 :
    ran { tightSetup with busFaults := [{ kind := .read, region := { base := 0x4004, size := 1 } }] }
      0x15 (fun t => statusIs 0x62 t && t.readOffset 0x0C == 0x4004 &&
        layoutIs [2, 1, 3, 2, 0, 3, 6, 2, 8, 2, 10] t) = true := by decide

/-- P15v: in place, the command ends without error. -/
theorem test_overlap_P15v :
    ran { planeSetup with regs := { planeSetup.regs with
        slots := { noSlots with src0 := slot 0x200 8 4, dst0 := slot 0x200 8 4 } } } 0x1
      (statusIs 0x2) = true := by decide

/-- R182: L12 ends with code 1, L10 and M10 with code 4. -/
theorem test_errorCodes :
    ran (setup 0xFFFFFFFF 3 noSlots []) 0x4 (statusIs 0x12) = true ∧
    ran (setup 3 3 noSlots []) 0x204 (statusIs 0x42) = true ∧
    ran tightSetup 0x1015 (statusIs 0x42) = true := by decide

/-- I5v, M15, and DST2_LEN 2 in the explicit setup: slots 1, 2 and 5 are reported. -/
theorem test_errorSlots :
    ran { uvSetup with regs := { uvSetup.regs with
        slots := { uvSetup.regs.slots with src1 := slot 0x1100 4 1, dst1 := slot 0x600 12 3 } } } 0x2
      (statusIs 0x122) = true ∧
    ran { tightSetup with regs := { tightSetup.regs with
        slots := { tightSetup.regs.slots with src2 := slot 0x4008 1 2 } } } 0x15
      (statusIs 0x222) = true ∧
    ran { explicitSetup with regs := { explicitSetup.regs with
        slots := { explicitSetup.regs.slots with dst2 := slot 0x4400 2 3 } } } 0x5
      (statusIs 0x522) = true := by decide

/-! ### The register port -/

/-- G2, G3: START on the reset word, then DONE cleared and the code kept. -/
theorem test_port_G2_G3 :
    nextHas (State.reset.regWrite 0x04 4 1) (fun a => nextHas a.engineTurn fun b =>
      statusIs 0x52 b && nextHas (b.regWrite 0x08 4 2) (statusIs 0x50)) = true := by decide

/-- G5: `irq` rises at the end with IRQ_EN = 1 and falls when DONE is cleared. -/
theorem test_port_G5 :
    nextHas (State.reset.regWrite 0x04 4 3) (fun a => nextHas a.engineTurn fun b =>
      !a.irq && b.irq && nextHas (b.regWrite 0x08 4 2) fun c => !c.irq) = true := by decide

/-- G6: SOFT_RESET wins over START. -/
theorem test_port_G6 :
    nextHas (planeSetup.regWrite 0x04 4 5) (fun a => !a.busy && decide (a.regs = Registers.reset) &&
      decide (a.mem = planeSetup.mem)) = true := by decide

/-- G7, G8, G9: read-only and reserved offsets ignore writes. -/
theorem test_port_G7_G8_G9 :
    nextHas (State.reset.regWrite 0x00 4 0) (fun a => a.readOffset 0x00 == 0x53504331) = true ∧
    nextHas (State.reset.regWrite 0x1C 4 0xFFFFFFFF) (fun a => a.readOffset 0x1C == 0) = true ∧
    nextHas (State.reset.regWrite 0xA8 4 5) (fun a => a.readOffset 0xA8 == 0) = true := by decide

/-- G10, G11, G12: a BUSY block ignores operand writes and START, and reads BUSY alone. -/
theorem test_port_G10_G11_G12 :
    nextHas ((started planeSetup 1).regWrite 0x14 4 7) (fun a => a.readOffset 0x14 == 2) = true ∧
    statusIs 0x1 (started planeSetup 1) = true ∧
    nextHas ((started planeSetup 1).regWrite 0x04 4 1) (fun a => statusIs 0x1 a &&
      nextHas a.engineTurn fun b => statusIs 0x2 b) = true := by decide

/-- G13: START and IRQ_EN in one word, reserved bits ignored. -/
theorem test_port_G13 :
    nextHas ((planeSetup.regWrite 0x10 4 1)) (fun a => nextHas (a.regWrite 0x04 4 0xFFFFFFFB)
      fun b => b.busy && b.readOffset 0x04 == 2) = true := by decide

/-- R38: LAYOUT_OVF, once a host has read it set, stays set while the command runs. -/
theorem test_port_layoutOvf :
    (let s := started (setup 65536 65536 noSlots []) 4
     statusIs 0x5 { s with regs := { s.regs with layoutOvf := true } }) = true := by decide

/-- R74, R78: what a host writes and cleans over a byte that an earlier command wrote reads back, and
disturbs no later command. -/
theorem test_cache_ownWrite :
    nextHas (Sys2Proof.core.run 4
      { planeSetup with
        platform := { planeSetup.platform with coherent := false, lineBits := 2 },
        regs := { planeSetup.regs with cmd := 1 }, stale := [0x101],
        inbox := [.memWrite 0x101 7, .cacheClean ⟨0x100, 8⟩, .memRead 0x101, .regWrite 0x04 4 1] })
      (fun t => t.readData == 7 && t.busy && !t.interfered) = true := by decide

/-- R77, R78: without coherent caches, while the copy runs, a host writes and cleans a byte behind its
source extent, in one cache line with it: the result is exact. -/
theorem test_cache_besideTheSource :
    nextHas (Sys2Proof.core.run 4
      { planeSetup with
        platform := { planeSetup.platform with coherent := false, lineBits := 2 },
        regs := { planeSetup.regs with cmd := 1 },
        inbox := [.regWrite 0x04 4 1, .memWrite 0x106 7, .cacheClean ⟨0x100, 8⟩, .engineTurn] })
      (holds 0x200 [0x0A, 0x0B, 0xEE, 0xEE, 0x0C, 0x0D, 0xEE, 0xEE]) = true := by decide

/-- R82: the same for another bus master's write behind a byte of the destination, in one cache line of
the hosts with it. -/
theorem test_bus_besideTheDestination :
    nextHas (Sys2Proof.core.run 4
      { planeSetup with
        platform := { planeSetup.platform with coherent := false, lineBits := 2 },
        regs := { planeSetup.regs with cmd := 1 },
        inbox := [.regWrite 0x04 4 1, .busWrite 0x202 7, .engineTurn, .regRead 0x08 4] })
      (fun t => holds 0x200 [0x0A, 0x0B, 7, 0xEE, 0x0C, 0x0D, 0xEE, 0xEE] t && t.uncleaned.isEmpty)
      = true := by decide

/-- A program of the queue: the host starts the copy, the engine runs it, the host reads STATUS and
then the first copied byte (R75, R76). -/
theorem test_queue_copy :
    nextHas (Sys2Proof.core.run 5
      { planeSetup with inbox := [.regWrite 0x10 4 1, .regWrite 0x04 4 1, .engineTurn,
          .regRead 0x08 4, .memRead 0x200] })
      (fun t => t.readData == 0x0A && t.inbox.isEmpty && t.unseen.isEmpty) = true := by decide

/-! ### Witnesses: states and operands that meet all the hypotheses of a statement together -/

theorem undisturbed_of (s : State) (plan : Plan) (h1 : s.platform.forbids plan = false)
    (h2 : s.busFaults = []) (h3 : plan.separated = true) (h4 : s.interfered = false) :
    Undisturbed s plan :=
  ⟨(forbids_iff s plan).mp h1, by simp [NoBusFault, State.faults, h2], (separated_iff plan).mp h3, h4⟩

theorem noBusFault_of (s : State) (plan : Plan) (h : s.busFaults = []) : NoBusFault s plan := by
  simp [NoBusFault, State.faults, h]

/-- The outcome of a command on `s` without error. -/
def endsWell (i : Instr) (s : State) : Bool := nextHas (exec i s) fun t => decide (t.regs.err = .none)

theorem exists_of_nextHas (o : Host.Outcome State Fault Refusal) (p : State → Bool)
    (h : nextHas o p = true) : ∃ t, o = .next t ∧ p t = true := by
  cases o with
  | next t => exact ⟨t, rfl, h⟩
  | fault f => cases h
  | refused r => cases h

theorem exists_of_endsWell (i : Instr) (s : State) (h : endsWell i s = true) :
    ∃ t, exec i s = .next t ∧ t.regs.err = .none := by
  obtain ⟨t, ht, hp⟩ := exists_of_nextHas _ _ h
  exact ⟨t, ht, of_decide_eq_true hp⟩

theorem witness_DecodeEncodeRoundTrip :
    (Instr.rotate true .fmt3 .nv12 65535).wellFormed = true := by decide

theorem witness_LegalWordIsItsEncoding :
    decodeWord 0x00B40301 = .ok (.copyPlane .fmt3 .i420 180) := by decide

theorem witness_StepRunsDecodedCommand :
    (started planeSetup 1).engine = .busy { planeSetup.regs.params with cmd := 1 } false ∧
    decodeWord 1 = .ok (.copyPlane .i420 .i420 0) ∧ (started planeSetup 1).inbox = [] ∧
    ({ started planeSetup 1 with inbox := [.engineTurn, .irqRead] } : State).inbox =
      .engineTurn :: [.irqRead] := ⟨by decide, by decide, rfl, rfl⟩

theorem witness_CommandedWordRunsNext :
    decodeTableWord 32 0x00000015 = some (.imageCopy true .i420 .i420 0) := by decide

theorem witness_IllegalCommandEndsAtOnce :
    (started planeSetup 0x11).engine = .busy { planeSetup.regs.params with cmd := 0x11 } false ∧
    decodeWord 0x11 = .error .tightPrimitive ∧ (started planeSetup 0x11).inbox = [] :=
  ⟨by decide, by decide, rfl⟩

theorem witness_IdleKeepsEverything : planeSetup.engine = .idle ∧ planeSetup.inbox = [] := ⟨rfl, rfl⟩

theorem witness_EngineTurnEndsTheCommand :
    (started planeSetup 1).engine = .busy { planeSetup.regs.params with cmd := 1 } false ∧
    (started planeSetup 1).inbox = [] ∧ ∃ t, step (started planeSetup 1) = .next t := by
  refine ⟨by decide, rfl, ?_⟩
  obtain ⟨t, ht, -⟩ := exists_of_nextHas (step (started planeSetup 1)) (statusIs 0x2) (by decide)
  exact ⟨t, ht⟩

theorem witness_StartedCommandEnds : (started planeSetup 1).busy = true := by decide

theorem witness_LayoutCompletes :
    HasDims (started planeSetup 4).params ⟨2, 2⟩ ∧ (FmtTag.i420 = .i420 ∨ FmtTag.i420 = .nv12) ∧
    (FmtTag.nv12 = .i420 ∨ FmtTag.nv12 = .nv12) :=
  ⟨⟨by decide, by decide, by decide, by decide⟩, by decide, by decide⟩

theorem witness_CopyPlaneCompletes :
    (started planeSetup 1).mem.wf ∧ HasDims (started planeSetup 1).params ⟨2, 2⟩ ∧
    SlotFits (started planeSetup 1).params .src0 ⟨2, 2⟩ ∧
    SlotFits (started planeSetup 1).params .dst0 ⟨2, 2⟩ ∧
    Undisturbed (started planeSetup 1) (copyPlanePlan (started planeSetup 1).params ⟨2, 2⟩) :=
  ⟨by decide, ⟨by decide, by decide, by decide, by decide⟩, ⟨by decide, by decide, by decide⟩,
    ⟨by decide, by decide, by decide⟩, undisturbed_of _ _ (by decide) rfl (by decide) rfl⟩

theorem witness_InterleaveUvCompletes :
    (started uvSetup 2).mem.wf ∧ HasDims (started uvSetup 2).params ⟨2, 2⟩ ∧
    SlotFits (started uvSetup 2).params .src1 ⟨2, 2⟩ ∧
    SlotFits (started uvSetup 2).params .src2 ⟨2, 2⟩ ∧
    SlotFits (started uvSetup 2).params .dst1 ⟨4, 2⟩ ∧
    Undisturbed (started uvSetup 2) (interleaveUvPlan (started uvSetup 2).params ⟨2, 2⟩) :=
  ⟨by decide, ⟨by decide, by decide, by decide, by decide⟩, ⟨by decide, by decide, by decide⟩,
    ⟨by decide, by decide, by decide⟩, ⟨by decide, by decide, by decide⟩,
    undisturbed_of _ _ (by decide) rfl (by decide) rfl⟩

/-- For each angle: the padded destination of R5v holds a 3 by 2 and a 2 by 3 plane. -/
theorem witness_RotatePlaneCompletes : ∀ r : Rotation,
    turnSetup.mem.wf ∧ HasDims turnSetup.params ⟨3, 2⟩ ∧
    SlotFits turnSetup.params .src0 ⟨3, 2⟩ ∧
    SlotFits turnSetup.params .dst0 (turned (degrees r) ⟨3, 2⟩) ∧
    Undisturbed turnSetup (rotatePlanePlan turnSetup.params r ⟨3, 2⟩) := by
  intro r
  refine ⟨by decide, ⟨by decide, by decide, by decide, by decide⟩,
    ⟨by decide, by decide, by decide⟩, ?_, ?_⟩
  · cases r <;> exact ⟨by decide, by decide, by decide⟩
  · cases r <;> exact undisturbed_of _ _ (by decide) rfl (by decide) rfl

theorem fits_of (p : Params) (l : List (SlotId × Dims)) (h : checkAll p l = .ok ()) :
    ∀ e ∈ l, SlotFits p e.1 e.2 := by
  rcases checkAll_cases p l with ⟨hf, -⟩ | ⟨n, hn⟩
  · exact hf
  · rw [h] at hn
    cases hn

/-- Both destination modes. -/
theorem witness_ImageCopyCompletes : ∀ tight : Bool, ∃ s d, s.mem.wf ∧ HasDims s.params d ∧
    (tight = true → FmtTag.i420 = .i420) ∧
    BuffersFit (.imageCopy tight .i420 .i420 0) s.params d ∧
    Undisturbed s (imageCopyPlan s.params tight d) := by
  intro tight
  cases tight
  · exact ⟨explicitSetup, ⟨3, 2⟩, by decide, ⟨by decide, by decide, by decide, by decide⟩,
      fun _ => rfl, ⟨fits_of _ _ (by decide), fun h => Bool.noConfusion h⟩,
      undisturbed_of _ _ (by decide) rfl (by decide) rfl⟩
  · exact ⟨tightSetup, ⟨3, 2⟩, by decide, ⟨by decide, by decide, by decide, by decide⟩,
      fun _ => rfl, ⟨fits_of _ _ (by decide), fun _ => ⟨by decide, by decide⟩⟩,
      undisturbed_of _ _ (by decide) rfl (by decide) rfl⟩

theorem witness_ConvertNv12Completes : ∀ tight : Bool, ∃ s d, s.mem.wf ∧ HasDims s.params d ∧
    (tight = true → FmtTag.nv12 = .nv12) ∧
    BuffersFit (.convertNv12 tight .nv12 .i420 0) s.params d ∧
    Undisturbed s (convertNv12Plan s.params tight d) := by
  intro tight
  cases tight
  · exact ⟨explicitSetup, ⟨3, 2⟩, by decide, ⟨by decide, by decide, by decide, by decide⟩,
      fun _ => rfl, ⟨fits_of _ _ (by decide), fun h => Bool.noConfusion h⟩,
      undisturbed_of _ _ (by decide) rfl (by decide) rfl⟩
  · exact ⟨tightSetup, ⟨3, 2⟩, by decide, ⟨by decide, by decide, by decide, by decide⟩,
      fun _ => rfl, ⟨fits_of _ _ (by decide), fun _ => ⟨by decide, by decide⟩⟩,
      undisturbed_of _ _ (by decide) rfl (by decide) rfl⟩

/-- Both destination modes, an angle that swaps the dimensions and one that does not. -/
theorem witness_RotateCompletes : ∀ tight : Bool, ∀ r : Rotation, r = .r90 ∨ r = .r180 →
    ∃ s d, s.mem.wf ∧ HasDims s.params d ∧ (tight = true → FmtTag.i420 = .i420) ∧
    BuffersFit (.rotate tight .i420 .i420 (degrees r)) s.params d ∧
    Undisturbed s (rotatePlan s.params tight r d) := by
  intro tight r hr
  cases tight
  · rcases hr with rfl | rfl
    · exact ⟨turnedSetup, ⟨3, 2⟩, by decide, ⟨by decide, by decide, by decide, by decide⟩,
        fun _ => rfl, ⟨fits_of _ _ (by decide), fun h => Bool.noConfusion h⟩,
        undisturbed_of _ _ (by decide) rfl (by decide) rfl⟩
    · exact ⟨explicitSetup, ⟨3, 2⟩, by decide, ⟨by decide, by decide, by decide, by decide⟩,
        fun _ => rfl, ⟨fits_of _ _ (by decide), fun h => Bool.noConfusion h⟩,
        undisturbed_of _ _ (by decide) rfl (by decide) rfl⟩
  · rcases hr with rfl | rfl
    · exact ⟨tightSetup, ⟨3, 2⟩, by decide, ⟨by decide, by decide, by decide, by decide⟩,
        fun _ => rfl, ⟨fits_of _ _ (by decide), fun _ => ⟨by decide, by decide⟩⟩,
        undisturbed_of _ _ (by decide) rfl (by decide) rfl⟩
    · exact ⟨tightSetup, ⟨3, 2⟩, by decide, ⟨by decide, by decide, by decide, by decide⟩,
        fun _ => rfl, ⟨fits_of _ _ (by decide), fun _ => ⟨by decide, by decide⟩⟩,
        undisturbed_of _ _ (by decide) rfl (by decide) rfl⟩

theorem witness_InterleaveLaw :
    uvSetup.mem.wf ∧ HasDims uvSetup.params ⟨2, 2⟩ ∧ uvSetup.interfered = false ∧
    Separated (interleaveUvPlan uvSetup.params ⟨2, 2⟩) ∧
    ∃ t, exec (.interleaveUv .i420 .i420 0) uvSetup = .next t ∧ t.regs.err = .none :=
  ⟨by decide, ⟨by decide, by decide, by decide, by decide⟩, rfl, (separated_iff _).mp (by decide),
    exists_of_endsWell _ _ (by decide)⟩

/-- The command runs, and runs again on its result. -/
theorem witness_CopyPlaneLawAndRepeat :
    planeSetup.mem.wf ∧ HasDims planeSetup.params ⟨2, 2⟩ ∧ planeSetup.interfered = false ∧
    Separated (copyPlanePlan planeSetup.params ⟨2, 2⟩) ∧
    ∃ t u, exec (.copyPlane .i420 .i420 0) planeSetup = .next t ∧ t.regs.err = .none ∧
      t.params = planeSetup.params ∧ exec (.copyPlane .i420 .i420 0) t = .next u ∧
      u.regs.err = .none := by
  refine ⟨by decide, ⟨by decide, by decide, by decide, by decide⟩, rfl,
    (separated_iff _).mp (by decide), ?_⟩
  obtain ⟨t, ht, h⟩ := exists_of_nextHas (exec (.copyPlane .i420 .i420 0) planeSetup)
    (fun t => decide (t.regs.err = .none) && decide (t.params = planeSetup.params) &&
      endsWell (.copyPlane .i420 .i420 0) t) (by decide)
  simp only [Bool.and_eq_true, decide_eq_true_eq] at h
  obtain ⟨u, hu, hn⟩ := exists_of_endsWell _ t h.2
  exact ⟨t, u, ht, h.1.1, h.1.2, hu, hn⟩

/-- A padded 2 by 2 view and a tight one, apart. -/
theorem witness_CopyAndBackRestores :
    planeSetup.mem.wf ∧ (View.mk 0x100 3 2 2).width = (View.mk 0x200 2 2 2).width ∧
    (View.mk 0x100 3 2 2).height = (View.mk 0x200 2 2 2).height ∧ 2 ≤ 3 ∧ 2 ≤ 2 ∧
    ∀ x ∈ (View.mk 0x100 3 2 2).footprint, x ∉ (View.mk 0x200 2 2 2).footprint := by decide

theorem witness_MoveOrderDoesNotMatter :
    planeSetup.mem.wf ∧
    (workOf (.copyPlane .i420 .i420 0) planeSetup.params).plan =
      .ok (copyPlanePlan planeSetup.params ⟨2, 2⟩) ∧
    Separated (copyPlanePlan planeSetup.params ⟨2, 2⟩) ∧
    (copyPlanePlan planeSetup.params ⟨2, 2⟩).moves.reverse.Perm
      (copyPlanePlan planeSetup.params ⟨2, 2⟩).moves ∧
    (copyPlanePlan planeSetup.params ⟨2, 2⟩).moves.reverse ≠
      (copyPlanePlan planeSetup.params ⟨2, 2⟩).moves :=
  ⟨by decide, rfl, (separated_iff _).mp (by decide), List.reverse_perm _, by decide⟩

theorem witness_RotationReadsEachSampleOnce :
    ((View.mk 0x800 4 3 2).width ≤ (View.mk 0x800 4 3 2).stride ∧ (2 : Nat) ≤ 2 ∧
      (Dims.mk 3 2).rotated .r90 = ⟨2, 3⟩) ∧ (Dims.mk 3 2).rotated .r0 = ⟨3, 2⟩ := by decide

theorem witness_RotationsCompose :
    turnSetup.mem.wf ∧ Dims.mk 2 3 = (Dims.mk 3 2).rotated .r90 ∧
    Dims.mk 3 2 = ((Dims.mk 3 2).rotated .r90).rotated .r270 ∧
    (∀ x ∈ (View.mk 0x800 3 3 2).footprint, x ∉ (View.mk 0x900 2 2 3).footprint) ∧
    ∀ x ∈ (View.mk 0x900 2 2 3).footprint, x ∉ (View.mk 0xA00 3 3 2).footprint := by decide

theorem witness_LayoutLaw : 0 < (Dims.mk 4 2).w ∧ 0 < (Dims.mk 4 2).h ∧ 2 ∣ (Dims.mk 4 2).w ∧
    2 ∣ (Dims.mk 4 2).h := by decide

/-- One command for each of the three clauses. -/
theorem witness_FormatsAndAnglesAccepted :
    formatsAccepted (.layout .fmt2 .i420 0) = false ∧
    (formatsAccepted (.rotate true .i420 .i420 45) = true ∧
      angleAccepted (.rotate true .i420 .i420 45) = false) ∧
    (formatsAccepted (.copyPlane .i420 .i420 0) = true ∧
      angleAccepted (.copyPlane .i420 .i420 0) = true ∧
      ∃ t, exec (.copyPlane .i420 .i420 0) planeSetup = .next t) := by
  refine ⟨by decide, by decide, by decide, by decide, ?_⟩
  obtain ⟨t, ht, -⟩ := exists_of_endsWell (.copyPlane .i420 .i420 0) planeSetup (by decide)
  exact ⟨t, ht⟩

theorem witness_BadDimensionsRaised :
    formatsAccepted (.rotate true .i420 .i420 270) = true ∧
    angleAccepted (.rotate true .i420 .i420 270) = true ∧
    BadDims (setup 0 2 noSlots []).params ∧ BadDims (setup 2 0x80000000 noSlots []).params :=
  ⟨by decide, by decide, .inl (by decide), .inr (by decide)⟩

/-- DST1 of the explicit conversion does not fit, and the tight buffer of M9 does not. -/
theorem witness_FirstFailingBufferReported :
    (∃ p d, HasDims p d ∧ slotTable (.convertNv12 false .i420 .i420 0) d =
        [(.src0, d), (.src1, d.chroma), (.src2, d.chroma), (.dst0, d)] ++
          (.dst1, { w := 2 * d.chroma.w, h := d.chroma.h }) :: [] ∧
      (∀ x ∈ [(SlotId.src0, d), (.src1, d.chroma), (.src2, d.chroma), (.dst0, d)],
        SlotFits p x.1 x.2) ∧
      ¬ SlotFits p .dst1 { w := 2 * d.chroma.w, h := d.chroma.h } ∧
      (SlotId.dst1, (4 : BitVec 3)) ∈ [(SlotId.src0, 0), (.src1, 1), (.src2, 2), (.dst0, 3),
        (.dst1, 4), (.dst2, 5)]) ∧
    ∃ p d, HasDims p d ∧ (∀ e ∈ slotTable (.imageCopy true .i420 .i420 0) d, SlotFits p e.1 e.2) ∧
      usesTight (.imageCopy true .i420 .i420 0) = true ∧
      ¬ TightFits p (tightTotal (outDims (.imageCopy true .i420 .i420 0) d)) := by
  refine ⟨⟨{ explicitSetup.params with slots := { explicitSetup.params.slots with
      dst1 := slot 0x4300 3 3 } }, ⟨3, 2⟩, ⟨by decide, by decide, by decide, by decide⟩, rfl,
      fits_of _ _ (by decide), fun h => absurd h.1 (by decide), by decide⟩,
    { tightSetup.params with slots := { imageSources with dst0 := slot 0x4100 9 0 } }, ⟨3, 2⟩,
      ⟨by decide, by decide, by decide, by decide⟩, fits_of _ _ (by decide), rfl,
      fun h => absurd h.1 (by decide)⟩

/-- INVALID_DIMENSIONS, and BUFFER_TOO_SMALL behind a layout. -/
theorem witness_PreciseErrors :
    (∃ t, exec (.copyPlane .i420 .i420 0) (setup 0 2 noSlots []) = .next t ∧ t.regs.err ≠ .none ∧
      t.regs.err ≠ .busError) ∧
    ∃ t, exec (.imageCopy true .i420 .i420 0) (setup 3 2 noSlots []) = .next t ∧
      t.regs.err ≠ .none ∧ t.regs.err ≠ .busError := by
  constructor
  · obtain ⟨t, ht, h⟩ := exists_of_nextHas (exec (.copyPlane .i420 .i420 0) (setup 0 2 noSlots []))
      (fun t => decide (t.regs.err = .invalidDimensions)) (by decide)
    simp only [decide_eq_true_eq] at h
    exact ⟨t, ht, by rw [h]; decide, by rw [h]; decide⟩
  · obtain ⟨t, ht, h⟩ := exists_of_nextHas
      (exec (.imageCopy true .i420 .i420 0) (setup 3 2 noSlots []))
      (fun t => decide (t.regs.err = .bufferTooSmall)) (by decide)
    simp only [decide_eq_true_eq] at h
    exact ⟨t, ht, by rw [h]; decide, by rw [h]; decide⟩

/-- A faulted read. -/
theorem witness_BusFaultEndsWithBusError : ∃ (s : State) (plan : Plan), s.mem.wf ∧
    (workOf (.copyPlane .i420 .i420 0) s.params).plan = .ok plan ∧ OrdinaryBuffers s plan ∧
    ∃ a ∈ plan.readFootprint, s.faults .read a = true :=
  ⟨{ planeSetup with busFaults := [⟨.read, ⟨0x104, 1⟩⟩] },
    copyPlanePlan planeSetup.params ⟨2, 2⟩, by decide, rfl, (forbids_iff _ _).mp (by decide),
    0x104, by decide, by decide⟩

/-- A faulted write. -/
theorem witness_BusFaultEndsWithBusError_write : ∃ (s : State) (plan : Plan), s.mem.wf ∧
    (workOf (.copyPlane .i420 .i420 0) s.params).plan = .ok plan ∧ OrdinaryBuffers s plan ∧
    ∃ a ∈ plan.writeFootprint, s.faults .write a = true :=
  ⟨{ planeSetup with busFaults := [⟨.write, ⟨0x205, 1⟩⟩] },
    copyPlanePlan planeSetup.params ⟨2, 2⟩, by decide, rfl, (forbids_iff _ _).mp (by decide),
    0x205, by decide, by decide⟩

/-- P15v. -/
theorem witness_OverlapIsUnspecified : ∃ (s : State) (plan : Plan), s.mem.wf ∧
    (workOf (.copyPlane .i420 .i420 0) s.params).plan = .ok plan ∧ ¬ Separated plan ∧
    OrdinaryBuffers s plan ∧ NoBusFault s plan := by
  let s : State := setup 2 2 { noSlots with src0 := slot 0x200 8 4, dst0 := slot 0x200 8 4 }
    planeSetup.mem
  refine ⟨s, copyPlanePlan s.params ⟨2, 2⟩, by decide, rfl, ?_, (forbids_iff _ _).mp (by decide),
    noBusFault_of _ _ rfl⟩
  rw [← separated_iff]
  decide

/-- The destination of the copy meets a device: the premise of either direction can hold. -/
theorem witness_DeviceBuffersRefused : ∃ (s : State) (plan : Plan),
    (workOf (.copyPlane .i420 .i420 0) s.params).plan = .ok plan ∧ ¬ OrdinaryBuffers s plan := by
  refine ⟨{ planeSetup with platform := { planeSetup.platform with devices := [⟨0x205, 1⟩] } },
    copyPlanePlan planeSetup.params ⟨2, 2⟩, rfl, ?_⟩
  rw [← forbids_iff]
  decide

/-- A command that does its plan, and one that fails a check. -/
theorem witness_NoByteOutsideTheFootprint :
    (∃ t plan, exec (.copyPlane .i420 .i420 0) planeSetup = .next t ∧
      (workOf (.copyPlane .i420 .i420 0) planeSetup.params).plan = .ok plan ∧
      0x205 ∈ plan.writeFootprint) ∧
    ∃ t e, exec (.layout .fmt2 .i420 0) planeSetup = .next t ∧
      (workOf (.layout .fmt2 .i420 0) planeSetup.params).plan = .error e := by
  constructor
  · obtain ⟨t, ht, -⟩ := exists_of_endsWell (.copyPlane .i420 .i420 0) planeSetup (by decide)
    exact ⟨t, copyPlanePlan planeSetup.params ⟨2, 2⟩, ht, rfl, by decide⟩
  · exact ⟨_, .unsupportedFormat, rfl, rfl⟩

theorem witness_RegisterFrame : ∃ t, exec (.imageCopy true .i420 .i420 0) tightSetup = .next t := by
  obtain ⟨t, ht, -⟩ := exists_of_endsWell (.imageCopy true .i420 .i420 0) tightSetup (by decide)
  exact ⟨t, ht⟩

/-- Every clause: a host event, a primitive, an early error, an illegal word, the two ends of the
layout registers, and no layout pending. -/
theorem witness_LayoutRegistersReadOnly :
    ((Event.regWrite 0x14 4 7 ≠ .engineTurn) ∧
      ∃ t, planeSetup.handle (.regWrite 0x14 4 7) = .next t) ∧
    (∃ t, exec (.copyPlane .i420 .i420 0) planeSetup = .next t) ∧
    (∃ t, exec (.layout .fmt2 .i420 0) planeSetup = .next t ∧ t.regs.err = .unsupportedFormat) ∧
    (∃ t, (started planeSetup 0).engineTurn = .next t) ∧
    (0x80 ≤ 0x80 ∧ 0x80 ≤ 0xA8 ∧ 0x80 % 4 = 0) ∧ (0x80 ≤ 0xA8 ∧ 0xA8 ≤ 0xA8 ∧ 0xA8 % 4 = 0) ∧
    planeSetup.pendingLayout = none ∧ (started planeSetup 1).pendingLayout = none := by
  refine ⟨⟨by decide, _, rfl⟩, ?_, ⟨_, rfl, rfl⟩, ⟨_, rfl⟩, by decide, by decide, rfl, by decide⟩
  obtain ⟨t, ht, -⟩ := exists_of_endsWell (.copyPlane .i420 .i420 0) planeSetup (by decide)
  exact ⟨t, ht⟩

/-- Two memories that differ outside the read footprint. -/
theorem witness_ResultDependsOnlyOnReadFootprint :
    ∃ s s' t t' plan, State.mem s ≠ State.mem s' ∧ s.mem.wf ∧ s'.mem.wf ∧ s.params = s'.params ∧
      s.platform = s'.platform ∧ s.busFaults = s'.busFaults ∧ s.interfered = s'.interfered ∧
      s.draws = s'.draws ∧ (workOf (.copyPlane .i420 .i420 0) s.params).plan = .ok plan ∧
      (∀ a ∈ plan.readFootprint, s.mem.read a = s'.mem.read a) ∧
      exec (.copyPlane .i420 .i420 0) s = .next t ∧
      exec (.copyPlane .i420 .i420 0) s' = .next t' := by
  obtain ⟨t, ht, -⟩ := exists_of_endsWell (.copyPlane .i420 .i420 0) planeSetup (by decide)
  obtain ⟨t', ht', -⟩ := exists_of_endsWell (.copyPlane .i420 .i420 0)
    { planeSetup with mem := planeSetup.mem.write 0x102 7 } (by decide)
  exact ⟨planeSetup, { planeSetup with mem := planeSetup.mem.write 0x102 7 }, t, t',
    copyPlanePlan planeSetup.params ⟨2, 2⟩, by decide, by decide, by decide, rfl, rfl, rfl, rfl, rfl,
    rfl, by decide, ht, ht'⟩

theorem witness_IdIsConstant : ∃ t, planeSetup.handle .resetInput = .next t := ⟨_, rfl⟩

/-- A write of START, and one of IRQ_EN alone. -/
theorem witness_CtrlReadAndWrite :
    bits 2 2 0x00000001 = 0 ∧ (bits 2 2 0x00000002 = 0 ∧ bits 0 0 0x00000002 = 0) := by decide

/-- A copy whose operands stand in the registers, caches not coherent and lines of 4 bytes: the host has
not cleaned the line behind the source extent. -/
def lineSetup : State :=
  { planeSetup with
    regs := { planeSetup.regs with cmd := 1 },
    platform := { planeSetup.platform with coherent := false, lineBits := 2 }, uncleaned := [0x108] }

/-- A coherent platform, and one with an uncleaned line apart from the buffers. -/
theorem witness_StartLatchesOrIsIgnored :
    bits 0 0 0xFFFFFFFB = 1 ∧ bits 2 2 0xFFFFFFFB = 0 ∧ planeSetup.engine = .idle ∧
    planeSetup.platform.coherent = true ∧ (started planeSetup 1).busy = true ∧
    lineSetup.engine = .idle ∧ lineSetup.platform.coherent = false ∧ 0x108 ∈ lineSetup.uncleaned ∧
    (∀ plan a b, lineSetup.regs.params.plan = some plan → a ∈ lineSetup.uncleaned →
      (lineSetup.platform.line a).contains b = true → plan.touches b = false) := by
  refine ⟨by decide, by decide, rfl, rfl, by decide, rfl, rfl, by decide, fun plan a b hp ha hb => ?_⟩
  have he : lineSetup.regs.params.plan = some (copyPlanePlan planeSetup.params ⟨2, 2⟩) := by decide
  rw [he] at hp
  cases hp
  cases List.mem_singleton.mp ha
  have hm : (copyPlanePlan planeSetup.params ⟨2, 2⟩).meets (lineSetup.platform.line 0x108) = false := by
    decide
  exact (planMeets_false _ _).mp hm b hb

/-- A LAYOUT whose total does not fit 32 bits, running, with LAYOUT_OVF already seen set. -/
def overflowing : State :=
  let s := started (setup 65536 65536 noSlots []) 4
  { s with regs := { s.regs with layoutOvf := true } }

theorem consistent_overflowing : Consistent overflowing := by
  refine ⟨by decide, ⟨by decide, by decide, by decide⟩, fun l f h => ?_, by decide, by decide,
    by decide, by decide⟩
  cases h
  exact ⟨rfl, rfl, rfl, rfl, rfl, fun _ => ⟨layoutI420 ⟨65536, 65536⟩, by decide, by decide⟩⟩

/-- The two ends of the table of codes, an IDLE block, a BUSY one whose layout fits 32 bits, and a BUSY one that has set LAYOUT_OVF: what
its STATUS read shows, and an event it meets. -/
theorem witness_StatusFields :
    (∀ e ∈ [(ErrCode.none, 0), (.busError, 6)],
      (e.1, e.2) ∈ [(ErrCode.none, 0), (.invalidDimensions, 1), (.bufferTooSmall, 2),
        (.unsupportedAngle, 3), (.unsupportedFormat, 4), (.illegalCommand, 5), (.busError, 6)]) ∧
    (∀ l, planeSetup.pendingLayout = some l → l.total < 2 ^ 32) ∧
    (∀ l, (started planeSetup 4).pendingLayout = some l → l.total < 2 ^ 32) ∧
    Consistent overflowing ∧ overflowing.regs.layoutOvf = true ∧
    (∃ t, overflowing.handle (.regRead 0x08 4) = .next t) ∧
    ∃ t, overflowing.regRead 0x08 4 = .next t ∧ bits 2 2 t.readData = 1 := by
  refine ⟨by decide, fun l (h : (none : Option TightLayout) = some l) => (nomatch h), fun l h => ?_,
    consistent_overflowing, rfl, ⟨_, rfl⟩, ?_⟩
  · have he : (started planeSetup 4).pendingLayout = some (layoutI420 ⟨2, 2⟩) := by decide
    rw [he] at h
    cases h
    decide
  · obtain ⟨t, ht, h⟩ := exists_of_nextHas (overflowing.regRead 0x08 4)
      (fun t => decide (bits 2 2 t.readData = 1)) (by decide)
    exact ⟨t, ht, of_decide_eq_true h⟩

theorem consistent_started : Consistent (started planeSetup 1) := by
  refine ⟨by decide, ⟨by decide, by decide, by decide⟩, ?_, by decide, by decide, by decide⟩
  intro l f h
  cases h
  exact ⟨rfl, rfl, rfl, rfl, rfl, fun h => nomatch h⟩

theorem witness_StatusWriteClearsDone :
    Consistent (started planeSetup 1) ∧ (started planeSetup 1).busy = true :=
  ⟨consistent_started, rfl⟩

/-- The first and the last operand register. -/
theorem witness_OperandRegistersReadBack :
    planeSetup.engine = .idle ∧ (0x10 ≤ 0x10 ∧ 0x10 < 0x7C ∧ 0x10 % 4 = 0 ∧ 0x10 % 16 ≠ 12) ∧
    (0x10 ≤ 0x78 ∧ 0x78 < 0x7C ∧ 0x78 % 4 = 0 ∧ 0x78 % 16 ≠ 12) := by decide

theorem witness_BusyIgnoresOperandWrites :
    (started planeSetup 1).busy = true ∧ (0x10 ≤ 0x10 ∧ 0x10 < 0x80 ∧ 0x10 % 4 = 0) ∧
    (0x10 ≤ 0x7C ∧ 0x7C < 0x80 ∧ 0x7C % 4 = 0) := by decide

/-- The first and the last reserved offset of each range. -/
theorem witness_ReservedReadsZeroIgnoresWrites :
    (0x1C % 4 = 0 ∧ 0x10 ≤ 0x1C ∧ 0x1C < 0x80 ∧ 0x1C % 16 = 12) ∧
    (0x7C % 4 = 0 ∧ 0x10 ≤ 0x7C ∧ 0x7C < 0x80 ∧ 0x7C % 16 = 12) ∧
    (0xAC % 4 = 0 ∧ 0xAC ≤ 0xAC ∧ 0xAC < 0x100) ∧ (0xFC % 4 = 0 ∧ 0xAC ≤ 0xFC ∧ 0xFC < 0x100) := by
  decide

/-- An 8-bit access, and a misaligned 32-bit access. -/
theorem witness_OtherRegisterAccessRefused : ((1 : Nat) ≠ 4 ∨ 0x00 % 4 ≠ 0) ∧
    ((4 : Nat) ≠ 4 ∨ 0x02 % 4 ≠ 0) := by decide

/-- Each way `irq` falls can happen. -/
theorem witness_IrqLevelAndItsFalls :
    (bits 1 1 2 = 1 ∧ ∃ t, planeSetup.regWrite 0x08 4 2 = .next t) ∧
    (bits 1 1 1 = 0 ∧ ∃ t, planeSetup.regWrite 0x04 4 1 = .next t) ∧
    (bits 0 0 3 = 1 ∧ planeSetup.engine = .idle ∧ ∃ t, planeSetup.regWrite 0x04 4 3 = .next t) ∧
    (bits 2 2 4 = 1 ∧ ∃ t, planeSetup.regWrite 0x04 4 4 = .next t) ∧
    ∃ t, planeSetup.handle .resetInput = .next t :=
  ⟨⟨by decide, _, rfl⟩, ⟨by decide, _, rfl⟩, ⟨by decide, rfl, _, rfl⟩, ⟨by decide, _, rfl⟩, _, rfl⟩

/-- Memory while no command runs, and while one runs that will end with ILLEGAL_COMMAND. -/
theorem witness_ResetState : bits 2 2 4 = 1 ∧ planeSetup.runningPlan = none ∧
    (∃ t, planeSetup.regWrite 0x04 4 4 = .next t) ∧ (∃ t, planeSetup.handle .resetInput = .next t) ∧
    (started planeSetup 0).busy = true ∧ (started planeSetup 0).runningPlan = none ∧
    ∃ t, (started planeSetup 0).handle .resetInput = .next t :=
  ⟨by decide, rfl, ⟨_, rfl⟩, ⟨_, rfl⟩, by decide, by decide, _, rfl⟩

theorem witness_ResetAbandonsTheCommand :
    (started planeSetup 1).mem.wf ∧
    (started planeSetup 1).runningPlan = some (copyPlanePlan planeSetup.params ⟨2, 2⟩) ∧
    OrdinaryBuffers (started planeSetup 1) (copyPlanePlan planeSetup.params ⟨2, 2⟩) ∧
    bits 2 2 4 = 1 :=
  ⟨by decide, by decide, (forbids_iff _ _).mp (by decide), by decide⟩

theorem hostAddress_of (s : State) (addr : Word) (h1 : s.platform.window.contains (uint32 addr) = false)
    (h2 : s.platform.devices = []) : HostAddress s addr := ⟨h1, by rw [h2]; simp⟩

/-- While the copy runs, at an address outside its buffers; and without coherent caches, in one cache
line with its source extent. -/
theorem witness_HostWriteIsReadBack :
    ((started planeSetup 1).mem.wf ∧ HostAddress (started planeSetup 1) 0x300 ∧
      (started planeSetup 1).platform.coherent = true ∧
      (started planeSetup 1).runningTouches (uint32 0x300) = false ∧
      ∀ p ∈ (started planeSetup 1).unseen, p.touches (uint32 0x300) = false) ∧
    (started lineSetup 1).mem.wf ∧ HostAddress (started lineSetup 1) 0x106 ∧
      (started lineSetup 1).platform.coherent = false ∧
      (started lineSetup 1).runningTouches (uint32 0x106) = false ∧
      (∀ p ∈ (started lineSetup 1).unseen, p.touches (uint32 0x106) = false) ∧
      uint32 0x106 ∉ (started lineSetup 1).uncleaned :=
  ⟨⟨by decide, hostAddress_of _ _ (by decide) rfl, rfl, by decide, by decide⟩, by decide,
    hostAddress_of _ _ (by decide) rfl, rfl, by decide, by decide, by decide⟩

/-- A padding byte of the source extent, written by a host or another bus master. -/
theorem witness_HostWriteDisturbsTheCommand :
    (∀ e ∈ [Event.memWrite 0x102 7, .busWrite 0x102 7],
      e = .memWrite 0x102 7 ∨ e = .busWrite 0x102 7) ∧
    (started planeSetup 1).mem.wf ∧
    (started planeSetup 1).engine = .busy { planeSetup.regs.params with cmd := 1 } false ∧
    decodeWord 1 = .ok (.copyPlane .i420 .i420 0) ∧
    (workOf (.copyPlane .i420 .i420 0) { planeSetup.regs.params with cmd := 1 }).plan =
      .ok (copyPlanePlan planeSetup.params ⟨2, 2⟩) ∧
    (copyPlanePlan planeSetup.params ⟨2, 2⟩).touches (uint32 0x102) = true ∧
    (∀ p ∈ (started planeSetup 1).unseen, p.touches (uint32 0x102) = false) ∧
    HostAddress (started planeSetup 1) 0x102 ∧
    OrdinaryBuffers (started planeSetup 1) (copyPlanePlan planeSetup.params ⟨2, 2⟩) ∧
    NoBusFault (started planeSetup 1) (copyPlanePlan planeSetup.params ⟨2, 2⟩) :=
  ⟨by decide, by decide, by decide, by decide, rfl, by decide, by decide, hostAddress_of _ _ (by decide) rfl,
    (forbids_iff _ _).mp (by decide), noBusFault_of _ _ rfl⟩

/-- The last byte of the write footprint, and the padding byte behind it. -/
theorem witness_HostReadWhileRunning :
    (started planeSetup 1).runningPlan = some (copyPlanePlan planeSetup.params ⟨2, 2⟩) ∧
    HostAddress (started planeSetup 1) 0x205 ∧ HostAddress (started planeSetup 1) 0x206 ∧
    uint32 0x205 ∈ (copyPlanePlan planeSetup.params ⟨2, 2⟩).writeFootprint ∧
    uint32 0x206 ∉ (copyPlanePlan planeSetup.params ⟨2, 2⟩).writeFootprint ∧
    (∀ p ∈ (started planeSetup 1).unseen, uint32 0x206 ∉ p.writeFootprint) ∧
    (started planeSetup 1).platform.coherent = true ∧
    (Event.busRead 0x206 = .busRead 0x206 ∧ uint32 0x206 ∉ (started lineSetup 1).uncleaned) :=
  ⟨by decide, hostAddress_of _ _ (by decide) rfl, hostAddress_of _ _ (by decide) rfl, by decide,
    by decide, by decide, rfl, rfl, by decide⟩

/-- A block whose command has ended with the interrupt enabled. -/
def endedSetup : State :=
  { planeSetup with
    regs := { planeSetup.regs with done := true, irqEn := true },
    unseen := [(copyPlanePlan planeSetup.params ⟨2, 2⟩).buffers] }

theorem witness_ResultSeenAfterDone :
    endedSetup.engine = .idle ∧ endedSetup.platform.coherent = true ∧ HostAddress endedSetup 0x205 ∧
    endedSetup.regs.done = true ∧ endedSetup.irq = true :=
  ⟨rfl, rfl, hostAddress_of _ _ (by decide) rfl, rfl, rfl⟩

/-- A read and a write inside the buffers, and a byte that the write leaves alone. -/
theorem witness_UnseenEndKeepsBuffersOpen :
    (copyPlanePlan planeSetup.params ⟨2, 2⟩).buffers ∈ endedSetup.unseen ∧
    HostAddress endedSetup 0x205 ∧
    uint32 0x205 ∈ (copyPlanePlan planeSetup.params ⟨2, 2⟩).buffers.writeFootprint ∧
    endedSetup.mem.wf ∧
    (copyPlanePlan planeSetup.params ⟨2, 2⟩).buffers.touches (uint32 0x205) = true ∧
    0x206 ≠ uint32 0x205 ∧
    (∀ q ∈ endedSetup.unseen, q.touches (uint32 0x205) = true → 0x206 ∉ q.writeFootprint) :=
  ⟨by simp [endedSetup], hostAddress_of _ _ (by decide) rfl, by decide, by decide, by decide,
    by decide, by decide⟩

/-- As `lineSetup`, but the host has not cleaned a byte of the last line of the source extent, and has
not invalidated a byte of the destination. -/
def uncleanedSetup : State :=
  { lineSetup with uncleaned := [0x106], stale := [0x200] }

/-- The copy runs, and the host has written the byte behind its source extent. -/
def beside : State := { started lineSetup 1 with uncleaned := [0x106] }

/-- The copy runs, and the host has written a padding byte of its destination. -/
def inLine : State := { started lineSetup 1 with uncleaned := [0x202] }

/-- 0x106 lies behind the source extent and 0x104 in it, in one line; then a clean over all buffers; then
a host's bytes beside the source extent and in a line of the destination, while the copy runs. -/
theorem witness_UncleanedBuffersAreUnspecified :
    (uncleanedSetup.mem.wf ∧ uncleanedSetup.platform.coherent = false ∧
      0x106 ∈ uncleanedSetup.uncleaned ∧
      decodeWord uncleanedSetup.regs.cmd = .ok (.copyPlane .i420 .i420 0) ∧
      (workOf (.copyPlane .i420 .i420 0) uncleanedSetup.regs.params).plan =
        .ok (copyPlanePlan planeSetup.params ⟨2, 2⟩) ∧
      (copyPlanePlan planeSetup.params ⟨2, 2⟩).touches 0x106 = false ∧
      (uncleanedSetup.platform.line 0x106).contains 0x104 = true ∧
      (copyPlanePlan planeSetup.params ⟨2, 2⟩).touches 0x104 = true ∧
      OrdinaryBuffers uncleanedSetup (copyPlanePlan planeSetup.params ⟨2, 2⟩) ∧
      NoBusFault uncleanedSetup (copyPlanePlan planeSetup.params ⟨2, 2⟩)) ∧
    uncleanedSetup.regs.params.plan = some (copyPlanePlan planeSetup.params ⟨2, 2⟩) ∧
    (∀ b, (copyPlanePlan planeSetup.params ⟨2, 2⟩).touches b = true →
      (Region.mk 0x100 0x200).contains b = true) ∧ 0x106 ∉ uncleanedSetup.stale ∧
    (∀ a ∈ beside.uncleaned, ∀ b, (beside.platform.line a).contains b = true →
      beside.runningWrites b = false ∧ (b ∈ beside.stale → beside.runningTouches b = false)) ∧
    (inLine.platform.coherent = false ∧
      inLine.engine = .busy { lineSetup.regs.params with cmd := 1 } false ∧
      ({ lineSetup.regs.params with cmd := 1 } : Params).plan =
        some (copyPlanePlan planeSetup.params ⟨2, 2⟩) ∧ 0x202 ∈ inLine.uncleaned ∧
      (Region.mk 0x202 1).meets (inLine.platform.line 0x202) = true ∧
      (inLine.platform.line 0x202).contains 0x201 = true ∧
      0x201 ∈ (copyPlanePlan planeSetup.params ⟨2, 2⟩).writeFootprint) := by
  refine ⟨⟨by decide, rfl, by decide, by decide, rfl, by decide, by decide, by decide,
    (forbids_iff _ _).mp (by decide), noBusFault_of _ _ rfl⟩, by decide, fun b hb => ?_, by decide,
    fun a ha b hb => ?_, rfl, by decide, by decide, by decide, by decide, by decide, by decide⟩
  rcases (touches_iff _ _).mp hb with ⟨v, hv, hc⟩ | hw
  · have he : (copyPlanePlan planeSetup.params ⟨2, 2⟩).sources = [⟨0x100, 3, 2, 2⟩] := by decide
    rw [he] at hv
    cases List.mem_singleton.mp hv
    simp only [View.extent, contains_iff] at hc ⊢
    omega
  · have he : ∀ a ∈ (copyPlanePlan planeSetup.params ⟨2, 2⟩).writeFootprint,
        (Region.mk 0x100 0x200).contains a = true := by decide
    exact he b hw
  · cases List.mem_singleton.mp ha
    have hw : beside.runningWritesIn (beside.platform.line 0x106) = false := by decide
    exact ⟨(runningWritesIn_false _ _).mp hw b hb, fun h => nomatch h⟩

/-- A clean invalidation of the destination, with no end unseen and with one. -/
theorem witness_InvalidateBeforeReading :
    uncleanedSetup.platform.coherent = false ∧ uncleanedSetup.engine = .idle ∧
    HostAddress uncleanedSetup 0x200 ∧ uint32 0x200 ∈ uncleanedSetup.stale ∧
    (Region.mk 0x200 8).contains (uint32 0x200) = true ∧
    (∀ a ∈ uncleanedSetup.uncleaned, ∀ b, (uncleanedSetup.platform.line a).contains b = true →
      (Region.mk 0x200 8).contains b = false) ∧
    (∀ p ∈ uncleanedSetup.unseen, uint32 0x200 ∉ p.writeFootprint) ∧
    ∃ p ∈ ({ uncleanedSetup with unseen := endedSetup.unseen } : State).unseen,
      uint32 0x200 ∈ p.writeFootprint := by
  refine ⟨rfl, rfl, hostAddress_of _ _ (by decide) rfl, by decide, by decide, fun a ha b hb => ?_,
    by decide, _, List.mem_singleton_self _, by decide⟩
  cases List.mem_singleton.mp ha
  have he : uncleanedSetup.platform.line 0x106 = ⟨0x104, 4⟩ := by decide
  rw [he, contains_iff] at hb
  rw [Bool.eq_false_iff, ne_eq, contains_iff]
  simp only at hb ⊢
  omega

theorem witness_StepKeepsConsistent :
    Consistent (started planeSetup 1) ∧ ∃ t, step (started planeSetup 1) = .next t := by
  obtain ⟨t, ht, -⟩ := exists_of_nextHas (step (started planeSetup 1)) (statusIs 0x2) (by decide)
  exact ⟨consistent_started, t, ht⟩

theorem witness_BusyReadsOnlyBusy :
    Consistent (started planeSetup 1) ∧ (started planeSetup 1).busy = true ∧
    ∀ l, (started planeSetup 1).pendingLayout = some l → l.total < 2 ^ 32 :=
  ⟨consistent_started, rfl, fun l h => by cases h⟩

end Sys2Proof.Tests
end

/-! SUPPORT. The rules of a host's register access: what a read and a write do at the offset of a
register and at a reserved offset, which bits of a written word CTRL and STATUS look at, and when `irq`
is low. With them, the statements on ID, on reserved offsets and bits, and on `irq` are settled. -/

namespace Sys2Proof.RegisterPort

open Sys2Proof Sys2Proof.Machine

/-! ### Bits of a word -/

/-- The three low bits of a word one by one: they are CTRL's bits (R23). -/
theorem bits_of_low_three (v : Word) :
    bits 0 0 v = bits 2 0 v % 2 ∧ bits 1 1 v = bits 2 0 v / 2 % 2 ∧
    bits 2 2 v = bits 2 0 v / 4 % 2 := by
  simp only [bits]
  omega

theorem bits_ctrlWord (irqEn : Bool) : bits 31 3 (ctrlWord irqEn) = 0 := by
  cases irqEn <;> rfl

/-! ### Offsets -/

/-- Registers stand at multiples of 4 up to L_TOTAL, and the last word of each row of 16 bytes from CMD
to the sixth slot holds none (R21). -/
theorem offset_range (r : Reg) :
    r.offset % 4 = 0 ∧ r.offset ≤ 0xA8 ∧
    (0x10 ≤ r.offset → r.offset < 0x80 → r.offset % 16 ≠ 12) := by
  cases r with
  | slotAddr n => cases n <;> decide
  | slotLen n => cases n <;> decide
  | slotStride n => cases n <;> decide
  | _ => decide

theorem accessDefined_of_aligned {o : Nat} (h4 : o % 4 = 0) (hlt : o < 0x100) :
    accessDefined o 4 = true :=
  decide_eq_true ⟨rfl, h4, hlt⟩

theorem accessDefined_offset (r : Reg) : accessDefined r.offset 4 = true := by
  obtain ⟨h4, hle, -⟩ := offset_range r
  exact accessDefined_of_aligned h4 (by omega)

/-- The offsets that R33 lists hold no register. -/
theorem regAt_reserved {o : Nat}
    (h : (0x10 ≤ o ∧ o < 0x80 ∧ o % 16 = 12) ∨ (0xAC ≤ o ∧ o < 0x100)) : regAt o = none := by
  refine Option.eq_none_iff_forall_ne_some.mpr fun r hr => ?_
  obtain rfl := regAt_some o r hr
  obtain ⟨-, hle, hrow⟩ := offset_range r
  rcases h with ⟨hlo, hhi, hlast⟩ | ⟨hlo, -⟩
  · exact hrow hlo hhi hlast
  · omega

/-! ### Register reads -/

theorem readOffset_offset (s : State) (r : Reg) : s.readOffset r.offset = s.readReg r := by
  rw [State.readOffset, regAt_offset]

theorem readOffset_reserved (s : State) {o : Nat} (h : regAt o = none) : s.readOffset o = 0 := by
  rw [State.readOffset, h]

/-- A read at any offset but that of STATUS shows in the model's own fields only (log 15). -/
theorem regRead_of_ne_status (s : State) {o : Nat} (ha : accessDefined o 4 = true) (ho : o ≠ 0x08) :
    s.regRead o 4 = .next { s with readData := s.readOffset o, draws := s.draws + 1 } := by
  rcases regsAfterRead_cases s o with ⟨h8, -⟩ | ⟨-, hregs⟩
  · exact absurd h8 ho
  · simp [State.regRead, ha, hregs, State.unseenAfter, ho]

/-! ### Register writes -/

theorem regWrite_offset (s : State) (r : Reg) (v : Word) :
    s.regWrite r.offset 4 v = s.writeReg r v := by
  simp [State.regWrite, accessDefined_offset, regAt_offset]

theorem regWrite_reserved (s : State) {o : Nat} (ha : accessDefined o 4 = true)
    (h : regAt o = none) (v : Word) : s.regWrite o 4 v = .next s := by
  simp [State.regWrite, ha, h]

theorem regWrite_ctrl (s : State) (v : Word) : s.regWrite 0x04 4 v = s.writeCtrl v :=
  regWrite_offset s .ctrl v

theorem regWrite_status (s : State) (v : Word) : s.regWrite 0x08 4 v = .next (s.writeStatus v) :=
  regWrite_offset s .status v

theorem writeCtrl_congr (s : State) {v w : Word} (h : bits 2 0 v = bits 2 0 w) :
    s.writeCtrl v = s.writeCtrl w := by
  obtain ⟨hv0, hv1, hv2⟩ := bits_of_low_three v
  obtain ⟨hw0, hw1, hw2⟩ := bits_of_low_three w
  simp only [State.writeCtrl, hv0, hv1, hv2, hw0, hw1, hw2, h]

theorem writeStatus_congr (s : State) {v w : Word} (h : bits 1 1 v = bits 1 1 w) :
    s.writeStatus v = s.writeStatus w := by
  simp only [State.writeStatus, h]

theorem writeStatus_done {s : State} {v : Word} (h : bits 1 1 v = 1) :
    (s.writeStatus v).regs.done = false := by
  simp [State.writeStatus, h]

/-! ### The interrupt level -/

theorem irq_iff (s : State) : s.irq = true ↔ s.regs.done = true ∧ s.regs.irqEn = true := by
  rw [State.irq, Bool.and_eq_true]

theorem irq_low_of_done {s : State} (h : s.regs.done = false) : s.irq = false := by
  rw [State.irq, h, Bool.false_and]

theorem irq_low_of_irqEn {s : State} (h : s.regs.irqEn = false) : s.irq = false := by
  rw [State.irq, h, Bool.and_false]

theorem irq_low_of_reset {s t : State} (h : s.resetBlock = .next t) : t.irq = false := by
  obtain ⟨hregs, -⟩ := resetBlock_next s t h
  exact irq_low_of_done (by rw [hregs]; rfl)

/-- The three writes of CTRL that leave `irq` low: a software reset and an accepted START clear DONE,
and any other write takes IRQ_EN from bit 1 (R23, R24, R25). -/
theorem irq_low_of_writeCtrl {s t : State} {v : Word} (h : s.writeCtrl v = .next t)
    (hv : bits 1 1 v = 0 ∨ (bits 0 0 v = 1 ∧ s.busy = false) ∨ bits 2 2 v = 1) : t.irq = false := by
  rcases writeCtrl_cases s v with ⟨-, hreset⟩ | ⟨-, -, -, hstart⟩ | ⟨hno, hidle, hplain⟩
  · exact irq_low_of_reset (hreset.symm.trans h)
  · rw [hstart] at h
    cases h
    exact irq_low_of_done rfl
  · have h1 : bits 1 1 v = 0 := hv.resolve_right (not_or.mpr ⟨hidle, hno⟩)
    rw [hplain] at h
    cases h
    exact irq_low_of_irqEn (by simp [h1])

/-! ### The statements -/

/-- Settles O46: no register stands at a reserved offset, and CTRL and STATUS hold and take no other
bits than their own. -/
theorem reservedReadsZeroIgnoresWrites : Obligations.ReservedReadsZeroIgnoresWrites := by
  intro s offset v
  have hctrl : s.readOffset 0x04 = ctrlWord s.regs.irqEn := readOffset_offset s .ctrl
  have hstatus : s.readOffset 0x08 =
      statusWord s.busy s.regs.done s.readLayoutOvf s.regs.err s.regs.errSlot :=
    readOffset_offset s .status
  obtain ⟨-, -, -, hbit3, -, -, hhigh⟩ :=
    bits_statusWord s.busy s.regs.done s.readLayoutOvf s.regs.err s.regs.errSlot
  refine ⟨fun h4 hres => ?_, by rw [hctrl, bits_ctrlWord], by rw [hstatus, hbit3],
    by rw [hstatus, hhigh], fun w hw => ?_, fun w hw => ?_⟩
  · have hnone := regAt_reserved hres
    have ha := accessDefined_of_aligned h4 (by omega)
    refine ⟨?_, regWrite_reserved s ha hnone v⟩
    rw [regRead_of_ne_status s ha (by omega), readOffset_reserved s hnone]
  · rw [regWrite_ctrl, regWrite_ctrl, writeCtrl_congr s hw]
  · rw [regWrite_status, regWrite_status, writeStatus_congr s hw]

/-- Settles O48: each of the five ways leaves DONE or IRQ_EN at 0. -/
theorem irqLevelAndItsFalls : Obligations.IrqLevelAndItsFalls := by
  intro s t v
  rw [regWrite_ctrl, regWrite_status]
  refine ⟨irq_iff s, fun hv h => ?_, fun hv h => irq_low_of_writeCtrl h (.inl hv),
    fun hv hi h => irq_low_of_writeCtrl h (.inr (.inl ⟨hv, busy_of_idle s hi⟩)),
    fun hv h => irq_low_of_writeCtrl h (.inr (.inr hv)), fun h => irq_low_of_reset h⟩
  cases h
  exact irq_low_of_done (writeStatus_done hv)

/-- Settles O39: the register at offset 0 is the constant, and it has no storage. -/
theorem idIsConstant : Obligations.IdIsConstant := by
  intro s v
  have hid (t : State) : t.readOffset 0x00 = 0x53504331 := readOffset_offset t .id
  refine ⟨?_, regWrite_offset s .id v, fun t _ => hid t⟩
  rw [regRead_of_ne_status s (o := 0x00) (accessDefined_offset .id) (by decide), hid]

end Sys2Proof.RegisterPort

/-! SUPPORT. The layout arithmetic: what `ceilHalf` rounds to, which fields the two layouts share, and
what the planes take when nothing is rounded. With it, the law of the layout (R115) is settled. -/

namespace Sys2Proof.LayoutArithmetic

open Sys2Proof Sys2Proof.Machine

/-! ### `ceilHalf` -/

/-- Halving in the naturals after adding 1 is the rational half rounded up. -/
theorem ceilHalf_eq_ceil (n : Nat) : (ceilHalf n : Int) = ⌈(n : ℚ) / 2⌉ := by
  have hceil : ⌈(n : ℚ) / 2⌉ = -((-n) / 2 : Int) := Rat.ceil_natCast_div_natCast n 2
  rw [hceil, ceilHalf]
  omega

theorem two_mul_ceilHalf (n : Nat) : 2 * ceilHalf n = n ∨ 2 * ceilHalf n = n + 1 := by
  unfold ceilHalf
  omega

@[simp] theorem ceilHalf_two_mul (n : Nat) : ceilHalf (2 * n) = n := by
  unfold ceilHalf
  omega

/-! ### The fields of the two layouts -/

@[simp] theorem layoutI420_cw (d : Dims) : (layoutI420 d).cw = ceilHalf d.w := rfl

@[simp] theorem layoutI420_ch (d : Dims) : (layoutI420 d).ch = ceilHalf d.h := rfl

@[simp] theorem layoutI420_total (d : Dims) :
    (layoutI420 d).total = d.w * d.h + 2 * ceilHalf d.w * ceilHalf d.h := rfl

@[simp] theorem layoutNv12_cw (d : Dims) : (layoutNv12 d).cw = (layoutI420 d).cw := rfl

@[simp] theorem layoutNv12_ch (d : Dims) : (layoutNv12 d).ch = (layoutI420 d).ch := rfl

/-- One UV plane of doubled rows is as large as a U and a V plane. -/
@[simp] theorem layoutNv12_total (d : Dims) : (layoutNv12 d).total = (layoutI420 d).total := rfl

/-- Without rounding, each chroma plane is a quarter of the luma plane. -/
theorem layoutI420_total_of_even {d : Dims} (hw : 2 ∣ d.w) (hh : 2 ∣ d.h) :
    (layoutI420 d).total = 3 * d.w * d.h / 2 := by
  obtain ⟨a, ha⟩ := hw
  obtain ⟨b, hb⟩ := hh
  rw [layoutI420_total, ha, hb, ceilHalf_two_mul, ceilHalf_two_mul]
  refine (Nat.div_eq_of_eq_mul_right two_pos ?_).symm
  ring

/-! ### The statement -/

/-- Settles O26: the chroma dimensions are `ceilHalf` of the dimensions in both layouts. It holds for
empty images too, so neither bound on the dimensions is used. -/
theorem layoutLaw : Obligations.LayoutLaw := fun d _ _ =>
  ⟨ceilHalf_eq_ceil d.w, ceilHalf_eq_ceil d.h, two_mul_ceilHalf d.w, two_mul_ceilHalf d.h,
    layoutNv12_cw d, layoutNv12_ch d, layoutNv12_total d, layoutI420_total_of_even⟩

end Sys2Proof.LayoutArithmetic

/-! SUPPORT. ROTATE at angle 0: each part of its work is the part of IMAGE_COPY's work in the same step
of R162. With it, the statement that ROTATE by 0 is IMAGE_COPY (R171) is settled. -/

namespace Sys2Proof.ImageRotation

open Sys2Proof Sys2Proof.Machine

/-! ### The parts at angle 0 -/

@[simp] theorem rotationOf_zero : rotationOf 0 = .ok .r0 := rfl

@[simp] theorem rotated_r0 (d : Dims) : d.rotated .r0 = d := rfl

/-- The loop of R145 without a turn is the loop of R120: same bytes in the same order. -/
@[simp] theorem rotateMoves_r0 (s d : View) : rotateMoves .r0 s d = copyMoves s d := rfl

@[simp] theorem rotatePlan_r0 (p : Params) (tight : Bool) (d : Dims) :
    rotatePlan p tight .r0 d = imageCopyPlan p tight d := by
  simp only [rotatePlan, imageCopyPlan, rotated_r0, rotateMoves_r0]

@[simp] theorem rotateBuffers_r0 (tight : Bool) (p : Params) (d : Dims) :
    rotateBuffers tight p .r0 d = imageCopyBuffers tight p d := by
  simp only [rotateBuffers, imageCopyBuffers, rotated_r0, rotatePlan_r0]

/-- The angle check between the formats and the dimensions passes, so the first error is the same. -/
theorem rotateChecks_zero (tight : Bool) (dst src : FmtTag) (p : Params) :
    rotateChecks tight dst src 0 p = (imageCopyChecks tight dst src p).map (Prod.mk .r0) := by
  unfold rotateChecks imageCopyChecks
  cases imageFormats .i420 tight dst src with
  | error e => rfl
  | ok _ =>
    rw [rotationOf_zero]
    cases dimensions p with
    | error e => rfl
    | ok d => rfl

/-! ### The work and the statement -/

/-- A change of the checks' result moves into what follows the checks. -/
theorem withLayout_map {α β : Type} (checks : Except CommandError α) (f : α → β)
    (layout : β → TightLayout) (plan : β → Except CommandError Plan) :
    Work.withLayout (checks.map f) layout plan =
      Work.withLayout checks (fun x => layout (f x)) (fun x => plan (f x)) := by
  cases checks <;> rfl

/-- R171 for the work, from which `runWork` takes the error codes, layout registers and memory. -/
theorem workRotate_zero (tight : Bool) (dst src : FmtTag) (p : Params) :
    workRotate tight dst src 0 p = workImageCopy tight dst src p := by
  simp only [workRotate, workImageCopy, rotateChecks_zero, withLayout_map, rotated_r0,
    rotateBuffers_r0]

/-- Settles O24: both commands hand the same work to `runWork`. -/
theorem rotateByZeroIsImageCopy : Obligations.RotateByZeroIsImageCopy := fun tight dst src _ s =>
  congrArg s.runWork (workRotate_zero tight dst src s.params)

end Sys2Proof.ImageRotation

/-! SUPPORT. The errors of a command's checks: what a command whose checks raise before the layout step
ends as, and which errors a command whose tags and angle are accepted can still report (R183). With
them, the statements on formats and angles (R184) and on bad dimensions (R185) are settled. -/

namespace Sys2Proof.CheckErrors

open Sys2Proof Sys2Proof.Machine Sys2Proof.Safety

/-! ### Errors raised before the layout step -/

/-- Any error but a bus fault leaves 0 in ERR_ADDR (R181). -/
theorem raise_eq_failed (s : State) {e : CommandError} (h : e.errAddr = 0) :
    s.raise e = failed s s.regs e.errCode e.errSlot := by
  rw [State.raise, h, failed]

/-- Without a layout step, only the outcome and the phase change. -/
theorem exec_eq_failed {i : Instr} {s : State} {e : CommandError}
    (hw : workOf i s.params = { layout := none, plan := .error e }) (h : e.errAddr = 0) :
    exec i s = .next (failed s s.regs e.errCode e.errSlot) := by
  rw [exec_error i s none e hw, layoutStep_none, raise_eq_failed s h]

/-! ### Errors left when tags and angle are accepted -/

/-- The error a command ends with: none, a bus fault, or the error its checks raised. -/
theorem err_of_exec {i : Instr} {s t : State} (h : exec i s = .next t) :
    t.regs.err = .none ∨ t.regs.err = .busError ∨
      ∃ e, (workOf i s.params).plan = .error e ∧ t.regs.err = e.errCode := by
  rcases exec_cases i s with ⟨e, hw, hx⟩ | ⟨plan, -, -, ⟨-, hx⟩ | ⟨-, -, hx⟩ | ⟨-, -, hx⟩⟩
  all_goals rw [hx] at h
  all_goals cases h
  · exact .inr (.inr ⟨e, hw, rfl⟩)
  · exact .inl rfl
  · exact .inr (.inl rfl)

/-- The checks behind the formats and the angle are those of the dimensions and the buffers. -/
theorem workOf_error_of_accepted {i : Instr} {p : Params} {e : CommandError}
    (hf : formatsAccepted i = true) (ha : angleAccepted i = true)
    (h : (workOf i p).plan = .error e) :
    e = .invalidDimensions ∨ ∃ n, e = .bufferTooSmall n := by
  rcases workOf_error i p e h with ⟨hf', -⟩ | ⟨-, ha', -⟩ | ⟨-, -, -, he, -⟩ |
    ⟨-, -, d, n, -, he, -⟩
  · exact absurd hf (by simp [hf'])
  · exact absurd ha (by simp [ha'])
  · exact .inl he
  · exact .inr ⟨n, he⟩

theorem err_of_accepted {i : Instr} {s t : State} (hf : formatsAccepted i = true)
    (ha : angleAccepted i = true) (h : exec i s = .next t) :
    t.regs.err ∈ [ErrCode.none, .busError, .invalidDimensions, .bufferTooSmall] := by
  rcases err_of_exec h with ht | ht | ⟨e, he, ht⟩
  · simp [ht]
  · simp [ht]
  · rcases workOf_error_of_accepted hf ha he with rfl | ⟨n, rfl⟩
    · simp [ht, CommandError.errCode]
    · simp [ht, CommandError.errCode]

/-! ### The statements -/

/-- Settles O28: the first two clauses are the first two errors of R183, and neither is among those
left when tags and angle are accepted. -/
theorem formatsAndAnglesAccepted : Obligations.FormatsAndAnglesAccepted := by
  intro i s
  refine ⟨fun hf => exec_eq_failed (workOf_badFormat i s.params hf) rfl,
    fun hf ha => exec_eq_failed (workOf_badAngle i s.params hf ha) rfl, fun hf ha t h => ?_⟩
  have hmem := err_of_accepted hf ha h
  constructor
  · intro ht
    simp [ht] at hmem
  · intro ht
    simp [ht] at hmem

/-- Settles O29: the dimension check stands before the layout step in every command. -/
theorem badDimensionsRaised : Obligations.BadDimensionsRaised := fun i s hf ha hbad =>
  exec_eq_failed (workOf_badDims i s.params hf ha hbad) rfl

end Sys2Proof.CheckErrors

/-! SUPPORT. The decoder as a function of the fields of a word, and the word as a function of its
fields. With them, the statements on encoding (R98 to R103) are settled. -/

namespace Sys2Proof.EncodingLaws

open Sys2Proof

/-! ### The decoder behind the reserved bits -/

/-- What the decoder answers for the fields of a word whose reserved fields are 0 (R92, R98). -/
def commandOf (op : Nat) (tight : Bool) (dst src : FmtTag) (angle : Nat) :
    Except DecodeReject Instr :=
  match op with
  | 1 => if tight then .error .tightPrimitive else .ok (.copyPlane dst src angle)
  | 2 => if tight then .error .tightPrimitive else .ok (.interleaveUv dst src angle)
  | 3 => if tight then .error .tightPrimitive else .ok (.rotatePlane dst src angle)
  | 4 => if tight then .error .tightPrimitive else .ok (.layout dst src angle)
  | 5 => .ok (.imageCopy tight dst src angle)
  | 6 => .ok (.convertNv12 tight dst src angle)
  | 7 => .ok (.rotate tight dst src angle)
  | _ => .error .illegalOp

/-- A reserved field of the word is not 0 (R98). -/
abbrev Reserved (c : Word) : Prop := bits 7 5 c ≠ 0 ∨ bits 11 10 c ≠ 0 ∨ bits 15 14 c ≠ 0

theorem decodeWord_reserved {c : Word} (h : Reserved c) : decodeWord c = .error .reservedBits :=
  if_pos h

theorem decodeWord_unreserved {c : Word} (h : ¬ Reserved c) :
    decodeWord c = commandOf (bits 3 0 c) (bits 4 4 c == 1) (tagOfBits (bits 9 8 c))
      (tagOfBits (bits 13 12 c)) (bits 31 16 c) := by
  rw [decodeWord, if_neg h]
  rfl

/-! ### From the fields to the word and back -/

theorem decodeWord_commandWord {op angle : Nat} (tight : Bool) (dst src : FmtTag) (ho : op < 16)
    (ha : angle < 2 ^ 16) :
    decodeWord (commandWord op tight dst src angle) = commandOf op tight dst src angle := by
  obtain ⟨hop, ht, h75, hd, h1110, hs, h1514, hangle⟩ :=
    bits_commandWord op tight dst src angle ho ha
  have htight : (tight.toNat == 1) = tight := by cases tight <;> rfl
  rw [decodeWord_unreserved (by simp [Reserved, h75, h1110, h1514]), hop, ht, hd, hs, hangle,
    htight, tagOfBits_bitsOfTag, tagOfBits_bitsOfTag]

/-- A word without reserved bits is made of its fields. -/
theorem commandWord_fields {c : Word} (h : ¬ Reserved c) :
    commandWord (bits 3 0 c) (bits 4 4 c == 1) (tagOfBits (bits 9 8 c))
      (tagOfBits (bits 13 12 c)) (bits 31 16 c) = c := by
  have ht : (bits 4 4 c == 1).toNat = bits 4 4 c := by
    have hlt : bits 4 4 c < 2 := bits_lt 4 4 c
    interval_cases bits 4 4 c <;> rfl
  apply BitVec.eq_of_toNat_eq
  rw [commandWord, ht, bitsOfTag_tagOfBits _ (bits_lt 9 8 c),
    bitsOfTag_tagOfBits _ (bits_lt 13 12 c)]
  simp only [Reserved, not_or, not_not] at h
  have hc := c.isLt
  simp only [bits, BitVec.toNat_ofNat] at h ⊢
  omega

theorem decodeWord_encodeWord {i : Instr} (h : i.wellFormed = true) :
    decodeWord (encodeWord i) = .ok i := by
  have hfit {angle : Nat} (h : angleFits angle = true) : angle < 2 ^ 16 := of_decide_eq_true h
  cases i with
  | copyPlane dst src angle => exact decodeWord_commandWord false dst src (by decide) (hfit h)
  | interleaveUv dst src angle => exact decodeWord_commandWord false dst src (by decide) (hfit h)
  | rotatePlane dst src angle => exact decodeWord_commandWord false dst src (by decide) (hfit h)
  | layout dst src angle => exact decodeWord_commandWord false dst src (by decide) (hfit h)
  | imageCopy tight dst src angle =>
    exact decodeWord_commandWord tight dst src (by decide) (hfit h)
  | convertNv12 tight dst src angle =>
    exact decodeWord_commandWord tight dst src (by decide) (hfit h)
  | rotate tight dst src angle => exact decodeWord_commandWord tight dst src (by decide) (hfit h)

/-! ### What the decoder accepts -/

/-- A term the fields stand for has the word of the fields, and their angle. -/
theorem encodeWord_of_commandOf {op angle : Nat} {tight : Bool} {dst src : FmtTag} {i : Instr}
    (h : commandOf op tight dst src angle = .ok i) :
    encodeWord i = commandWord op tight dst src angle ∧ i.wellFormed = angleFits angle := by
  unfold commandOf at h
  split at h
  case h_8 => cases h
  case h_5 | h_6 | h_7 => cases h; exact ⟨rfl, rfl⟩
  all_goals
    cases tight
    · cases h
      exact ⟨rfl, rfl⟩
    · cases h

/-- The fields are rejected for their OP, or for TIGHT with a primitive (R98). -/
theorem commandOf_error_iff (op : Nat) (tight : Bool) (dst src : FmtTag) (angle : Nat) :
    (∃ r, commandOf op tight dst src angle = .error r) ↔
      (op = 0 ∨ 8 ≤ op) ∨ (tight = true ∧ 1 ≤ op ∧ op ≤ 4) := by
  unfold commandOf
  split
  case h_8 h1 h2 h3 h4 h5 h6 h7 =>
    have hop : op = 0 ∨ 8 ≤ op := by
      by_contra hno
      push Not at hno
      obtain ⟨h0, h8⟩ := hno
      interval_cases op <;> contradiction
    exact iff_of_true ⟨_, rfl⟩ (.inl hop)
  all_goals cases tight <;> simp

/-! ### The statements -/

/-- Settles O1: the decoder reads the bytes of a word as the word, and the word of a command as its
fields. -/
theorem decodeEncodeRoundTrip : Obligations.DecodeEncodeRoundTrip := by
  intro i h
  rw [encode, decode_bytesOfWord, decodeWord_encodeWord h]

/-- Settles O2: a word that decodes has no reserved bit, so its term's word is made of its fields.
-/
theorem legalWordIsItsEncoding : Obligations.LegalWordIsItsEncoding := by
  intro c i h
  by_cases hr : Reserved c
  · rw [decodeWord_reserved hr] at h
    cases h
  · rw [decodeWord_unreserved hr] at h
    obtain ⟨hword, hwf⟩ := encodeWord_of_commandOf h
    exact ⟨hword.trans (commandWord_fields hr), hwf.trans (decide_eq_true (bits_lt 31 16 c))⟩

/-- Settles O3: behind the reserved bits, OP and TIGHT alone decide. -/
theorem illegalWordsAreThoseOfTheList : Obligations.IllegalWordsAreThoseOfTheList := by
  intro c
  by_cases hr : Reserved c
  · exact iff_of_true ⟨_, decodeWord_reserved hr⟩ (.inr (.inl hr))
  · rw [decodeWord_unreserved hr, commandOf_error_iff, beq_iff_eq]
    tauto

/-- Settles O4: each word is the encoding of its command. -/
theorem exampleWordsDecode : Obligations.ExampleWordsDecode := by
  have of (i : Instr) (h : i.wellFormed = true) := decodeWord_encodeWord h
  exact ⟨of (.copyPlane .i420 .i420 0) rfl, of (.interleaveUv .i420 .i420 0) rfl,
    of (.rotatePlane .i420 .i420 90) rfl, of (.rotatePlane .i420 .i420 180) rfl,
    of (.rotatePlane .i420 .i420 270) rfl, of (.layout .i420 .i420 0) rfl,
    of (.layout .nv12 .i420 0) rfl, of (.imageCopy false .i420 .i420 0) rfl,
    of (.imageCopy true .i420 .i420 0) rfl, of (.convertNv12 false .i420 .i420 0) rfl,
    of (.convertNv12 true .nv12 .i420 0) rfl, of (.rotate false .i420 .i420 90) rfl,
    of (.rotate true .i420 .i420 90) rfl, of (.rotate true .i420 .i420 270) rfl,
    of (.rotate false .i420 .i420 45) rfl⟩

end Sys2Proof.EncodingLaws

/-! SUPPORT. How a command ends, in the two forms the proofs below use: from the answer of `exec`,
and from a plan over ordinary memory (R67, R181, R186). -/

namespace Sys2Proof.CommandEnds

open Sys2Proof Sys2Proof.Machine Sys2Proof.Safety

/-- The end of a command that is not refused: its first error, its moves done, or a bus fault. -/
theorem exec_next {i : Instr} {s t : State} (h : exec i s = .next t) :
    (∃ e, (workOf i s.params).plan = .error e ∧ t = (s.laidOut i).raise e) ∨
    ∃ plan, (workOf i s.params).plan = .ok plan ∧ plan.Sound ∧
      ((s.faultedAccesses plan = [] ∧ t = (s.laidOut i).moved plan) ∨
       (s.faultedAccesses plan ≠ [] ∧
        t = (s.laidOut i).busError plan (reportedFault s.draws (s.faultedAccesses plan)))) := by
  rcases exec_cases i s with ⟨e, he, hx⟩ | ⟨plan, hp, hs, ⟨-, hx⟩ | ⟨-, hf, hx⟩ | ⟨-, hf, hx⟩⟩
  all_goals rw [hx] at h
  all_goals cases h
  · exact .inl ⟨e, he, rfl⟩
  · exact .inr ⟨plan, hp, hs, .inl ⟨hf, rfl⟩⟩
  · exact .inr ⟨plan, hp, hs, .inr ⟨hf, rfl⟩⟩

/-- Over ordinary memory a command that passed its checks is not refused. -/
theorem exec_ordinary {i : Instr} {s : State} {plan : Plan}
    (hp : (workOf i s.params).plan = .ok plan) (ho : OrdinaryBuffers s plan) :
    (s.faultedAccesses plan = [] ∧ exec i s = .next ((s.laidOut i).moved plan)) ∨
    (s.faultedAccesses plan ≠ [] ∧ exec i s = .next ((s.laidOut i).busError plan
      (reportedFault s.draws (s.faultedAccesses plan)))) := by
  rcases exec_cases i s with ⟨e, he, -⟩ | ⟨plan', hp', -, hx⟩
  · exact absurd (hp.symm.trans he) (by simp)
  · cases hp.symm.trans hp'
    rcases hx with ⟨hf, -⟩ | ⟨-, hnil, hx⟩ | ⟨-, hne, hx⟩
    · exact absurd hf (by simp [(forbids_iff s plan).mpr ho])
    · exact .inl ⟨hnil, hx⟩
    · exact .inr ⟨hne, hx⟩

end Sys2Proof.CommandEnds

/-! SUPPORT. The invariant of the machine (R27, R29, R36, R60, R78): which parts of it an update of
the state touches, and that every event keeps it. With it, the statements on consistent states are
settled. -/

namespace Sys2Proof.Invariant

open Sys2Proof Sys2Proof.Machine Sys2Proof.Safety Sys2Proof.RegisterPort
  Sys2Proof.CommandEnds

/-! ### The outcome fields -/

/-- The outcome of an error: a slot number for BUFFER_TOO_SMALL, an address for BUS_ERROR (R181). -/
theorem outcomeConsistent_raise (s : State) (e : CommandError) :
    OutcomeConsistent (s.raise e).regs := by
  cases e with
  | bufferTooSmall n => cases n <;> simp [OutcomeConsistent, raise_regs, CommandError.errCode,
      CommandError.errSlot, CommandError.errAddr, SlotId.number]
  | _ => simp [OutcomeConsistent, raise_regs, CommandError.errCode, CommandError.errSlot,
      CommandError.errAddr]

theorem outcomeConsistent_clear {r : Registers} (hs : r.errSlot = 0) (ha : r.errAddr = 0) :
    OutcomeConsistent r := by
  simp [OutcomeConsistent, hs, ha]

/-! ### The BUSY phase -/

theorem busyConsistent_idle {s : State} (h : s.engine = .idle) : BusyConsistent s := by
  intro latched f hb
  rw [h] at hb
  cases hb

theorem busy_iff (s : State) : s.busy = true ↔ ∃ latched f, s.engine = .busy latched f := by
  unfold State.busy
  split <;> simp_all

theorem pendingLayout_busy {s : State} {latched : Params} {f : Bool}
    (h : s.engine = .busy latched f) : s.pendingLayout = latched.work.layout := by
  rw [State.pendingLayout, h]

/-- A disturbed engine runs the same command. -/
theorem busy_of_disturbed {e : Engine} {latched : Params} {f : Bool}
    (h : e.disturbed = .busy latched f) : ∃ g, e = .busy latched g := by
  cases e with
  | idle => cases h
  | busy p g => cases h; exact ⟨g, rfl⟩

/-- Disturbing the running command touches no part of the BUSY phase that the invariant names. -/
theorem busyConsistent_disturbed {s t : State} (h : BusyConsistent s) (hr : t.regs = s.regs)
    (he : t.engine = s.engine ∨ t.engine = s.engine.disturbed) : BusyConsistent t := by
  intro latched f hb
  have hs : ∃ g, s.engine = .busy latched g := by
    rcases he with he | he
    · exact ⟨f, he ▸ hb⟩
    · exact busy_of_disturbed (he ▸ hb)
  obtain ⟨g, hs⟩ := hs
  rw [hr, pendingLayout_busy hb, ← pendingLayout_busy hs]
  exact h latched g hs

/-! ### What the engine and the hosts write -/

theorem engineWrote_lt {s : State} {addrs : List Nat} (hs : ∀ a ∈ s.stale, a < 2 ^ 32)
    (ha : ∀ a ∈ addrs, a < 2 ^ 32) : ∀ a ∈ s.engineWrote addrs, a < 2 ^ 32 := by
  intro a h
  unfold State.engineWrote at h
  split at h
  · exact hs a h
  · rcases List.mem_append.mp h with h | h
    · exact ha a h
    · exact hs a h

theorem engineWrote_coherent {s : State} (addrs : List Nat) (h : s.platform.coherent = true) :
    s.engineWrote addrs = s.stale := if_pos h

/-- Whatever the moves do, memory keeps its canonical form. -/
theorem movedMemory_wf {s : State} {plan : Plan} (hm : s.mem.wf) (hs : plan.Sound) :
    (s.movedMemory plan).wf := by
  rcases movedMemory_cases s plan with ⟨-, -, hx⟩ | ⟨-, hx⟩
  · rw [hx]
    exact runMoves_wf _ _ hm fun mv hmv => writeFootprint_lt plan hs _ (move_dst_mem plan hs mv hmv)
  · rw [hx]
    exact unspecify_wf _ _ _ hm (writeFootprint_lt plan hs)

/-- A byte written by another agent disturbs the running command or leaves it alone. -/
theorem storeByte_engine (s : State) (a : Nat) (v : Byte) :
    (s.storeByte a v).engine = s.engine ∨ (s.storeByte a v).engine = s.engine.disturbed := by
  rcases storeByte_cases s a v with ⟨-, h⟩ | ⟨-, h⟩
  · exact .inl (by rw [h])
  · rw [h]
    cases s.runningTouches a
    · exact .inl rfl
    · exact .inr rfl

theorem uint32_lt (w : Word) : uint32 w < 2 ^ 32 := w.isLt

/-! ### Each way a command ends -/

theorem raise_consistent {s : State} (h : Consistent s) (e : CommandError) :
    Consistent (s.raise e) := by
  obtain ⟨hmem, -, -, hunc, hstale, hunseen, hcoh⟩ := h
  exact ⟨hmem, outcomeConsistent_raise s e, busyConsistent_idle rfl, hunc, hstale, hunseen, hcoh⟩

/-- The end of a command that wrote its footprint, into memory `m` with outcome registers `regs`. -/
theorem written_consistent {s t : State} {plan : Plan} (h : Consistent s) (hs : plan.Sound)
    (hmem : t.mem.wf) (hout : OutcomeConsistent t.regs) (he : t.engine = .idle)
    (hu : t.uncleaned = s.uncleaned) (hst : t.stale = s.engineWrote plan.writeFootprint)
    (hun : t.unseen = plan.buffers :: s.unseen) (hp : t.platform = s.platform) :
    Consistent t := by
  obtain ⟨-, -, -, hunc, hstale, hunseen, hcoh⟩ := h
  have hlt := writeFootprint_lt plan hs
  refine ⟨hmem, hout, busyConsistent_idle he, by rwa [hu], ?_, ?_, fun hc => ?_⟩
  · rw [hst]
    exact engineWrote_lt hstale hlt
  · rw [hun]
    exact List.forall_mem_cons.mpr ⟨hlt, hunseen⟩
  · rw [hp] at hc
    rw [hu, hst, engineWrote_coherent _ hc]
    exact hcoh hc

theorem exec_consistent {i : Instr} {s t : State} (h : Consistent s) (hx : exec i s = .next t) :
    Consistent t := by
  have ⟨hmem, _, _, hunc, hstale, hunseen, hcoh⟩ := h
  rcases exec_next hx with ⟨e, -, rfl⟩ | ⟨plan, -, hs, ⟨-, rfl⟩ | ⟨-, rfl⟩⟩
  · exact ⟨hmem, outcomeConsistent_raise _ e, busyConsistent_idle rfl, hunc, hstale, hunseen, hcoh⟩
  · exact written_consistent h hs (movedMemory_wf (s := s.laidOut i) hmem hs)
      (outcomeConsistent_clear rfl rfl) rfl rfl rfl rfl rfl
  · exact written_consistent h hs (unspecify_wf _ _ _ hmem (writeFootprint_lt plan hs))
      (outcomeConsistent_raise _ (.busError _)) rfl rfl rfl rfl rfl

theorem engineTurn_consistent {s t : State} (h : Consistent s) (hx : s.engineTurn = .next t) :
    Consistent t := by
  unfold State.engineTurn at hx
  split at hx
  · cases hx
    exact h
  · split at hx
    · exact exec_consistent h hx
    · cases hx
      exact raise_consistent h _

/-! ### Each action of a host -/

theorem resetBlock_consistent {s t : State} (h : Consistent s) (hx : s.resetBlock = .next t) :
    Consistent t := by
  obtain ⟨hmem, -, -, hunc, hstale, -, hcoh⟩ := h
  have hout : OutcomeConsistent Registers.reset := outcomeConsistent_clear rfl rfl
  rcases resetBlock_cases s with ⟨-, hr⟩ | ⟨plan, hp, ⟨-, hr⟩ | ⟨-, hr⟩⟩
  all_goals rw [hr] at hx
  all_goals cases hx
  · exact ⟨hmem, hout, busyConsistent_idle rfl, hunc, hstale, by simp, hcoh⟩
  · have hlt := writeFootprint_lt plan (runningPlan_sound s plan hp)
    refine ⟨unspecify_wf _ _ _ hmem hlt, hout, busyConsistent_idle rfl, hunc,
      engineWrote_lt hstale hlt, by simp, fun hc => ?_⟩
    obtain ⟨hu0, hs0⟩ := hcoh hc
    exact ⟨hu0, (engineWrote_coherent (s := s) _ hc).trans hs0⟩

theorem start_consistent {s : State} (h : Consistent s) : Consistent s.start := by
  obtain ⟨hmem, -, -, hunc, hstale, hunseen, hcoh⟩ := h
  refine ⟨hmem, outcomeConsistent_clear rfl rfl, ?_, hunc, hstale, hunseen, hcoh⟩
  intro latched f hb
  cases hb
  exact ⟨rfl, rfl, rfl, rfl, rfl, nofun⟩

/-- IRQ_EN is no part of the invariant. -/
theorem irqEn_consistent {s : State} (h : Consistent s) (b : Bool) :
    Consistent { s with regs := { s.regs with irqEn := b } } := h

/-- DONE may always fall. -/
theorem writeStatus_consistent {s : State} (h : Consistent s) (v : Word) :
    Consistent (s.writeStatus v) := by
  unfold State.writeStatus
  split
  · obtain ⟨hmem, hout, hbusy, hrest⟩ := h
    refine ⟨hmem, hout, fun latched f hb => ?_, hrest⟩
    obtain ⟨-, hfields⟩ := hbusy latched f hb
    exact ⟨rfl, hfields⟩
  · exact h

theorem writeCtrl_consistent {s t : State} {v : Word} (h : Consistent s)
    (hx : s.writeCtrl v = .next t) : Consistent t := by
  rcases writeCtrl_cases s v with ⟨-, hr⟩ | ⟨-, -, -, hr⟩ | ⟨-, -, hr⟩
  all_goals rw [hr] at hx
  · exact resetBlock_consistent h hx
  · cases hx
    exact start_consistent (irqEn_consistent h _)
  · cases hx
    exact irqEn_consistent h _

theorem regWrite_consistent {s t : State} {o b : Nat} {v : Word} (h : Consistent s)
    (hx : s.regWrite o b v = .next t) : Consistent t := by
  rcases regWrite_cases s t o b v hx with rfl | ⟨-, hc⟩ | ⟨-, rfl⟩ | ⟨hidle, _, _, _, _, rfl⟩
  · exact h
  · exact writeCtrl_consistent h hc
  · exact writeStatus_consistent h v
  · obtain ⟨hmem, hout, -, hrest⟩ := h
    exact ⟨hmem, hout, busyConsistent_idle (engine_of_busy_false s hidle), hrest⟩

/-- What a host sees of LAYOUT_OVF while BUSY is what the running command sets. -/
theorem regsAfterRead_consistent {s : State} (h : Consistent s) (o : Nat) :
    Consistent { s with regs := s.regsAfterRead o } := by
  rcases regsAfterRead_cases s o with ⟨-, hx⟩ | ⟨-, hx⟩
  · rw [hx]
    obtain ⟨hmem, hout, hbusy, hrest⟩ := h
    refine ⟨hmem, hout, fun latched f hb => ?_, hrest⟩
    obtain ⟨hdone, herr, hslot, haddr, hlatched, hovf⟩ := hbusy latched f hb
    exact ⟨hdone, herr, hslot, haddr, hlatched, fun ho => (readLayoutOvf_true s ho).elim hovf id⟩
  · rw [hx]
    exact h

theorem unseenAfter_lt {s : State} (h : ∀ p ∈ s.unseen, ∀ a ∈ p.writeFootprint, a < 2 ^ 32)
    (sees : Bool) : ∀ p ∈ s.unseenAfter sees, ∀ a ∈ p.writeFootprint, a < 2 ^ 32 := by
  unfold State.unseenAfter
  split
  · simp
  · exact h

theorem regRead_consistent {s t : State} {o b : Nat} (h : Consistent s)
    (hx : s.regRead o b = .next t) : Consistent t := by
  unfold State.regRead at hx
  split at hx
  · cases hx
    obtain ⟨hmem, hout, hbusy, hunc, hstale, hunseen, hcoh⟩ := regsAfterRead_consistent h o
    exact ⟨hmem, hout, hbusy, hunc, hstale, unseenAfter_lt hunseen _, hcoh⟩
  · cases hx

theorem irqRead_consistent {s : State} (h : Consistent s) : Consistent s.irqRead := by
  obtain ⟨hmem, hout, hbusy, hunc, hstale, hunseen, hcoh⟩ := h
  exact ⟨hmem, hout, hbusy, hunc, hstale, unseenAfter_lt hunseen _, hcoh⟩

theorem storeByte_consistent {s : State} {a : Nat} (h : Consistent s) (ha : a < 2 ^ 32) (v : Byte) :
    Consistent (s.storeByte a v) := by
  obtain ⟨hmem, hout, hbusy, hunc, hstale, hunseen, hcoh⟩ := h
  obtain ⟨hregs, hplat, -, hu, hst, hun, -, -⟩ := storeByte_frame s a v
  refine ⟨storeByte_wf s a v hmem ha hunseen, by rwa [hregs],
    busyConsistent_disturbed hbusy hregs (storeByte_engine s a v), by rwa [hu], by rwa [hst],
    by rwa [hun], ?_⟩
  rwa [hplat, hu, hst]

theorem ordinaryWrite_consistent {s : State} {a : Nat} (h : Consistent s) (ha : a < 2 ^ 32)
    (v : Byte) : Consistent (s.ordinaryWrite a v) := by
  obtain ⟨hmem, hout, hbusy, -, -, hunseen, -⟩ := storeByte_consistent h ha v
  obtain ⟨-, -, -, hunc, hstale, -, hcoh⟩ := h
  obtain ⟨-, hplat, -⟩ := storeByte_frame s a v
  rw [ordinaryWrite_eq]
  refine ⟨hmem, hout, hbusy, ?_, ?_, hunseen, fun hc => ?_⟩
  · dsimp only
    split
    · exact hunc
    · exact List.forall_mem_cons.mpr ⟨ha, hunc⟩
  · dsimp only
    split
    · exact hstale
    · exact fun b hb => hstale b (List.mem_filter.mp hb).1
  · have hc' : s.platform.coherent = true := hplat ▸ hc
    simpa [hc'] using hcoh hc'

theorem masterWrite_consistent {s : State} {a : Nat} (h : Consistent s) (ha : a < 2 ^ 32)
    (v : Byte) : Consistent (s.masterWrite a v) := by
  obtain ⟨hmem, hout, hbusy, hunc, -, hunseen, hcoh⟩ := storeByte_consistent h ha v
  obtain ⟨-, -, -, -, hstale, -, -⟩ := h
  obtain ⟨-, hplat, -, -, hst, -⟩ := storeByte_frame s a v
  refine ⟨hmem, hout, hbusy, hunc, engineWrote_lt hstale (by simpa using ha), hunseen, fun hc => ?_⟩
  have hc' : s.platform.coherent = true := hplat ▸ hc
  obtain ⟨hu0, hs0⟩ := hcoh hc
  exact ⟨hu0, (engineWrote_coherent [a] hc').trans (hst.symm.trans hs0)⟩

theorem afterRead_consistent {s : State} (h : Consistent s) (b : Byte) :
    Consistent (s.afterRead b) := h

theorem cacheClean_consistent {s : State} (h : Consistent s) (r : Region) :
    Consistent (s.cacheClean r) := by
  have ⟨hmem, hout, hbusy, hunc, hstale, hunseen, _⟩ := h
  have hwf := cacheClean_wf s r hmem hstale
  rcases cacheClean_cases s r with ⟨-, hx⟩ | ⟨hc, hx⟩
  · rwa [hx]
  · rw [hx] at hwf ⊢
    exact ⟨hwf, hout, busyConsistent_disturbed hbusy rfl (engineAfterWriteBack_cases s r),
      fun a ha => hunc a (List.mem_filter.mp ha).1, hstale, hunseen, fun hc' => by simp_all⟩

theorem cacheInvalidate_consistent {s : State} (h : Consistent s) (r : Region) :
    Consistent (s.cacheInvalidate r) := by
  have ⟨hmem, hout, hbusy, hunc, hstale, hunseen, _⟩ := h
  have hwf := cacheInvalidate_wf s r hmem hunc hstale
  rcases cacheInvalidate_cases s r with ⟨-, hx⟩ | ⟨hc, hx⟩
  · rwa [hx]
  · rw [hx] at hwf ⊢
    exact ⟨hwf, hout, busyConsistent_disturbed hbusy rfl (engineAfterWriteBack_cases s r),
      fun a ha => hunc a (List.mem_filter.mp ha).1, fun a ha => hstale a (List.mem_filter.mp ha).1,
      hunseen, fun hc' => by simp_all⟩

/-! ### The statements -/

/-- Every event keeps the invariant. -/
theorem handle_consistent {s t : State} {e : Event} (h : Consistent s)
    (hx : s.handle e = .next t) : Consistent t := by
  cases e with
  | engineTurn => exact engineTurn_consistent h hx
  | regWrite offset bytes value => exact regWrite_consistent h hx
  | regRead offset bytes => exact regRead_consistent h hx
  | irqRead => cases hx; exact irqRead_consistent h
  | memWrite addr value =>
    rw [hostWrite_next s t addr value hx]
    exact ordinaryWrite_consistent h (uint32_lt addr) value
  | memRead addr => rw [hostRead_next s t addr hx]; exact afterRead_consistent h _
  | busWrite addr value =>
    rw [busWrite_next s t addr value hx]
    exact masterWrite_consistent h (uint32_lt addr) value
  | busRead addr => rw [busRead_next s t addr hx]; exact afterRead_consistent h _
  | cacheClean region => cases hx; exact cacheClean_consistent h region
  | cacheInvalidate region => cases hx; exact cacheInvalidate_consistent h region
  | resetInput => exact resetBlock_consistent h hx
  | memoryFaults rules => cases hx; exact h

/-- Settles O59: a step is the engine's turn or an event behind which the queue is shorter, and the
queue is no part of the invariant. -/
theorem stepKeepsConsistent : Obligations.StepKeepsConsistent := by
  intro s t h hx
  cases hq : s.inbox with
  | nil => exact engineTurn_consistent h ((step_turn s hq).symm.trans hx)
  | cons e rest =>
    have hrest : Consistent (s.afterEvent rest) := h
    exact handle_consistent hrest ((step_event s e rest hq).symm.trans hx)

/-- Settles O58: memory and every record are empty, and the outcome is clear. -/
theorem resetIsConsistent : Obligations.ResetIsConsistent :=
  ⟨⟨List.Pairwise.nil, by simp [State.reset]⟩, outcomeConsistent_clear rfl rfl,
    busyConsistent_idle rfl, by simp [State.reset], by simp [State.reset], by simp [State.reset],
    fun _ => ⟨rfl, rfl⟩⟩

/-- Settles O60: the invariant clears every field of the outcome but LAYOUT_OVF, and that one too
where the running command does not set it. -/
theorem busyReadsOnlyBusy : Obligations.BusyReadsOnlyBusy := by
  rintro s ⟨-, -, hbusy, -⟩ hb hl
  obtain ⟨latched, f, he⟩ := (busy_iff s).mp hb
  obtain ⟨hdone, herr, hslot, haddr, -, hovf⟩ := hbusy latched f he
  have hclear : s.regs.layoutOvf = false := by
    rw [Bool.eq_false_iff]
    intro ho
    obtain ⟨l, hp, hge⟩ := hovf ho
    exact absurd (hl l hp) (by omega)
  refine ⟨?_, (readOffset_offset s .errAddr).trans haddr, irq_low_of_done hdone⟩
  calc s.readOffset 0x08
      = statusWord s.busy s.regs.done s.readLayoutOvf s.regs.err s.regs.errSlot :=
        readOffset_offset s .status
    _ = statusWord true false false .none 0 := by
        rw [hb, hdone, readLayoutOvf_eq s hl, hclear, herr, hslot]
    _ = 0x00000001 := rfl

end Sys2Proof.Invariant

/-! SUPPORT. The engine's turn and the run of the queue: what a turn does in each phase, and that
every command ends (R180, R181, R198). With them, the statements on steps are settled. -/

namespace Sys2Proof.EngineSteps

open Sys2Proof Sys2Proof.Machine Sys2Proof.Safety Sys2Proof.Invariant Sys2Proof.CheckErrors
  Sys2Proof.CommandEnds

/-! ### The engine's turn -/

theorem engineTurn_idle {s : State} (h : s.engine = .idle) : s.engineTurn = .next s := by
  rw [State.engineTurn, h]

theorem engineTurn_legal {s : State} {latched : Params} {f : Bool} {i : Instr}
    (h : s.engine = .busy latched f) (hi : decodeWord latched.cmd = .ok i) :
    s.engineTurn = exec i s := by
  simp only [State.engineTurn, h, hi]

theorem engineTurn_illegal {s : State} {latched : Params} {f : Bool} {r : DecodeReject}
    (h : s.engine = .busy latched f) (hr : decodeWord latched.cmd = .error r) :
    s.engineTurn = .next (s.raise .illegalCommand) := by
  simp only [State.engineTurn, h, hr]

/-- A BUSY engine's turn executes the latched command, or raises ILLEGAL_COMMAND. -/
theorem engineTurn_busy {s : State} (h : s.busy = true) :
    (∃ i, s.engineTurn = exec i s) ∨ s.engineTurn = .next (s.raise .illegalCommand) := by
  obtain ⟨latched, f, he⟩ := (busy_iff s).mp h
  cases hd : decodeWord latched.cmd with
  | ok i => exact .inl ⟨i, engineTurn_legal he hd⟩
  | error r => exact .inr (engineTurn_illegal he hd)

/-! ### The end of a command -/

/-- What the completion step makes of a state, whatever the outcome (R181). -/
structure Completed (s t : State) : Prop where
  idle : t.engine = .idle
  done : t.regs.done = true
  irqEn : t.regs.irqEn = s.regs.irqEn
  outcome : OutcomeConsistent t.regs

theorem raise_completed (s : State) (e : CommandError) : Completed s (s.raise e) :=
  ⟨rfl, rfl, rfl, outcomeConsistent_raise s e⟩

theorem exec_completed {i : Instr} {s t : State} (h : exec i s = .next t) : Completed s t := by
  have hirq := layoutStep_irqEn (workOf i s.params).layout s.regs
  rcases exec_next h with ⟨e, -, rfl⟩ | ⟨plan, -, -, ⟨-, rfl⟩ | ⟨-, rfl⟩⟩
  · exact ⟨rfl, rfl, hirq, outcomeConsistent_raise _ e⟩
  · exact ⟨rfl, rfl, hirq, outcomeConsistent_clear rfl rfl⟩
  · exact ⟨rfl, rfl, hirq, outcomeConsistent_raise _ (.busError _)⟩

theorem engineTurn_completed {s t : State} (hb : s.busy = true) (h : s.engineTurn = .next t) :
    Completed s t := by
  rcases engineTurn_busy hb with ⟨i, hx⟩ | hx
  all_goals rw [hx] at h
  · exact exec_completed h
  · cases h
    exact raise_completed s _

/-! ### Runs -/

/-- What `StartedCommandEnds` says of the first `k` steps: the engine is IDLE behind them, or the
model refused one. -/
def EndsWithin (k : Nat) (s : State) : Prop :=
  (∃ t, Sys2Proof.core.run k s = .next t ∧ State.busy t = false) ∨
    ∃ r, Sys2Proof.core.run k s = .refused r

theorem endsWithin_zero {s : State} (h : s.busy = false) : EndsWithin 0 s := .inl ⟨s, rfl, h⟩

theorem endsWithin_succ {s t : State} {k : Nat} (hs : step s = .next t) (h : EndsWithin k t) :
    EndsWithin (k + 1) s := by
  have hrun : Sys2Proof.core.run (k + 1) s = Sys2Proof.core.run k t := by
    simp only [Host.Core.run, Sys2Proof.core, hs]
  simpa only [EndsWithin, hrun] using h

theorem endsWithin_refused {s : State} {r : Refusal} (h : step s = .refused r) : EndsWithin 1 s :=
  .inr ⟨r, by simp only [Host.Core.run, Sys2Proof.core, h]⟩

/-- A command ends at the latest in the turn behind the events that wait. -/
theorem exists_endsWithin (s : State) (hb : s.busy = true) :
    ∃ k, k ≤ s.inbox.length + 1 ∧ EndsWithin k s := by
  induction hq : s.inbox generalizing s with
  | nil =>
    refine ⟨1, le_rfl, ?_⟩
    rcases step_next_or_refused s with ⟨t, ht⟩ | ⟨r, hr⟩
    · obtain ⟨hidle, -⟩ := engineTurn_completed hb ((step_turn s hq).symm.trans ht)
      exact endsWithin_succ ht (endsWithin_zero (busy_of_idle t hidle))
    · exact endsWithin_refused hr
  | cons e rest ih =>
    rcases step_next_or_refused s with ⟨t, ht⟩ | ⟨r, hr⟩
    · have hrest : t.inbox = rest :=
        handle_inbox (s.afterEvent rest) t e ((step_event s e rest hq).symm.trans ht)
      cases hbt : t.busy with
      | false => exact ⟨1, by simp, endsWithin_succ ht (endsWithin_zero hbt)⟩
      | true =>
        obtain ⟨k, hk, hends⟩ := ih t hbt hrest
        exact ⟨k + 1, by simpa using hk, endsWithin_succ ht hends⟩
    · exact ⟨1, by simp, endsWithin_refused hr⟩

/-! ### The statements -/

/-- Settles O5: the turn decodes the latched word, at an empty queue and as its first event. -/
theorem stepRunsDecodedCommand : Obligations.StepRunsDecodedCommand := by
  intro s latched f i hb hi
  refine ⟨fun hq => (step_turn s hq).trans (engineTurn_legal hb hi), fun rest hq => ?_⟩
  exact (step_event s _ rest hq).trans (engineTurn_legal (s := s.afterEvent rest) hb hi)

/-- Settles O6: `withFetchWord` latches the word with nothing waiting. -/
theorem commandedWordRunsNext : Obligations.CommandedWordRunsNext := by
  intro s nbits w i h
  have hd : decodeWord (tableWord nbits w) = .ok i := by
    rw [decodeTableWord, decode_bytesOfWord] at h
    cases hw : decodeWord (tableWord nbits w) with
    | ok j => rw [hw] at h; cases h; rfl
    | error r => rw [hw] at h; cases h
  obtain ⟨hempty, -⟩ := stepRunsDecodedCommand (s.withFetchWord nbits w) _ _ i rfl hd
  exact hempty rfl

/-- Settles O7: an illegal word reaches no layout step, so the registers are those before. -/
theorem illegalCommandEndsAtOnce : Obligations.IllegalCommandEndsAtOnce := by
  intro s latched f r hb hr hq
  rw [step_turn s hq, engineTurn_illegal hb hr, raise_eq_failed s rfl]
  rfl

/-- Settles O8: an IDLE engine's turn is no change. -/
theorem idleKeepsEverything : Obligations.IdleKeepsEverything := fun s hidle hq =>
  (step_turn s hq).trans (engineTurn_idle hidle)

/-- Settles O9: every way a command ends is one completion step. -/
theorem engineTurnEndsTheCommand : Obligations.EngineTurnEndsTheCommand := by
  intro s t latched f he hq hx
  have hb : s.busy = true := (busy_iff s).mpr ⟨latched, f, he⟩
  obtain ⟨hidle, hdone, hirq, -, hslot, haddr⟩ :=
    engineTurn_completed hb ((step_turn s hq).symm.trans hx)
  refine ⟨busy_of_idle t hidle, hdone, ?_, hslot, haddr⟩
  rw [State.irq, hdone, hirq, Bool.true_and]

/-- Settles O10: by induction on the queue, since only the engine's turn is left behind it. -/
theorem startedCommandEnds : Obligations.StartedCommandEnds := exists_endsWithin

end Sys2Proof.EngineSteps

/-! SUPPORT. What lists of byte moves with distinct destinations, none of which is a source, do to
memory, and the loops as such lists. With it, the laws of copies, rotations and the order of moves
(R120, R122, R145, R147) are settled. -/

namespace Sys2Proof.MoveLaws

open Sys2Proof Sys2Proof.Machine Sys2Proof.Safety

/-! ### Independent moves -/

/-- Each byte is written at most once, and no byte that is read is written (R68). -/
structure Independent (mvs : List Move) : Prop where
  nodup : (mvs.map Move.dst).Nodup
  unread : ∀ x ∈ mvs, ∀ y ∈ mvs, x.src ≠ y.dst

theorem independent_perm {mvs nvs : List Move} (hp : mvs.Perm nvs) (h : Independent nvs) :
    Independent mvs :=
  ⟨(hp.map Move.dst).nodup_iff.mpr h.nodup,
    fun x hx y hy => h.unread x (hp.mem_iff.mp hx) y (hp.mem_iff.mp hy)⟩

theorem independent_plan {plan : Plan} (h : plan.Sound) (hs : Separated plan) :
    Independent plan.moves where
  nodup := h.dst ▸ writeFootprint_nodup plan h hs
  unread x hx y hy hxy := hs.1 x.src (h.src x hx) (hxy ▸ move_dst_mem plan h y hy)

/-- A byte behind independent moves: the one byte moved there, or the byte of before. -/
theorem read_independent {mvs : List Move} (h : Independent mvs) {m : Memory}
    (hm : m.Pairwise fun c d => c.1 < d.1) (a : Nat) :
    (∃ mv ∈ mvs, mv.dst = a ∧ (m.runMoves mvs).read a = m.read mv.src) ∨
    ((∀ mv ∈ mvs, mv.dst ≠ a) ∧ (m.runMoves mvs).read a = m.read a) := by
  by_cases ha : ∃ mv ∈ mvs, mv.dst = a
  · obtain ⟨mv, hmv, rfl⟩ := ha
    exact .inl ⟨mv, hmv, rfl, read_runMoves mvs m hm h.nodup h.unread mv hmv⟩
  · have hno : ∀ mv ∈ mvs, mv.dst ≠ a := fun mv hmv hd => ha ⟨mv, hmv, hd⟩
    exact .inr ⟨hno, read_runMoves_other mvs m a hno⟩

/-- The order of independent moves does not show in memory. -/
theorem runMoves_perm {mvs nvs : List Move} (hp : mvs.Perm nvs) (h : Independent nvs) {m : Memory}
    (hm : m.wf) (hlt : ∀ mv ∈ nvs, mv.dst < 2 ^ 32) : m.runMoves mvs = m.runMoves nvs := by
  refine eq_of_read_eq _ _ (runMoves_wf mvs m hm fun mv hmv => hlt mv (hp.mem_iff.mp hmv))
    (runMoves_wf nvs m hm hlt) fun a => ?_
  rcases read_independent (independent_perm hp h) hm.1 a with ⟨mv, hmv, rfl, hx⟩ | ⟨hno, hx⟩
  · rw [hx, read_runMoves nvs m hm.1 h.nodup h.unread mv (hp.mem_iff.mp hmv)]
  · rw [hx, read_runMoves_other nvs m a fun mv hmv => hno mv (hp.mem_iff.mpr hmv)]

/-- Independent moves find their sources as they were, so doing them again changes nothing. -/
theorem runMoves_idem {mvs : List Move} (h : Independent mvs) {m : Memory} (hm : m.wf)
    (hlt : ∀ mv ∈ mvs, mv.dst < 2 ^ 32) : (m.runMoves mvs).runMoves mvs = m.runMoves mvs := by
  have hm' := runMoves_wf mvs m hm hlt
  refine eq_of_read_eq _ _ (runMoves_wf mvs _ hm' hlt) hm' fun a => ?_
  rcases read_independent h hm'.1 a with ⟨mv, hmv, rfl, hx⟩ | ⟨-, hx⟩
  · rw [hx, read_runMoves mvs m hm.1 h.nodup h.unread mv hmv]
    exact read_runMoves_other mvs m mv.src fun y hy => (h.unread mv hmv y hy).symm
  · exact hx

/-! ### The rotate loop between two views -/

/-- The views of a rotation: the destination has the turned dimensions, proper rows, and no byte of
the source. -/
structure Turns (r : Rotation) (s d : View) : Prop where
  dims : (Dims.mk s.width s.height).rotated r = ⟨d.width, d.height⟩
  proper : d.Proper
  apart : ∀ a ∈ s.footprint, a ∉ d.footprint

theorem rotateMoves_dst_mem {r : Rotation} {s d : View} {mv : Move} (h : mv ∈ rotateMoves r s d) :
    mv.dst ∈ d.footprint := by
  rw [← rotateMoves_dst r s d]
  exact List.mem_map_of_mem h

theorem rotateMoves_independent {r : Rotation} {s d : View} (h : Turns r s d) :
    Independent (rotateMoves r s d) where
  nodup := by
    rw [rotateMoves_dst]
    exact footprint_nodup d h.proper
  unread x hx y hy hxy :=
    h.apart x.src (rotateMoves_src r s d h.dims x hx) (hxy ▸ rotateMoves_dst_mem hy)

theorem rotateMoves_planeMoved {r : Rotation} {s d : View} (h : Turns r s d) {m : Memory}
    (hm : m.Pairwise fun c d => c.1 < d.1) :
    PlaneMoved m (m.runMoves (rotateMoves r s d)) s d (rotationSource r s.width s.height) := by
  have hind := rotateMoves_independent h
  intro x y hx hy
  exact read_runMoves _ m hm hind.nodup hind.unread _
    ((mem_rotateMoves r s d _).mpr ⟨x, y, hx, hy, rfl⟩)

theorem rotateMoves_sameOutside (r : Rotation) (s d : View) (m : Memory) :
    SameOutside m (m.runMoves (rotateMoves r s d)) d.footprint := fun a ha =>
  read_runMoves_other _ m a fun _ hmv hd => ha (hd ▸ rotateMoves_dst_mem hmv)

/-! ### The samples of a rotation -/

/-- Each input sample is the source of an output sample (R141 to R144). -/
theorem exists_rotationSource (r : Rotation) (d : Dims) {x y : Nat} (hx : x < d.w) (hy : y < d.h) :
    ∃ x' y', x' < (d.rotated r).w ∧ y' < (d.rotated r).h ∧
      rotationSource r d.w d.h x' y' = (x, y) := by
  cases r with
  | r0 => exact ⟨x, y, hx, hy, rfl⟩
  | r90 =>
    exact ⟨d.h - 1 - y, x, by simp only [Dims.rotated]; omega, hx, Prod.ext rfl (by
      simp only [rotationSource]; omega)⟩
  | r180 =>
    refine ⟨d.w - 1 - x, d.h - 1 - y, ?_, ?_, Prod.ext ?_ ?_⟩ <;>
      simp only [Dims.rotated, rotationSource] <;> omega
  | r270 =>
    exact ⟨y, d.w - 1 - x, hy, by simp only [Dims.rotated]; omega, Prod.ext (by
      simp only [rotationSource]; omega) rfl⟩

/-- Different output samples have different input samples. -/
theorem rotationSource_inj (r : Rotation) (d : Dims) {x y x' y' : Nat}
    (hx : x < (d.rotated r).w) (hy : y < (d.rotated r).h) (hx' : x' < (d.rotated r).w)
    (hy' : y' < (d.rotated r).h)
    (h : rotationSource r d.w d.h x y = rotationSource r d.w d.h x' y') : x = x' ∧ y = y' := by
  cases r <;> simp only [rotationSource, Dims.rotated, Prod.mk.injEq] at hx hy hx' hy' h <;> omega

/-- The rotation by a sum of angles reads where the two rotations, one behind the other, read
(R147). -/
theorem rotationSource_thenTurn (r1 r2 : Rotation) (d : Dims) {x y : Nat}
    (hx : x < ((d.rotated r1).rotated r2).w) (hy : y < ((d.rotated r1).rotated r2).h) :
    rotationSource r1 d.w d.h
        (rotationSource r2 (d.rotated r1).w (d.rotated r1).h x y).1
        (rotationSource r2 (d.rotated r1).w (d.rotated r1).h x y).2 =
      inputSample (thenTurn r1 r2) d x y := by
  cases r1 <;> cases r2 <;> simp only [Dims.rotated] at hx hy <;>
    simp only [rotationSource, inputSample, thenTurn, Dims.rotated, Prod.mk.injEq, true_and,
      and_true] <;> omega

/-- The sources of the rotate loop are different bytes. -/
theorem rotateMoves_src_nodup {r : Rotation} {s d : View} (hs : s.Proper) (hd : d.Proper)
    (hdims : (Dims.mk s.width s.height).rotated r = ⟨d.width, d.height⟩) :
    ((rotateMoves r s d).map Move.src).Nodup := by
  have hnodup : (rotateMoves r s d).Nodup :=
    List.Nodup.of_map Move.dst (rotateMoves_dst r s d ▸ footprint_nodup d hd)
  refine hnodup.map_on fun mv hmv nv hnv hsrc => ?_
  obtain ⟨x, y, hx, hy, rfl⟩ := (mem_rotateMoves r s d mv).mp hmv
  obtain ⟨x', y', hx', hy', rfl⟩ := (mem_rotateMoves r s d nv).mp hnv
  have hxr : x < ((Dims.mk s.width s.height).rotated r).w := by rwa [hdims]
  have hyr : y < ((Dims.mk s.width s.height).rotated r).h := by rwa [hdims]
  have hxr' : x' < ((Dims.mk s.width s.height).rotated r).w := by rwa [hdims]
  have hyr' : y' < ((Dims.mk s.width s.height).rotated r).h := by rwa [hdims]
  have hlt := rotationSource_lt r ⟨s.width, s.height⟩ x y hxr hyr
  have hlt' := rotationSource_lt r ⟨s.width, s.height⟩ x' y' hxr' hyr'
  obtain ⟨h1, h2⟩ := byteAddr_inj s hs _ _ _ _ hlt.1 hlt'.1 hsrc
  obtain ⟨rfl, rfl⟩ := rotationSource_inj r _ hxr hyr hxr' hyr' (Prod.ext h1 h2)
  rfl

/-- The sources of the rotate loop are the bytes of the source plane. -/
theorem mem_rotateMoves_src {r : Rotation} {s d : View}
    (hdims : (Dims.mk s.width s.height).rotated r = ⟨d.width, d.height⟩) (a : Nat) :
    a ∈ (rotateMoves r s d).map Move.src ↔ a ∈ s.footprint := by
  constructor
  · intro h
    obtain ⟨mv, hmv, rfl⟩ := List.mem_map.mp h
    exact rotateMoves_src r s d hdims mv hmv
  · intro h
    obtain ⟨x, y, hx, hy, rfl⟩ := (mem_footprint s a).mp h
    obtain ⟨x', y', hx', hy', hsrc⟩ := exists_rotationSource r ⟨s.width, s.height⟩ hx hy
    rw [hdims] at hx' hy'
    exact List.mem_map.mpr ⟨_, (mem_rotateMoves r s d _).mpr ⟨x', y', hx', hy', rfl⟩, by
      simp only [hsrc]⟩

/-! ### The statements -/

/-- Settles O20: the copy back finds in `b` what the copy put there, and writes it where it came
from. The copy loop is the rotate loop at angle 0. -/
theorem copyAndBackRestores : Obligations.CopyAndBackRestores := by
  intro a b m hm hw hh ha hb hapart
  have hto : Turns .r0 a b := ⟨by simp [hw, hh], hb, hapart⟩
  have hback : Turns .r0 b a := ⟨by simp [hw, hh], ha, fun x hx hxa => hapart x hxa hx⟩
  have hthere := rotateMoves_planeMoved hto hm.1
  have hrestored := rotateMoves_planeMoved hback (runMoves_rising (rotateMoves .r0 a b) m hm.1)
  intro x hx
  by_cases hxa : x ∈ a.footprint
  · obtain ⟨col, row, hc, hr, rfl⟩ := (mem_footprint a x).mp hxa
    exact (hrestored col row hc hr).trans (hthere col row (hw ▸ hc) (hh ▸ hr))
  · exact (rotateMoves_sameOutside .r0 b a _ x hxa).trans
      (rotateMoves_sameOutside .r0 a b m x hx)

/-- Settles O21: the moves of a separated plan are independent. -/
theorem moveOrderDoesNotMatter : Obligations.MoveOrderDoesNotMatter := by
  intro i p plan moves m hm hplan hsep hperm
  have hs := workOf_sound i p plan hplan
  exact runMoves_perm hperm (independent_plan hs hsep) hm fun mv hmv =>
    writeFootprint_lt plan hs _ (move_dst_mem plan hs mv hmv)

/-- Settles O22: two lists without repetition and with the same members are permutations of one
another. -/
theorem rotationReadsEachSampleOnce : Obligations.RotationReadsEachSampleOnce := by
  intro r s d hs hd hdims
  rw [rotateMoves_dst]
  refine ⟨footprint_nodup d hd, List.Perm.refl _, ?_, fun h => by rw [h]; rfl⟩
  exact (List.perm_ext_iff_of_nodup (rotateMoves_src_nodup hs hd hdims)
    (footprint_nodup s hs)).mpr (mem_rotateMoves_src hdims)

/-- Settles O23: the second rotation reads in `b` what the first put there. -/
theorem rotationsCompose : Obligations.RotationsCompose := by
  intro r1 r2 a b c d m hm haw hah hb hc hbp hcp hab hbc
  have hbw : b.width = (d.rotated r1).w := congrArg Dims.w hb
  have hbh : b.height = (d.rotated r1).h := congrArg Dims.h hb
  have hcw : c.width = ((d.rotated r1).rotated r2).w := congrArg Dims.w hc
  have hch : c.height = ((d.rotated r1).rotated r2).h := congrArg Dims.h hc
  have h1 : Turns r1 a b := ⟨by rw [haw, hah, hb], hbp, hab⟩
  have h2 : Turns r2 b c := ⟨by rw [hb, hc], hcp, hbc⟩
  have hfirst := rotateMoves_planeMoved h1 hm.1
  have hsecond := rotateMoves_planeMoved h2 (runMoves_rising (rotateMoves r1 a b) m hm.1)
  intro x y hx hy
  have hmid := rotationSource_lt r2 (d.rotated r1) x y (hcw ▸ hx) (hch ▸ hy)
  rw [hsecond x y hx hy, hbw, hbh, hfirst _ _ (hbw ▸ hmid.1) (hbh ▸ hmid.2), haw, hah,
    rotationSource_thenTurn r1 r2 d (hcw ▸ hx) (hch ▸ hy)]

end Sys2Proof.MoveLaws

/-! SUPPORT. The planes of tight buffers and of rotated images: a view whose stride is its width is
one run of addresses, and the halves of turned dimensions are the turned halves. With it, the
statements on tight views (R112) and on the planes of a rotated image (R172) are settled. -/

namespace Sys2Proof.TightPlanes

open Sys2Proof Sys2Proof.Machine Sys2Proof.Safety

/-! ### Rotated dimensions -/

theorem rotated_eq_turned (r : Rotation) (d : Dims) : d.rotated r = turned (degrees r) d := by
  cases r <;> rfl

/-- Turning swaps width and height or keeps them, so it commutes with halving. -/
theorem chroma_turned (angle : Nat) (d : Dims) :
    (turned angle d).chroma = turned angle d.chroma := by
  unfold turned
  split <;> rfl

theorem dimsOf_i420Planes (p : Params) (tight : Bool) (d : Dims) :
    dimsOf (i420Planes p tight d).y = d ∧ dimsOf (i420Planes p tight d).u = d.chroma ∧
    dimsOf (i420Planes p tight d).v = d.chroma := by
  cases tight <;> exact ⟨rfl, rfl, rfl⟩

/-! ### Contiguous views -/

/-- A plane without padding is one run of addresses. -/
theorem footprint_contiguous (addr w h : Nat) :
    View.footprint ⟨addr, w, w, h⟩ = List.range' addr (w * h) := by
  induction h with
  | zero => simp [View.footprint]
  | succ h ih =>
    have hrow : (List.range w).map (fun x => View.byteAddr ⟨addr, w, w, h + 1⟩ x h) =
        List.range' (addr + w * h) w := by
      simp only [View.byteAddr, Nat.mul_comm w h, List.range_eq_range', List.map_add_range',
        Nat.add_zero]
    calc View.footprint ⟨addr, w, w, h + 1⟩
        = View.footprint ⟨addr, w, w, h⟩ ++
            (List.range w).map (fun x => View.byteAddr ⟨addr, w, w, h + 1⟩ x h) := by
          simp [View.footprint, View.byteAddr, List.range_succ]
      _ = List.range' addr (w * (h + 1)) := by
          rw [ih, hrow, List.range'_append_1, Nat.mul_succ]

theorem tightViewsI420_eq (d : Dims) (addr : Nat) :
    tightViewsI420 (layoutI420 d) addr =
      { y := ⟨addr, d.w, d.w, d.h⟩,
        u := ⟨addr + d.w * d.h, (d.w + 1) / 2, (d.w + 1) / 2, (d.h + 1) / 2⟩,
        v := ⟨addr + d.w * d.h + (d.w + 1) / 2 * ((d.h + 1) / 2), (d.w + 1) / 2, (d.w + 1) / 2,
          (d.h + 1) / 2⟩ } := by
  simp [tightViewsI420, layoutI420, Dims.chroma, ceilHalf, Nat.add_assoc]

theorem tightViewsNv12_eq (d : Dims) (addr : Nat) :
    tightViewsNv12 (layoutNv12 d) addr =
      (⟨addr, d.w, d.w, d.h⟩,
       ⟨addr + d.w * d.h, 2 * ((d.w + 1) / 2), 2 * ((d.w + 1) / 2), (d.h + 1) / 2⟩) := rfl

/-- The footprints of the tight I420 views, one behind the other, are the addresses of the buffer.
-/
theorem tightI420_footprints (d : Dims) (addr : Nat) :
    (tightViewsI420 (layoutI420 d) addr).y.footprint ++
      (tightViewsI420 (layoutI420 d) addr).u.footprint ++
      (tightViewsI420 (layoutI420 d) addr).v.footprint =
    List.range' addr (layoutI420 d).total := by
  rw [tightViewsI420_eq]
  simp only [footprint_contiguous, List.range'_append_1]
  rw [Nat.add_assoc addr, List.range'_append_1]
  congr 1
  simp only [layoutI420_total, tightTotal, Dims.chroma, ceilHalf]
  ring

/-- The footprints of the tight NV12 views, one behind the other, are the addresses of the buffer.
-/
theorem tightNv12_footprints (d : Dims) (addr : Nat) :
    (tightViewsNv12 (layoutNv12 d) addr).1.footprint ++
      (tightViewsNv12 (layoutNv12 d) addr).2.footprint =
    List.range' addr (layoutNv12 d).total := by
  rw [tightViewsNv12_eq]
  simp only [footprint_contiguous, List.range'_append_1]
  rfl

/-! ### The statements -/

/-- Settles O27: the footprints in order are the run of the buffer's addresses. -/
theorem tightViewsTileTheBuffer : Obligations.TightViewsTileTheBuffer := by
  intro d addr a
  have h420 := tightI420_footprints d addr
  have h12 := tightNv12_footprints d addr
  refine ⟨tightViewsI420_eq d addr, tightViewsNv12_eq d addr, ?_, ?_, ?_, ?_⟩
  · rw [← List.mem_range'_1, ← h420, List.mem_append, List.mem_append, or_assoc]
  · rw [← List.mem_range'_1, ← h12, List.mem_append]
  · rw [h420]
    exact List.nodup_range'
  · rw [h12]
    exact List.nodup_range'

/-- Settles O25: the chroma of the turned image is the turned chroma. -/
theorem chromaOfRotatedImage : Obligations.ChromaOfRotatedImage := by
  intro p tight r d
  obtain ⟨hy, hu, hv⟩ := dimsOf_i420Planes p tight (turned (degrees r) d)
  rw [rotated_eq_turned]
  exact ⟨rfl, rfl, hy, hu, hv, hu.trans (chroma_turned _ d), hv.trans (chroma_turned _ d)⟩

end Sys2Proof.TightPlanes

/-! SUPPORT. The end of a command whose plan meets no device and no fault: what memory it leaves,
plane by plane. With it, the statements on the completion of each command and the laws of COPY_PLANE
and INTERLEAVE_UV (R122, R132) are settled. -/

namespace Sys2Proof.Completion

open Sys2Proof Sys2Proof.Machine Sys2Proof.Safety Sys2Proof.MoveLaws Sys2Proof.TightPlanes
  Sys2Proof.CommandEnds

/-! ### A plan that runs to its end -/

/-- Over ordinary memory without bus faults a command that passed its checks does its moves. -/
theorem exec_moved {i : Instr} {s : State} {plan : Plan} (hp : (workOf i s.params).plan = .ok plan)
    (ho : OrdinaryBuffers s plan) (hn : NoBusFault s plan) :
    exec i s = .next (ended s (s.regs.layoutStep (workOf i s.params).layout) plan
      (s.movedMemory plan)) := by
  have hnil := faultedAccesses_nil s plan (workOf_sound i s.params plan hp) hn
  rcases exec_ordinary hp ho with ⟨-, hx⟩ | ⟨hne, -⟩
  · exact hx
  · exact absurd hnil hne

theorem movedMemory_of_separated {s : State} {plan : Plan} (hs : Separated plan)
    (hi : s.interfered = false) : s.movedMemory plan = s.mem.runMoves plan.moves := by
  rcases movedMemory_cases s plan with ⟨-, -, h⟩ | ⟨h | h, -⟩
  · exact h
  · exact absurd hs h
  · exact absurd h (by simp [hi])

theorem movedMemory_of_not {s : State} {plan : Plan}
    (h : ¬ Separated plan ∨ s.interfered = true) :
    s.movedMemory plan = s.mem.unspecify s.draws plan.writeFootprint := by
  rcases movedMemory_cases s plan with ⟨hs, hi, -⟩ | ⟨-, hx⟩
  · exact absurd h (by simp [hs, hi])
  · exact hx

theorem movedMemory_sameOutside {s : State} {plan : Plan} (h : plan.Sound) :
    SameOutside s.mem (s.movedMemory plan) plan.writeFootprint := by
  intro a ha
  rcases movedMemory_cases s plan with ⟨-, -, hx⟩ | ⟨-, hx⟩
  · rw [hx, read_runMoves_outside plan h s.mem a ha]
  · rw [hx, read_unspecify_other _ _ _ a ha]

/-- What a command whose checks pass leaves behind when nothing disturbs it. -/
theorem exec_undisturbed {i : Instr} {s : State} {d : Dims} {plan : Plan}
    (hf : formatsAccepted i = true) (ha : angleAccepted i = true) (hd : HasDims s.params d)
    (hb : BuffersFit i s.params d) (hp : planOf i s.params d = .ok plan)
    (hu : Undisturbed s plan) :
    exec i s = .next (ended s (s.regs.layoutStep (layoutWritten i d)) plan
      (s.mem.runMoves plan.moves)) := by
  obtain ⟨ho, hn, hs, hi⟩ := hu
  have hw := workOf_fits i s.params d hf ha hd hb
  have hx := exec_moved (i := i) (by rw [hw]; exact hp) ho hn
  rwa [hw, movedMemory_of_separated hs hi] at hx

theorem runMoves_sameOutside {plan : Plan} (h : plan.Sound) (m : Memory) {addrs : List Nat}
    (ha : plan.writeFootprint = addrs) : SameOutside m (m.runMoves plan.moves) addrs :=
  fun a hna => read_runMoves_outside plan h m a (ha ▸ hna)

/-! ### The write footprint of each plan -/

theorem copyPlanePlan_writeFootprint (p : Params) (d : Dims) :
    (copyPlanePlan p d).writeFootprint = (p.view .dst0 d.w d.h).footprint := by
  simp [copyPlanePlan, Plan.writeFootprint]

theorem interleaveUvPlan_writeFootprint (p : Params) (d : Dims) :
    (interleaveUvPlan p d).writeFootprint = (p.view .dst1 (2 * d.w) d.h).footprint := by
  simp [interleaveUvPlan, Plan.writeFootprint]

theorem rotatePlanePlan_writeFootprint (p : Params) (r : Rotation) (d : Dims) :
    (rotatePlanePlan p r d).writeFootprint =
      (p.view .dst0 (d.rotated r).w (d.rotated r).h).footprint := by
  simp [rotatePlanePlan, Plan.writeFootprint]

theorem imageCopyPlan_writeFootprint (p : Params) (tight : Bool) (d : Dims) :
    (imageCopyPlan p tight d).writeFootprint = (i420Planes p tight d).y.footprint ++
      (i420Planes p tight d).u.footprint ++ (i420Planes p tight d).v.footprint := by
  simp [imageCopyPlan, Plan.writeFootprint]

theorem convertNv12Plan_writeFootprint (p : Params) (tight : Bool) (d : Dims) :
    (convertNv12Plan p tight d).writeFootprint =
      (nv12Planes p tight d).1.footprint ++ (nv12Planes p tight d).2.footprint := by
  simp [convertNv12Plan, Plan.writeFootprint]

theorem rotatePlan_writeFootprint (p : Params) (tight : Bool) (r : Rotation) (d : Dims) :
    (rotatePlan p tight r d).writeFootprint = (i420Planes p tight (d.rotated r)).y.footprint ++
      (i420Planes p tight (d.rotated r)).u.footprint ++
      (i420Planes p tight (d.rotated r)).v.footprint := by
  simp [rotatePlan, Plan.writeFootprint]

/-! ### Rotations as the statements name them -/

theorem rotationOf_degrees (r : Rotation) : rotationOf (degrees r) = .ok r := by cases r <;> rfl

theorem rightAngle_degrees (r : Rotation) : rightAngle (degrees r) = true := by cases r <;> rfl

/-- `Src` of R145 is the mapping of R141 to R144. -/
theorem rotationSource_eq_inputSample (r : Rotation) (d : Dims) :
    rotationSource r d.w d.h = inputSample r d := by
  funext x y
  cases r <;> rfl

/-! ### Commands without a buffer -/

theorem empty_ordinary (s : State) : OrdinaryBuffers s Plan.empty := by
  simp [OrdinaryBuffers, Plan.empty, Plan.writeFootprint]

theorem empty_noBusFault (s : State) : NoBusFault s Plan.empty := by
  simp [NoBusFault, Plan.empty, Plan.writeFootprint]

theorem movedMemory_empty (s : State) : s.movedMemory Plan.empty = s.mem := by
  rcases movedMemory_cases s Plan.empty with ⟨-, -, h⟩ | ⟨-, h⟩ <;> rw [h] <;> rfl

/-- LAYOUT of an accepted format ends without error, whatever the hosts did. -/
theorem exec_layout {dst src : FmtTag} {angle : Nat} {s : State} {d : Dims} {l : TightLayout}
    (hf : formatsAccepted (.layout dst src angle) = true) (hd : HasDims s.params d)
    (hl : layoutWritten (.layout dst src angle) d = some l) :
    exec (.layout dst src angle) s = .next (ended s
      { s.regs with layout := l.regs, layoutOvf := l.overflows } Plan.empty s.mem) := by
  have hw := workOf_fits (.layout dst src angle) s.params d hf rfl hd
    ⟨by simp [slotTable], by simp [usesTight]⟩
  have hx := exec_moved (i := .layout dst src angle) (by rw [hw]; rfl) (empty_ordinary s)
    (empty_noBusFault s)
  rwa [hw, hl, movedMemory_empty] at hx

/-! ### The statements on completion -/

/-- Settles O11: the registers are those of the layout of the format. -/
theorem layoutCompletes : Obligations.LayoutCompletes := by
  rintro dst src angle s d hd (rfl | rfl)
  · refine ⟨_, _, exec_layout rfl hd rfl, rfl, rfl, rfl, rfl, rfl, rfl, rfl,
      fun _ => ⟨rfl, rfl, rfl⟩, nofun, rfl, decide_eq_true_iff⟩
  · refine ⟨_, _, exec_layout rfl hd rfl, rfl, rfl, rfl, rfl, rfl, rfl, rfl, nofun,
      fun _ => ⟨rfl, rfl, rfl⟩, rfl, decide_eq_true_iff⟩

/-- Settles O12: the plan's moves are those of the one copy loop. -/
theorem copyPlaneCompletes : Obligations.CopyPlaneCompletes := by
  intro dst src angle s d hm hd h0 h3 hu
  have hb : BuffersFit (.copyPlane dst src angle) s.params d :=
    ⟨by simp [slotTable, h0, h3], by simp [usesTight]⟩
  have hs := copyPlanePlan_sound s.params d h0 h3
  have ⟨_, _, hsep, _⟩ := hu
  exact ⟨_, exec_undisturbed rfl rfl hd hb rfl hu,
    planeMoved_copy _ hs hsep s.mem hm.1 _ _ fun _ h => h,
    runMoves_sameOutside hs s.mem (copyPlanePlan_writeFootprint s.params d)⟩

/-- Settles O13: the plan's moves are those of the one interleave loop. -/
theorem interleaveUvCompletes : Obligations.InterleaveUvCompletes := by
  intro dst src angle s d hm hd h1 h2 h4 hu
  have hb : BuffersFit (.interleaveUv dst src angle) s.params d :=
    ⟨by simp [slotTable, h1, h2, h4], by simp [usesTight]⟩
  have hs := interleaveUvPlan_sound s.params d h1 h2 h4
  have ⟨_, _, hsep, _⟩ := hu
  exact ⟨_, exec_undisturbed rfl rfl hd hb rfl hu,
    pairsMoved_interleave _ hs hsep s.mem hm.1 _ _ _ fun _ h => h,
    runMoves_sameOutside hs s.mem (interleaveUvPlan_writeFootprint s.params d)⟩

/-- Settles O14: one proof for the four angles, since the loop takes the mapping as a parameter. -/
theorem rotatePlaneCompletes : Obligations.RotatePlaneCompletes := by
  intro dst src r s d hm hd h0 h3 hu
  have hb : BuffersFit (.rotatePlane dst src (degrees r)) s.params d :=
    ⟨by simp [slotTable, h0, h3], by simp [usesTight]⟩
  have hplan : planOf (.rotatePlane dst src (degrees r)) s.params d =
      .ok (rotatePlanePlan s.params r d) := by
    rw [planOf, rotationOf_degrees]
    rfl
  rw [← rotated_eq_turned] at h3 ⊢
  have hs := rotatePlanePlan_sound s.params r d h0 h3
  have ⟨_, _, hsep, _⟩ := hu
  rw [← rotationSource_eq_inputSample]
  exact ⟨_, exec_undisturbed rfl (rightAngle_degrees r) hd hb hplan hu,
    planeMoved_rotate _ hs hsep s.mem hm.1 r _ _ fun _ h => h,
    runMoves_sameOutside hs s.mem (rotatePlanePlan_writeFootprint s.params r d)⟩

/-- Settles O15: the plan's moves contain those of three copy loops. -/
theorem imageCopyCompletes : Obligations.ImageCopyCompletes := by
  intro tight dst angle s d hm hd ht hb hu
  have hs := planOf_sound (.imageCopy tight dst .i420 angle) s.params d _ rfl hb rfl
  have ⟨_, _, hsep, _⟩ := hu
  have hplane (a b : View)
      (hsub : ∀ mv ∈ copyMoves a b, mv ∈ (imageCopyPlan s.params tight d).moves) :=
    planeMoved_copy _ hs hsep s.mem hm.1 a b hsub
  exact ⟨_, exec_undisturbed (decide_eq_true ⟨rfl, ht⟩) rfl hd hb rfl hu,
    hplane _ _ fun mv h => by simp [imageCopyPlan, h],
    hplane _ _ fun mv h => by simp [imageCopyPlan, h],
    hplane _ _ fun mv h => by simp [imageCopyPlan, h],
    runMoves_sameOutside hs s.mem (imageCopyPlan_writeFootprint s.params tight d)⟩

/-- Settles O16: the plan's moves contain those of a copy loop and of an interleave loop. -/
theorem convertNv12Completes : Obligations.ConvertNv12Completes := by
  intro tight dst angle s d hm hd ht hb hu
  have hs := planOf_sound (.convertNv12 tight dst .i420 angle) s.params d _ rfl hb rfl
  have ⟨_, _, hsep, _⟩ := hu
  exact ⟨_, exec_undisturbed (decide_eq_true ⟨rfl, ht⟩) rfl hd hb rfl hu,
    planeMoved_copy _ hs hsep s.mem hm.1 _ _ fun mv h => by simp [convertNv12Plan, h],
    pairsMoved_interleave _ hs hsep s.mem hm.1 _ _ _ fun mv h => by simp [convertNv12Plan, h],
    runMoves_sameOutside hs s.mem (convertNv12Plan_writeFootprint s.params tight d)⟩

/-- Settles O17: the plan's moves contain those of three rotate loops, the chroma loops over the
halved dimensions. -/
theorem rotateCompletes : Obligations.RotateCompletes := by
  intro tight dst r s d hm hd ht hb hu
  have hplan : planOf (.rotate tight dst .i420 (degrees r)) s.params d =
      .ok (rotatePlan s.params tight r d) := by
    rw [planOf, rotationOf_degrees]
    rfl
  have hs := planOf_sound (.rotate tight dst .i420 (degrees r)) s.params d _ (rightAngle_degrees r)
    hb hplan
  have ⟨_, _, hsep, _⟩ := hu
  have hplane (a b : View)
      (hsub : ∀ mv ∈ rotateMoves r a b, mv ∈ (rotatePlan s.params tight r d).moves) :=
    planeMoved_rotate _ hs hsep s.mem hm.1 r a b hsub
  rw [← rotationSource_eq_inputSample, ← rotationSource_eq_inputSample, ← rotated_eq_turned]
  refine ⟨s.mem.runMoves (rotatePlan s.params tight r d).moves, ?_,
    hplane _ _ fun mv h => by simp [rotatePlan, h],
    hplane _ _ fun mv h => by simp [rotatePlan, h],
    hplane _ _ fun mv h => by simp [rotatePlan, h],
    runMoves_sameOutside hs s.mem (rotatePlan_writeFootprint s.params tight r d)⟩
  rw [rotated_eq_turned]
  exact exec_undisturbed (decide_eq_true ⟨rfl, ht⟩) (rightAngle_degrees r) hd hb hplan hu

/-! ### The laws of COPY_PLANE and INTERLEAVE_UV -/

/-- A command that ends without error, with separated footprints and undisturbed by a host, has run
the moves of its plan. -/
theorem exec_law {i : Instr} {s t : State} {d : Dims} {plan : Plan} (hd : HasDims s.params d)
    (hp : planOf i s.params d = .ok plan) (hsep : Separated plan) (hi : s.interfered = false)
    (hx : exec i s = .next t) (he : t.regs.err = .none) :
    plan.Sound ∧ t.engine = .idle ∧ t.mem = s.mem.runMoves plan.moves := by
  obtain ⟨plan', hp', hs, rfl⟩ := exec_ok i s t hx he
  cases (planOf_of_ok i s.params d plan' hd hp').symm.trans hp
  exact ⟨hs, rfl, movedMemory_of_separated (s := s.laidOut i) hsep hi⟩

/-- Settles O18: an end without error, undisturbed, is the moves done. -/
theorem interleaveLaw : Obligations.InterleaveLaw := by
  intro dst src angle s t d hm hd hi hsep hx he
  obtain ⟨hs, -, hmem⟩ := exec_law hd rfl hsep hi hx he
  rw [hmem]
  exact ⟨pairsMoved_interleave _ hs hsep s.mem hm.1 _ _ _ fun _ h => h,
    runMoves_sameOutside hs s.mem (interleaveUvPlan_writeFootprint s.params d)⟩

/-- Settles O19: the repeated command runs the same independent moves on their own result. -/
theorem copyPlaneLawAndRepeat : Obligations.CopyPlaneLawAndRepeat := by
  intro dst src angle s t u d hm hd hi hsep hx he
  obtain ⟨hs, hidle, hmem⟩ := exec_law hd rfl hsep hi hx he
  refine ⟨?_, ?_, fun hparams hx' he' => ?_⟩
  · rw [hmem]
    exact planeMoved_copy _ hs hsep s.mem hm.1 _ _ fun _ h => h
  · rw [hmem]
    exact runMoves_sameOutside hs s.mem (copyPlanePlan_writeFootprint s.params d)
  · have hi' : t.interfered = false := by rw [State.interfered, hidle]
    have hp : planOf (.copyPlane dst src angle) t.params d = .ok (copyPlanePlan s.params d) := by
      rw [hparams]
      rfl
    obtain ⟨-, -, hmem'⟩ := exec_law (hparams ▸ hd) hp hsep hi' hx' he'
    rw [hmem', hmem]
    exact runMoves_idem (independent_plan hs hsep) hm fun mv hmv =>
      writeFootprint_lt _ hs _ (move_dst_mem _ hs mv hmv)

end Sys2Proof.Completion

/-! SUPPORT. What each end of a command records, and what it shares with the state before. With
them, the statements on errors (R67, R68, R183 to R187), on frames (R31, R66, R181) and on
noninterference are settled. -/

namespace Sys2Proof.Outcomes

open Sys2Proof Sys2Proof.Machine Sys2Proof.Safety Sys2Proof.CheckErrors Sys2Proof.MoveLaws
  Sys2Proof.Completion Sys2Proof.EngineSteps Sys2Proof.CommandEnds

/-! ### Errors of the checks -/

/-- The errors of the checks leave 0 in ERR_ADDR (R181). -/
theorem errAddr_of_workOf_error {i : Instr} {p : Params} {e : CommandError}
    (h : (workOf i p).plan = .error e) : e.errAddr = 0 := by
  rcases workOf_error i p e h with ⟨-, rfl, -⟩ | ⟨-, -, rfl, -⟩ | ⟨-, -, -, rfl, -⟩ |
    ⟨-, -, _, _, -, rfl, -⟩
  all_goals rfl

/-- An error of the checks, on the registers behind the layout step. -/
theorem raise_laidOut {i : Instr} {s : State} {e : CommandError}
    (h : (workOf i s.params).plan = .error e) :
    (s.laidOut i).raise e =
      failed s (s.regs.layoutStep (workOf i s.params).layout) e.errCode e.errSlot :=
  raise_eq_failed (s.laidOut i) (errAddr_of_workOf_error h)

/-- The slot whose check fails is reported behind the layout step. -/
theorem exec_bufferTooSmall {i : Instr} {s : State} {d : Dims} {n : SlotId}
    (hf : formatsAccepted i = true) (ha : angleAccepted i = true) (hd : HasDims s.params d)
    (hb : buffersOf i s.params d = .error (.bufferTooSmall n)) :
    exec i s = .next (failed s (s.regs.layoutStep (layoutWritten i d)) .bufferTooSmall
      (BitVec.ofNat 3 n.number)) := by
  have hw := workOf_dims i s.params d hf ha hd
  rw [hb] at hw
  rw [exec_error i s _ _ hw, raise_eq_failed _ rfl]
  rfl

/-! ### Faulted accesses -/

theorem faultedAccesses_ne_nil {s : State} {plan : Plan}
    (h : (∃ a ∈ plan.readFootprint, s.faults .read a = true) ∨
      ∃ a ∈ plan.writeFootprint, s.faults .write a = true) : s.faultedAccesses plan ≠ [] := by
  rcases h with ⟨a, ha, hf⟩ | ⟨a, ha, hf⟩
  all_goals
    refine List.ne_nil_of_mem (a := a) ?_
    simp [State.faultedAccesses, ha, hf]

theorem extent_lt {plan : Plan} (h : plan.Sound) {v : View} (hv : v ∈ plan.sources) {a : Nat}
    (ha : v.extent.contains a = true) : a < 2 ^ 32 := by
  obtain ⟨-, hle⟩ := h.proper v (.inl hv)
  obtain ⟨-, hlt⟩ := (contains_iff _ _).mp ha
  exact hlt.trans_le hle

theorem faultedAddress_lt {s : State} {plan : Plan} (h : plan.Sound) {a : Nat}
    (ha : FaultedAddress s plan a) : a < 2 ^ 32 := by
  rcases ha with ⟨⟨v, hv, hc⟩, -⟩ | ⟨hw, -⟩
  · exact extent_lt h hv hc
  · exact writeFootprint_lt plan h a hw

/-- The faulted accesses depend on the rules of the memory and on the draw alone. -/
theorem faultedAccesses_congr {s s' : State} (hb : s.busFaults = s'.busFaults)
    (hd : s.draws = s'.draws) (plan : Plan) : s.faultedAccesses plan = s'.faultedAccesses plan := by
  have hfaults : s.faults = s'.faults := by
    funext kind a
    simp only [State.faults, hb]
  simp only [State.faultedAccesses, hfaults, hd]

/-! ### The written bytes -/

/-- Every byte of the write footprint is the destination of a move (R66). -/
theorem exists_move {plan : Plan} (h : plan.Sound) {a : Nat} (ha : a ∈ plan.writeFootprint) :
    ∃ mv ∈ plan.moves, mv.dst = a :=
  List.mem_map.mp (h.dst ▸ ha)

theorem unspecify_unspecified {m : Memory} (hm : m.wf) (draw : Nat) (addrs : List Nat) :
    Unspecified (m.unspecify draw addrs) draw addrs := fun a ha =>
  read_unspecify draw addrs m hm.1 a ha

theorem unspecify_sameOutside (m : Memory) (draw : Nat) (addrs : List Nat) :
    SameOutside m (m.unspecify draw addrs) addrs := fun a ha =>
  read_unspecify_other draw addrs m a ha

/-- No outcome of a plan reaches beyond its write footprint. -/
theorem exec_sameOutside {i : Instr} {s t : State} {plan : Plan} (hx : exec i s = .next t)
    (hp : (workOf i s.params).plan = .ok plan) : SameOutside s.mem t.mem plan.writeFootprint := by
  rcases exec_next hx with ⟨e, he, -⟩ | ⟨plan', hp', hs, ⟨-, rfl⟩ | ⟨-, rfl⟩⟩
  · exact absurd (hp.symm.trans he) (by simp)
  all_goals cases hp.symm.trans hp'
  · exact movedMemory_sameOutside (s := s.laidOut i) hs
  · exact unspecify_sameOutside _ _ _

/-- The moves of a plan take to its write footprint what they find in its read footprint. -/
theorem movedMemory_congr {s s' : State} {plan : Plan} (h : plan.Sound) (hm : s.mem.wf)
    (hm' : s'.mem.wf) (hi : s.interfered = s'.interfered) (hd : s.draws = s'.draws)
    (hread : ∀ a ∈ plan.readFootprint, s.mem.read a = s'.mem.read a) :
    ∀ a ∈ plan.writeFootprint, (s.movedMemory plan).read a = (s'.movedMemory plan).read a := by
  intro a ha
  by_cases hsep : Separated plan ∧ s.interfered = false
  · obtain ⟨hs, hno⟩ := hsep
    obtain ⟨mv, hmv, rfl⟩ := exists_move h ha
    rw [movedMemory_of_separated hs hno, movedMemory_of_separated hs (hi ▸ hno),
      read_runMoves_plan plan h hs s.mem hm.1 mv hmv,
      read_runMoves_plan plan h hs s'.mem hm'.1 mv hmv]
    exact hread mv.src (h.src mv hmv)
  · have hnot : ¬ Separated plan ∨ s.interfered = true := by
      rw [not_and_or, Bool.not_eq_false] at hsep
      exact hsep
    rw [movedMemory_of_not hnot, movedMemory_of_not (hi ▸ hnot),
      unspecify_unspecified hm _ _ a ha, unspecify_unspecified hm' _ _ a ha, hd]

/-! ### The statements on errors -/

/-- Settles O30: the checks of the row come in its order, and the tight check behind them. -/
theorem firstFailingBufferReported : Obligations.FirstFailingBufferReported := by
  intro i s d hf ha hd
  constructor
  · intro pre post e n hrow hpre he hn
    have hb : buffersOf i s.params d = .error (.bufferTooSmall e.1) := by
      rw [buffersOf, hrow, checkAll_error s.params pre post e hpre he]
    have hnumber : BitVec.ofNat 3 e.1.number = n := by
      simp only [List.mem_cons, List.not_mem_nil, or_false, Prod.mk.injEq] at hn
      rcases hn with ⟨hslot, rfl⟩ | ⟨hslot, rfl⟩ | ⟨hslot, rfl⟩ | ⟨hslot, rfl⟩ | ⟨hslot, rfl⟩ |
        ⟨hslot, rfl⟩
      all_goals rw [hslot]; rfl
    rw [exec_bufferTooSmall hf ha hd hb, hnumber]
  · intro hrow htight hnot
    have hb : buffersOf i s.params d = .error (.bufferTooSmall .dst0) := by
      simp only [buffersOf, checkAll_ok s.params _ hrow, htight, if_true,
        checkTight_error s.params _ hnot]
    exact exec_bufferTooSmall hf ha hd hb

/-- Settles O31: only BUFFER_TOO_SMALL is raised behind the layout step. -/
theorem preciseErrors : Obligations.PreciseErrors := by
  intro i s t hx hnone hbus
  rcases exec_next hx with ⟨e, he, rfl⟩ | ⟨plan, -, -, ⟨-, rfl⟩ | ⟨-, rfl⟩⟩
  · rw [raise_laidOut he]
    have hflat (hl : (workOf i s.params).layout = none) :
        s.regs.layoutStep (workOf i s.params).layout = s.regs := by rw [hl, layoutStep_none]
    rcases workOf_error i s.params e he with ⟨-, -, hl⟩ | ⟨-, -, -, hl⟩ | ⟨-, -, -, -, hl⟩ |
      ⟨-, -, d, n, hd, rfl, hl⟩
    · exact .inl (by rw [hflat hl]; rfl)
    · exact .inl (by rw [hflat hl]; rfl)
    · exact .inl (by rw [hflat hl]; rfl)
    · cases hlw : layoutWritten i d with
      | none => exact .inl (by rw [hflat (hl.trans hlw)]; rfl)
      | some l => exact .inr ⟨rfl, d, l, hd, hlw, by rw [hl, hlw]; rfl⟩
  · exact absurd rfl hnone
  · exact absurd rfl hbus

/-- Settles O32: the reported address is one of the faulted accesses. -/
theorem busFaultEndsWithBusError : Obligations.BusFaultEndsWithBusError := by
  intro i s plan hm hp ho hf
  have hs := workOf_sound i s.params plan hp
  have hne := faultedAccesses_ne_nil hf
  have haddr : FaultedAddress s plan (reportedFault s.draws (s.faultedAccesses plan)) :=
    mem_faultedAccesses s plan hs _ (reportedFault_mem s.draws _ hne)
  rcases exec_ordinary hp ho with ⟨hnil, -⟩ | ⟨-, hx⟩
  · exact absurd hnil hne
  · exact ⟨_, _, hx, rfl, haddr, faultedAddress_lt hs haddr, rfl, unspecify_unspecified hm _ _,
      unspecify_sameOutside _ _ _⟩

/-- Settles O33: without R68 the moves leave the write footprint unspecified. -/
theorem overlapIsUnspecified : Obligations.OverlapIsUnspecified := by
  intro i s plan hm hp hsep ho hn
  refine ⟨_, exec_moved hp ho hn, ?_⟩
  rw [movedMemory_of_not (.inl hsep)]
  exact ⟨unspecify_unspecified hm _ _, unspecify_sameOutside _ _ _⟩

/-- Settles O34: the test for devices stands before the faults and the moves, and nothing else is
refused. -/
theorem deviceBuffersRefused : Obligations.DeviceBuffersRefused := by
  intro i s r
  have hrefuses (plan : Plan) : s.platform.forbids plan = true ↔ ¬ OrdinaryBuffers s plan := by
    rw [← forbids_iff, Bool.not_eq_false]
  rcases exec_cases i s with ⟨e, he, hx⟩ | ⟨plan, hp, -, ⟨hf, hx⟩ | ⟨hf, -, hx⟩ | ⟨hf, -, hx⟩⟩
  all_goals rw [hx]
  · simp [he]
  · have hdevice := (hrefuses plan).mp hf
    simp [hp, hdevice, eq_comm]
  all_goals
    have hordinary := (forbids_iff s plan).mp hf
    simp [hp, hordinary]

/-! ### The statements on frames -/

/-- Settles O35: the moves write the footprint in its order, and every other outcome stays inside
it. -/
theorem noByteOutsideTheFootprint : Obligations.NoByteOutsideTheFootprint := by
  intro i s t hx
  refine ⟨fun plan hp => ⟨fun a ha => exists_move (workOf_sound i s.params plan hp) ha,
    exec_sameOutside hx hp⟩, fun e he => ?_⟩
  rcases exec_next hx with ⟨_, -, rfl⟩ | ⟨plan, hp, -⟩
  · rfl
  · exact absurd (hp.symm.trans he) (by simp)

/-- The layout registers behind the layout step (R31, R113). -/
theorem layoutStep_frame (i : Instr) (s : State) :
    ((s.regs.layoutStep (workOf i s.params).layout).layout = s.regs.layout ∧
      (s.regs.layoutStep (workOf i s.params).layout).layoutOvf = s.regs.layoutOvf) ∨
    ∃ d l, HasDims s.params d ∧ layoutWritten i d = some l ∧
      (s.regs.layoutStep (workOf i s.params).layout).layout = l.regs ∧
      (s.regs.layoutStep (workOf i s.params).layout).layoutOvf = decide (l.total ≥ 2 ^ 32) := by
  rcases workOf_layout i s.params with hl | ⟨d, hd, hl⟩
  · exact .inl (by rw [hl]; exact ⟨rfl, rfl⟩)
  · cases hlw : layoutWritten i d with
    | none => exact .inl (by rw [hl, hlw]; exact ⟨rfl, rfl⟩)
    | some l => exact .inr ⟨d, l, hd, hlw, by rw [hl, hlw]; exact ⟨rfl, rfl⟩⟩

/-- Settles O36: the completion step writes the outcome, and a plan memory and its records. -/
theorem registerFrame : Obligations.RegisterFrame := by
  intro i s t hx
  have hparams := layoutStep_params (workOf i s.params).layout s.regs
  have hirq := layoutStep_irqEn (workOf i s.params).layout s.regs
  have hlayout := layoutStep_frame i s
  rcases exec_next hx with ⟨e, -, rfl⟩ | ⟨plan, hp, -, ⟨-, rfl⟩ | ⟨-, rfl⟩⟩
  · exact ⟨hirq, hparams, rfl, rfl, rfl, rfl, rfl, rfl, rfl, fun _ => rfl, .inl rfl, hlayout⟩
  all_goals exact ⟨hirq, hparams, rfl, rfl, rfl, rfl, rfl, rfl, rfl,
    fun hc => Invariant.engineWrote_coherent (s := s.laidOut i) _ hc, .inr ⟨plan, hp, rfl⟩, hlayout⟩

/-- Settles O38: both runs take the same one of the three ends, over the same plan. -/
theorem resultDependsOnlyOnReadFootprint : Obligations.ResultDependsOnlyOnReadFootprint := by
  intro i s s' t t' plan hm hm' hparams _ hfaults hi hdraws hp hread hx hx'
  have hp' : (workOf i s'.params).plan = .ok plan := hparams ▸ hp
  have hacc := faultedAccesses_congr hfaults hdraws plan
  rcases exec_next hx with ⟨e, he, -⟩ | ⟨q, hq, hs, ht⟩
  · exact absurd (hp.symm.trans he) (by simp)
  cases hp.symm.trans hq
  rcases exec_next hx' with ⟨e, he, -⟩ | ⟨q', hq', -, ht'⟩
  · exact absurd (hp'.symm.trans he) (by simp)
  cases hp'.symm.trans hq'
  rw [← hacc] at ht'
  rcases ht with ⟨hnil, rfl⟩ | ⟨hne, rfl⟩
  · obtain ⟨-, rfl⟩ := ht'.resolve_right fun h => h.1 hnil
    exact ⟨movedMemory_congr (s := s.laidOut i) (s' := s'.laidOut i) hs hm hm' hi hdraws hread,
      rfl, rfl⟩
  · obtain ⟨-, rfl⟩ := ht'.resolve_left fun h => hne h.1
    refine ⟨fun a ha => ?_, rfl, by rw [hdraws]; rfl⟩
    rw [busError_mem, busError_mem, unspecify_unspecified hm _ _ a ha,
      unspecify_unspecified hm' _ _ a ha]
    exact congrArg (Config.unspecifiedByte · a) hdraws

end Sys2Proof.Outcomes

/-! SUPPORT. The registers as hosts find them: what each kind of register answers to a write, what
no event but the engine's turn does to the layout registers, and what reset leaves. With them, the
statements on CTRL, STATUS, the operand and layout registers and on reset (R23 to R38, R210, R211)
are settled. -/

namespace Sys2Proof.RegisterFile

open Sys2Proof Sys2Proof.Machine Sys2Proof.Safety Sys2Proof.RegisterPort Sys2Proof.Invariant
  Sys2Proof.EngineSteps Sys2Proof.Outcomes Sys2Proof.CommandEnds

/-! ### Writes of CTRL -/

/-- A host's write of IRQ_EN (R26). -/
abbrev withIrqEn (s : State) (v : Word) : State :=
  { s with regs := { s.regs with irqEn := decide (bits 1 1 v = 1) } }

theorem writeCtrl_reset {s : State} {v : Word} (h : bits 2 2 v = 1) :
    s.writeCtrl v = s.resetBlock := if_pos h

theorem writeCtrl_start {s : State} {v : Word} (h2 : bits 2 2 v = 0) (h0 : bits 0 0 v = 1)
    (hidle : s.busy = false) : s.writeCtrl v = .next (withIrqEn s v).start := by
  rw [State.writeCtrl, if_neg (by omega)]
  exact if_pos ⟨h0, hidle⟩

theorem writeCtrl_irqEn {s : State} {v : Word} (h2 : bits 2 2 v = 0)
    (h : ¬ (bits 0 0 v = 1 ∧ s.busy = false)) : s.writeCtrl v = .next (withIrqEn s v) := by
  rw [State.writeCtrl, if_neg (by omega)]
  exact if_neg h

/-- START disturbs the command it starts exactly where a host has not cleaned a line with a byte of
its buffers (R78). -/
theorem uncleanedBuffers_iff (s : State) (p : Params) :
    s.uncleanedBuffers p = true ↔ s.platform.coherent = false ∧ ∃ plan, p.plan = some plan ∧
      ∃ a ∈ s.uncleaned, ∃ b, (s.platform.line a).contains b = true ∧ plan.touches b = true := by
  unfold State.uncleanedBuffers
  cases p.plan with
  | none => simp
  | some plan => simp [planMeets_iff]

theorem uncleanedBuffers_false {s : State} {p : Params}
    (h : ∀ plan a b, p.plan = some plan → a ∈ s.uncleaned →
      (s.platform.line a).contains b = true → plan.touches b = false) :
    s.uncleanedBuffers p = false := by
  rw [Bool.eq_false_iff, ne_eq, uncleanedBuffers_iff]
  rintro ⟨-, plan, hp, a, ha, b, hb, ht⟩
  exact absurd (h plan a b hp ha hb) (by simp [ht])

/-! ### Writes that change nothing -/

/-- A write is ignored where the register at its offset, if there is one, ignores it. -/
theorem regWrite_ignored {s : State} {o : Nat} {v : Word} (h4 : o % 4 = 0) (hlt : o < 0x100)
    (h : ∀ r, o = r.offset → s.writeReg r v = .next s) : s.regWrite o 4 v = .next s := by
  cases hr : regAt o with
  | none => exact regWrite_reserved s (accessDefined_of_aligned h4 hlt) hr v
  | some r =>
    have ho := regAt_some o r hr
    rw [ho, regWrite_offset]
    exact h r ho

theorem slot_offset_lt (n : SlotId) : n.number ≤ 5 := by cases n <;> decide

/-- The registers from 0x80 on are the layout registers, which are read-only (R31). -/
theorem writeReg_layout {s : State} {r : Reg} {v : Word} (h : 0x80 ≤ r.offset) :
    s.writeReg r v = .next s := by
  cases r with
  | ctrl | status | cmd | width | height => exact absurd h (by decide)
  | slotAddr n | slotLen n | slotStride n =>
    have hn := slot_offset_lt n
    simp only [Reg.offset] at h
    omega
  | _ => rfl

/-- The registers from 0x10 to 0x7C are the operand registers, which a BUSY block keeps (R34). -/
theorem writeReg_busy {s : State} {r : Reg} {v : Word} (hb : s.busy = true) (h : 0x10 ≤ r.offset) :
    s.writeReg r v = .next s := by
  cases r with
  | ctrl | status => exact absurd h (by decide)
  | cmd | width | height => exact congrArg _ (writeOperand_busy s _ hb)
  | slotAddr n | slotLen n | slotStride n => exact congrArg _ (writeOperand_busy s _ hb)
  | _ => rfl

/-! ### The operand registers -/

theorem get_set_same (slots : Slots) (n : SlotId) (slot : Slot) :
    (slots.set n slot).get n = slot := by cases n <;> rfl

theorem get_set_other (slots : Slots) {n m : SlotId} (slot : Slot) (h : m ≠ n) :
    (slots.set n slot).get m = slots.get m := by
  cases n <;> cases m <;> first | rfl | exact absurd rfl h

/-- CMD, WIDTH, HEIGHT and the slot registers (R30, R32). -/
def IsOperand : Reg → Prop
  | .cmd | .width | .height | .slotAddr _ | .slotLen _ | .slotStride _ => True
  | _ => False

/-- The registers with an operand register at a value; any other register is left alone. -/
def setOperand (regs : Registers) (r : Reg) (v : Word) : Registers :=
  match r with
  | .cmd => { regs with cmd := v }
  | .width => { regs with width := v }
  | .height => { regs with height := v }
  | .slotAddr n => { regs with slots := regs.slots.set n { regs.slots.get n with addr := v } }
  | .slotLen n => { regs with slots := regs.slots.set n { regs.slots.get n with len := v } }
  | .slotStride n => { regs with slots := regs.slots.set n { regs.slots.get n with stride := v } }
  | _ => regs

/-- The operand registers stand at the offsets of R21. -/
theorem exists_operand {o : Nat} (hlo : 0x10 ≤ o) (hhi : o < 0x7C) (h4 : o % 4 = 0)
    (h16 : o % 16 ≠ 12) : ∃ r, IsOperand r ∧ r.offset = o := by
  have hslot (n : SlotId) (h : o / 16 = n.number + 2) : ∃ r, IsOperand r ∧ r.offset = o := by
    have hcol : o % 16 = 0 ∨ o % 16 = 4 ∨ o % 16 = 8 := by omega
    rcases hcol with hc | hc | hc
    · exact ⟨.slotAddr n, trivial, by simp only [Reg.offset]; omega⟩
    · exact ⟨.slotLen n, trivial, by simp only [Reg.offset]; omega⟩
    · exact ⟨.slotStride n, trivial, by simp only [Reg.offset]; omega⟩
  have hrow : o / 16 = 1 ∨ o / 16 = 2 ∨ o / 16 = 3 ∨ o / 16 = 4 ∨ o / 16 = 5 ∨ o / 16 = 6 ∨
      o / 16 = 7 := by omega
  rcases hrow with h | h | h | h | h | h | h
  · have hcol : o = 0x10 ∨ o = 0x14 ∨ o = 0x18 := by omega
    rcases hcol with rfl | rfl | rfl
    · exact ⟨.cmd, trivial, rfl⟩
    · exact ⟨.width, trivial, rfl⟩
    · exact ⟨.height, trivial, rfl⟩
  · exact hslot .src0 h
  · exact hslot .src1 h
  · exact hslot .src2 h
  · exact hslot .dst0 h
  · exact hslot .dst1 h
  · exact hslot .dst2 h

/-- While IDLE a write of an operand register stores the value and changes nothing else. -/
theorem regWrite_operand {s : State} {r : Reg} (v : Word) (hr : IsOperand r)
    (hidle : s.engine = .idle) :
    s.regWrite r.offset 4 v = .next { s with regs := setOperand s.regs r v } := by
  have hb := busy_of_idle s hidle
  rw [regWrite_offset]
  cases r with
  | cmd | width | height => exact congrArg _ (writeOperand_idle s _ hb)
  | slotAddr n | slotLen n | slotStride n => exact congrArg _ (writeOperand_idle s _ hb)
  | _ => exact absurd hr id

theorem readReg_setOperand_same (s : State) {r : Reg} (v : Word) (hr : IsOperand r) :
    State.readReg { s with regs := setOperand s.regs r v } r = v := by
  cases r with
  | cmd | width | height => rfl
  | slotAddr n | slotLen n | slotStride n =>
    simp only [State.readReg, setOperand, get_set_same]
  | _ => exact absurd hr id

/-- A slot with one of its registers at a value shows it in no other register of any slot. -/
theorem readReg_setSlot_other (s : State) {n : SlotId} {slot : Slot} {q : Reg}
    (ha : q = .slotAddr n → slot.addr = (s.regs.slots.get n).addr)
    (hl : q = .slotLen n → slot.len = (s.regs.slots.get n).len)
    (hs : q = .slotStride n → slot.stride = (s.regs.slots.get n).stride) :
    State.readReg { s with regs := { s.regs with slots := s.regs.slots.set n slot } } q =
      s.readReg q := by
  cases q with
  | slotAddr m | slotLen m | slotStride m =>
    simp only [State.readReg]
    by_cases hm : m = n
    · subst hm
      rw [get_set_same]
      simp_all
    · rw [get_set_other _ _ hm]
  | _ => rfl

theorem readReg_setOperand_other (s : State) {r q : Reg} (v : Word) (h : q ≠ r) :
    State.readReg { s with regs := setOperand s.regs r v } q = s.readReg q := by
  cases r with
  | cmd | width | height =>
    cases q <;> first | rfl | exact absurd rfl h
  | slotAddr n => exact readReg_setSlot_other s (fun hq => absurd hq h) (fun _ => rfl) fun _ => rfl
  | slotLen n => exact readReg_setSlot_other s (fun _ => rfl) (fun hq => absurd hq h) fun _ => rfl
  | slotStride n =>
    exact readReg_setSlot_other s (fun _ => rfl) (fun _ => rfl) fun hq => absurd hq h
  | _ => rfl

/-- Two states whose registers but one read the same read the same at every other offset. -/
theorem readOffset_other {s t : State} {r : Reg} (h : ∀ q, q ≠ r → t.readReg q = s.readReg q)
    {o : Nat} (ho : o ≠ r.offset) : t.readOffset o = s.readOffset o := by
  cases hq : regAt o with
  | none => rw [readOffset_reserved t hq, readOffset_reserved s hq]
  | some q =>
    obtain rfl := regAt_some o q hq
    rw [readOffset_offset, readOffset_offset]
    exact h q fun hqr => ho (congrArg _ hqr)

/-! ### STATUS -/

theorem readOffset_status (s : State) : s.readOffset 0x08 =
    statusWord s.busy s.regs.done s.readLayoutOvf s.regs.err s.regs.errSlot :=
  readOffset_offset s .status

/-- A host's read of STATUS keeps the LAYOUT_OVF it shows, and sees DONE (R28, R38, R76). -/
theorem regRead_status (s : State) : s.regRead 0x08 4 = .next
    { s with
      regs := { s.regs with layoutOvf := s.readLayoutOvf },
      readData := statusWord s.busy s.regs.done s.readLayoutOvf s.regs.err s.regs.errSlot,
      draws := s.draws + 1, unseen := s.unseenAfter s.regs.done } := by
  rw [← readOffset_status]
  exact if_pos (accessDefined_offset .status)

/-- A flag as the number of its bit. -/
theorem toNat_eq_ite (b : Bool) : b.toNat = if b = true then 1 else 0 := by cases b <;> rfl

/-- A host's write of STATUS in one form for both values of its bit 1 (R28). -/
theorem writeStatus_eq (s : State) (v : Word) : s.writeStatus v =
    { s with regs := { s.regs with done := if bits 1 1 v = 1 then false else s.regs.done } } := by
  unfold State.writeStatus
  split
  · rfl
  · rfl

/-! ### What the events do to the layout registers -/

/-- The layout registers are kept, and LAYOUT_OVF is not cleared (R31, R38). -/
def KeepsLayout (r u : Registers) : Prop :=
  u.layout = r.layout ∧ (r.layoutOvf = true → u.layoutOvf = true)

theorem keepsLayout_refl (r : Registers) : KeepsLayout r r := ⟨rfl, id⟩

theorem writeCtrl_layout {s t : State} {v : Word} (h : s.writeCtrl v = .next t) :
    t.regs = Registers.reset ∨ KeepsLayout s.regs t.regs ∨
      (s.engine = .idle ∧ t.busy = true ∧ t.regs.layout = s.regs.layout) := by
  rcases writeCtrl_cases s v with ⟨-, hx⟩ | ⟨-, -, hidle, hx⟩ | ⟨-, -, hx⟩
  all_goals rw [hx] at h
  · exact .inl (resetBlock_next s t h).1
  · cases h
    exact .inr (.inr ⟨engine_of_busy_false s hidle, rfl, rfl⟩)
  · cases h
    exact .inr (.inl ⟨rfl, id⟩)

theorem regWrite_layout {s t : State} {o b : Nat} {v : Word} (h : s.regWrite o b v = .next t) :
    t.regs = Registers.reset ∨ KeepsLayout s.regs t.regs ∨
      (s.engine = .idle ∧ t.busy = true ∧ t.regs.layout = s.regs.layout) := by
  rcases regWrite_cases s t o b v h with rfl | ⟨-, hc⟩ | ⟨-, rfl⟩ | ⟨-, _, _, _, _, rfl⟩
  · exact .inr (.inl (keepsLayout_refl _))
  · exact writeCtrl_layout hc
  · rw [writeStatus_eq]
    exact .inr (.inl ⟨rfl, id⟩)
  · exact .inr (.inl ⟨rfl, id⟩)

theorem regRead_layout {s t : State} {o b : Nat} (h : s.regRead o b = .next t) :
    KeepsLayout s.regs t.regs := by
  unfold State.regRead at h
  split at h
  · cases h
    rcases regsAfterRead_cases s o with ⟨-, hx⟩ | ⟨-, hx⟩
    · exact ⟨by rw [hx], fun ho => by rw [hx]; exact readLayoutOvf_of_set s ho⟩
    · rw [hx]
      exact keepsLayout_refl _
  · cases h

/-- Every event but the engine's turn keeps the layout registers or resets the block, and clears
LAYOUT_OVF only by a reset or START. -/
theorem handle_layout {s t : State} {e : Event} (he : e ≠ .engineTurn) (h : s.handle e = .next t) :
    t.regs = Registers.reset ∨ KeepsLayout s.regs t.regs ∨
      (s.engine = .idle ∧ t.busy = true ∧ t.regs.layout = s.regs.layout) := by
  have of_eq (hregs : t.regs = s.regs) : t.regs = Registers.reset ∨ KeepsLayout s.regs t.regs ∨
      (s.engine = .idle ∧ t.busy = true ∧ t.regs.layout = s.regs.layout) :=
    .inr (.inl (hregs ▸ keepsLayout_refl _))
  cases e with
  | engineTurn => exact absurd rfl he
  | regWrite offset bytes value => exact regWrite_layout h
  | regRead offset bytes => exact .inr (.inl (regRead_layout h))
  | irqRead => cases h; exact of_eq rfl
  | memWrite addr value =>
    exact of_eq ((congrArg State.regs (hostWrite_next s t addr value h)).trans
      (ordinaryWrite_frame s _ value).1)
  | memRead addr => exact of_eq (by rw [hostRead_next s t addr h]; rfl)
  | busWrite addr value =>
    exact of_eq ((congrArg State.regs (busWrite_next s t addr value h)).trans
      (masterWrite_frame s _ value).1)
  | busRead addr => exact of_eq (by rw [busRead_next s t addr h]; rfl)
  | cacheClean region => cases h; exact of_eq (cacheClean_regs s region)
  | cacheInvalidate region => cases h; exact of_eq (cacheInvalidate_regs s region)
  | resetInput => exact .inl (resetBlock_next s t h).1
  | memoryFaults rules => cases h; exact of_eq rfl

/-! ### What the engine does to the layout registers -/

/-- Whatever the outcome, the layout registers are those behind the layout step. -/
theorem exec_layout_regs {i : Instr} {s t : State} (h : exec i s = .next t) :
    t.regs.layout = (s.regs.layoutStep (workOf i s.params).layout).layout ∧
    t.regs.layoutOvf = (s.regs.layoutStep (workOf i s.params).layout).layoutOvf := by
  rcases exec_next h with ⟨e, -, rfl⟩ | ⟨plan, -, -, ⟨-, rfl⟩ | ⟨-, rfl⟩⟩
  all_goals exact ⟨rfl, rfl⟩

/-- COPY_PLANE, INTERLEAVE_UV and ROTATE_PLANE write no layout (R31). -/
theorem workOf_layout_primitive {i : Instr} (p : Params)
    (h : ∃ dst src angle, i = .copyPlane dst src angle ∨ i = .interleaveUv dst src angle ∨
      i = .rotatePlane dst src angle) : (workOf i p).layout = none := by
  obtain ⟨dst, src, angle, rfl | rfl | rfl⟩ := h
  all_goals rfl

/-- The errors raised in front of the layout step (R183). -/
theorem workOf_layout_early {i : Instr} {s t : State} (hx : exec i s = .next t)
    (h : t.regs.err = .unsupportedFormat ∨ t.regs.err = .unsupportedAngle ∨
      t.regs.err = .invalidDimensions) : (workOf i s.params).layout = none := by
  rcases exec_next hx with ⟨e, he, rfl⟩ | ⟨plan, -, -, ⟨-, rfl⟩ | ⟨-, rfl⟩⟩
  · rcases workOf_error i s.params e he with ⟨-, -, hl⟩ | ⟨-, -, -, hl⟩ | ⟨-, -, -, -, hl⟩ |
      ⟨-, -, d, n, -, rfl, -⟩
    · exact hl
    · exact hl
    · exact hl
    · simp [raise_regs, CommandError.errCode] at h
  · simp at h
  · simp at h

theorem work_legal {p : Params} {i : Instr} (h : decodeWord p.cmd = .ok i) :
    p.work = workOf i p := by
  rw [Params.work, h]

theorem params_busy {s : State} {latched : Params} {f : Bool} (h : s.engine = .busy latched f) :
    s.params = latched := by
  rw [State.params, h]

/-- The engine's turn sets LAYOUT_OVF again where a host has seen it set (R38). -/
theorem engineTurn_layoutOvf {s t : State} (h : Consistent s) (ho : s.regs.layoutOvf = true)
    (hx : s.engineTurn = .next t) : t.regs.layoutOvf = true := by
  obtain ⟨-, -, hbusy, -⟩ := h
  cases he : s.engine with
  | idle =>
    rw [engineTurn_idle he] at hx
    cases hx
    exact ho
  | busy latched f =>
    cases hd : decodeWord latched.cmd with
    | error r =>
      rw [engineTurn_illegal he hd] at hx
      cases hx
      exact ho
    | ok i =>
      obtain ⟨-, -, -, -, -, hovf⟩ := hbusy latched f he
      obtain ⟨l, hl, hge⟩ := hovf ho
      rw [pendingLayout_busy he, work_legal hd, ← params_busy he] at hl
      rw [engineTurn_legal he hd] at hx
      rw [(exec_layout_regs hx).2, hl]
      exact decide_eq_true hge

/-! ### Reset -/

/-- What a host reads behind a reset (R210). -/
theorem readOffset_of_reset {t : State} (hr : t.regs = Registers.reset) (he : t.engine = .idle)
    {o : Nat} (ho : o ≠ 0x00) : t.readOffset o = 0 := by
  cases hq : regAt o with
  | none => exact readOffset_reserved t hq
  | some q =>
    obtain rfl := regAt_some o q hq
    rw [readOffset_offset]
    have hb := busy_of_idle t he
    have hl := pendingLayout_idle t he
    cases q with
    | id => exact absurd rfl ho
    | slotAddr n | slotLen n | slotStride n => simp only [State.readReg, hr]; cases n <;> rfl
    | ctrl | errAddr | cmd | width | height => simp only [State.readReg, hr]; rfl
    | status => simp only [State.readReg, State.readLayoutOvf, hr, hb, hl]; rfl
    | _ => simp only [State.readReg, State.readLayoutReg, hr, hl]; rfl

/-- What is the same behind every reset. -/
theorem reset_observed {t : State} (hr : t.regs = Registers.reset) (he : t.engine = .idle) :
    t.engine = .idle ∧ t.irq = false ∧ t.readOffset 0x00 = 0x53504331 ∧
    ∀ o, o ≠ 0x00 → t.readOffset o = 0 :=
  ⟨he, irq_low_of_done (by rw [hr]; rfl), readOffset_offset t .id,
    fun _ ho => readOffset_of_reset hr he ho⟩

/-! ### The statements -/

/-- Settles O37: the engine writes the layout registers by the layout step and nothing else does. -/
theorem layoutRegistersReadOnly : Obligations.LayoutRegistersReadOnly := by
  refine ⟨fun s t e he h => ?_, fun s t i hx h => ?_, fun s t latched f r hb hr hx => ?_,
    fun s => rfl, fun s o v hlo hhi h4 => ?_, fun s hl => ?_⟩
  · rcases handle_layout he h with hr | ⟨hl, -⟩ | ⟨-, -, hl⟩
    · exact .inr hr
    · exact .inl hl
    · exact .inl hl
  · have hnone : (workOf i s.params).layout = none :=
      h.elim (workOf_layout_primitive s.params) (workOf_layout_early hx)
    rw [(exec_layout_regs hx).1, hnone, layoutStep_none]
  · rw [engineTurn_illegal hb hr] at hx
    cases hx
    rfl
  · exact regWrite_ignored h4 (by omega) fun r ho => writeReg_layout (ho ▸ hlo)
  · have hread (r : Reg) (w : Word) (h : s.readReg r = s.readLayoutReg w) :
        s.readOffset r.offset = w := by
      rw [readOffset_offset, h, State.readLayoutReg, hl]
    exact ⟨hread .lCw _ rfl, hread .lCh _ rfl, hread .lOutW _ rfl, hread .lOutH _ rfl,
      hread .lYOff _ rfl, hread .lYStride _ rfl, hread .lUOff _ rfl, hread .lUStride _ rfl,
      hread .lVOff _ rfl, hread .lVStride _ rfl, hread .lTotal _ rfl⟩

/-- Settles O40: START and no START take IRQ_EN alike. -/
theorem ctrlReadAndWrite : Obligations.CtrlReadAndWrite := by
  intro s v
  rw [regWrite_ctrl]
  refine ⟨?_, fun h2 => ?_, fun h2 h0 => writeCtrl_irqEn h2 (by omega)⟩
  · have hread : s.readOffset 0x04 = ctrlWord s.regs.irqEn := readOffset_offset s .ctrl
    rw [hread]
    cases s.regs.irqEn <;> rfl
  · by_cases hstart : bits 0 0 v = 1 ∧ s.busy = false
    · exact ⟨_, writeCtrl_start h2 hstart.1 hstart.2, rfl⟩
    · exact ⟨_, writeCtrl_irqEn h2 hstart, rfl⟩

/-- Settles O41: the flag is whether a host has left a line of the buffers uncleaned. -/
theorem startLatchesOrIsIgnored : Obligations.StartLatchesOrIsIgnored := by
  intro s v h0 h2
  rw [regWrite_ctrl]
  refine ⟨fun hidle => ?_, fun hb => writeCtrl_irqEn h2 (by simp [hb])⟩
  refine ⟨_, writeCtrl_start h2 h0 (busy_of_idle s hidle), fun hc => ?_, fun h => ?_⟩
  · rw [Bool.eq_false_iff, ne_eq, uncleanedBuffers_iff]
    rintro ⟨hnot, -⟩
    exact absurd (hc.symm.trans hnot) (by simp)
  · exact uncleanedBuffers_false (s := withIrqEn s v) h

/-- Settles O42: the fields of the word do not overlap, and no event but START and reset clears
LAYOUT_OVF, the engine's turn of a consistent state included. -/
theorem statusFields : Obligations.StatusFields := by
  intro s
  rw [readOffset_status]
  obtain ⟨hbusy, hdone, hovf, hbit3, herr, hslot, hhigh⟩ :=
    bits_statusWord s.busy s.regs.done s.readLayoutOvf s.regs.err s.regs.errSlot
  rw [hbusy, hdone, hovf, hbit3, herr, hslot, hhigh]
  refine ⟨toNat_eq_ite _, toNat_eq_ite _, fun hl => ?_, rfl, fun code hcode => ?_, rfl, rfl,
    fun ho => ?_, fun t ht hbit => ?_, fun t e hc ho hx => ?_, readOffset_offset s .errAddr,
    fun v => regWrite_offset s .errAddr v⟩
  · rw [readLayoutOvf_eq s hl, toNat_eq_ite]
  · simp only [List.mem_cons, List.not_mem_nil, or_false, Prod.mk.injEq] at hcode
    rcases hcode with ⟨h, rfl⟩ | ⟨h, rfl⟩ | ⟨h, rfl⟩ | ⟨h, rfl⟩ | ⟨h, rfl⟩ | ⟨h, rfl⟩ | ⟨h, rfl⟩
    all_goals rw [h]; rfl
  · rw [readLayoutOvf_of_set s ho]
    rfl
  · rw [regRead_status] at ht
    cases ht
    exact Bool.toNat_eq_one.mp (hovf.symm.trans hbit)
  · by_cases he : e = .engineTurn
    · subst he
      exact .inl (engineTurn_layoutOvf hc ho hx)
    · rcases handle_layout he hx with hr | ⟨-, hkeep⟩ | ⟨hidle, hb, -⟩
      · exact .inr (.inl hr)
      · exact .inl (hkeep ho)
      · exact .inr (.inr ⟨hidle, hb⟩)

/-- Settles O43: in a consistent BUSY state DONE is 0 already. -/
theorem statusWriteClearsDone : Obligations.StatusWriteClearsDone := by
  intro s v
  rw [regWrite_status]
  refine ⟨congrArg _ (writeStatus_eq s v), fun ⟨_, _, hbusy, _⟩ hb => ?_⟩
  obtain ⟨latched, f, he⟩ := (busy_iff s).mp hb
  obtain ⟨hdone, -⟩ := hbusy latched f he
  have hsame : (if bits 1 1 v = 1 then false else s.regs.done) = s.regs.done := by simp [hdone]
  rw [writeStatus_eq, hsame]

/-- Settles O44: every offset of the range holds an operand register, and a write of one shows in no
other. -/
theorem operandRegistersReadBack : Obligations.OperandRegistersReadBack := by
  refine ⟨fun s o v hidle hlo hhi h4 h16 => ?_, fun s v hidle => ?_⟩
  · obtain ⟨r, hr, rfl⟩ := exists_operand hlo hhi h4 h16
    refine ⟨_, regWrite_operand v hr hidle, ?_, fun other ho => ?_, hidle, rfl, rfl⟩
    · rw [readOffset_offset, readReg_setOperand_same s v hr]
    · exact readOffset_other (fun q hq => readReg_setOperand_other s v hq) ho
  · refine ⟨regWrite_operand (r := .cmd) v trivial hidle,
      regWrite_operand (r := .width) v trivial hidle,
      regWrite_operand (r := .height) v trivial hidle, fun e he => ?_⟩
    have hoff : e.1 = 0x20 + 0x10 * e.2.number := by
      revert e
      decide
    have hlen : e.1 + 4 = (Reg.slotLen e.2).offset := by
      simp only [Reg.offset, hoff]
      omega
    have hstride : e.1 + 8 = (Reg.slotStride e.2).offset := by
      simp only [Reg.offset, hoff]
      omega
    rw [hlen, hstride, hoff]
    exact ⟨regWrite_operand (r := .slotAddr e.2) v trivial hidle,
      regWrite_operand (r := .slotLen e.2) v trivial hidle,
      regWrite_operand (r := .slotStride e.2) v trivial hidle⟩

/-- Settles O45: no register from CMD on takes a value while BUSY. -/
theorem busyIgnoresOperandWrites : Obligations.BusyIgnoresOperandWrites :=
  fun _ _ _ hb hlo hhi h4 =>
    regWrite_ignored h4 (by omega) fun _ ho => writeReg_busy hb (ho ▸ hlo)

/-- Settles O47: the access is not defined. -/
theorem otherRegisterAccessRefused : Obligations.OtherRegisterAccessRefused := by
  intro s offset bytes v h
  have hno : accessDefined offset bytes = false := decide_eq_false (by omega)
  exact ⟨by rw [State.regRead, hno]; rfl, by rw [State.regWrite, hno]; rfl⟩

/-- Settles O49: both ways of asking are one reset of the block. -/
theorem resetState : Obligations.ResetState := by
  refine ⟨fun s t v h2 h => ?_, reset_observed rfl rfl⟩
  rw [regWrite_ctrl, writeCtrl_reset h2] at h
  have hx : s.resetBlock = .next t := h.elim id id
  obtain ⟨hregs, hidle, -⟩ := resetBlock_next s t hx
  obtain ⟨he, hirq, hid, hzero⟩ := reset_observed hregs hidle
  refine ⟨he, hirq, hid, hzero, fun hno => ?_⟩
  rcases resetBlock_cases s with ⟨-, hr⟩ | ⟨plan, hp, -⟩
  · rw [hr] at hx
    cases hx
    rfl
  · exact absurd (hno.symm.trans hp) (by simp)

/-- Settles O50: over ordinary memory the reset is not refused. -/
theorem resetAbandonsTheCommand : Obligations.ResetAbandonsTheCommand := by
  intro s plan v hm hp ho h2
  rw [regWrite_ctrl, writeCtrl_reset h2]
  rcases resetBlock_cases s with ⟨hno, -⟩ | ⟨plan', hp', hr⟩
  · exact absurd (hno.symm.trans hp) (by simp)
  · cases hp.symm.trans hp'
    rcases hr with ⟨hf, -⟩ | ⟨-, hr⟩
    · exact absurd hf (by simp [(forbids_iff s plan).mpr ho])
    · exact ⟨_, hr, hr, rfl, rfl, rfl, unspecify_unspecified hm _ _, unspecify_sameOutside _ _ _⟩

end Sys2Proof.RegisterFile

/-! SUPPORT. Hosts and other bus masters at memory: what a read returns, what a write leaves, and
what cleaning and invalidating do to the records of cached bytes. With them, the statements on hosts
and memory (R74 to R78, R82) are settled. -/

namespace Sys2Proof.SharedMemory

open Sys2Proof Sys2Proof.Machine Sys2Proof.Safety Sys2Proof.Invariant Sys2Proof.EngineSteps
  Sys2Proof.Completion Sys2Proof.Outcomes Sys2Proof.RegisterFile

/-! ### The running command's bytes -/

theorem runningWrites_of_plan {s : State} {plan : Plan} (h : s.runningPlan = some plan) (a : Nat) :
    s.runningWrites a = true ↔ a ∈ plan.writeFootprint := by
  rw [State.runningWrites, h, List.contains_iff_mem]

theorem runningTouches_of_plan {s : State} {plan : Plan} (h : s.runningPlan = some plan) (a : Nat) :
    s.runningTouches a = plan.touches a := by
  rw [State.runningTouches, h]

theorem runningWrites_of_not_touches {s : State} {a : Nat} (h : s.runningTouches a = false) :
    s.runningWrites a = false := by
  cases hp : s.runningPlan with
  | none => rw [State.runningWrites, hp]
  | some plan =>
    rw [runningTouches_of_plan hp] at h
    rw [Bool.eq_false_iff, ne_eq, runningWrites_of_plan hp]
    exact not_mem_of_not_touches plan a h

/-- The bytes depend on the latched parameters alone, which no disturbance changes. -/
theorem runningPlan_disturbed {s t : State}
    (h : t.engine = s.engine ∨ t.engine = s.engine.disturbed) : t.runningPlan = s.runningPlan := by
  rcases h with h | h
  · rw [State.runningPlan, State.runningPlan, h]
  · rw [State.runningPlan, State.runningPlan, h]
    cases s.engine <;> rfl

theorem runningWrites_disturbed {s t : State} (a : Nat)
    (h : t.engine = s.engine ∨ t.engine = s.engine.disturbed) :
    t.runningWrites a = s.runningWrites a := by
  rw [State.runningWrites, State.runningWrites, runningPlan_disturbed h]

theorem runningWrites_idle {s : State} (h : s.engine = .idle) (a : Nat) :
    s.runningWrites a = false := by
  rw [State.runningWrites, State.runningPlan, h]

theorem runningPlan_busy {s : State} {latched : Params} {f : Bool} {i : Instr} {plan : Plan}
    (h : s.engine = .busy latched f) (hi : decodeWord latched.cmd = .ok i)
    (hp : (workOf i latched).plan = .ok plan) : s.runningPlan = some plan := by
  rw [State.runningPlan, h]
  simp only [Params.plan, work_legal hi, hp]

/-- A command that the hosts disturbed ends without error, its write footprint unspecified (R77). -/
theorem engineTurn_interfered {s : State} {latched : Params} {i : Instr} {plan : Plan}
    (hm : s.mem.wf) (he : s.engine = .busy latched true) (hi : decodeWord latched.cmd = .ok i)
    (hp : (workOf i latched).plan = .ok plan) (ho : OrdinaryBuffers s plan)
    (hn : NoBusFault s plan) :
    ∃ u, s.engineTurn = .next u ∧ u.regs.err = .none ∧ u.regs.done = true ∧
      Unspecified u.mem s.draws plan.writeFootprint ∧
      SameOutside s.mem u.mem plan.writeFootprint := by
  have hint : s.interfered = true := by rw [State.interfered, he]
  rw [← params_busy he] at hp
  have hx := exec_moved hp ho hn
  rw [movedMemory_of_not (.inr hint)] at hx
  exact ⟨_, (engineTurn_legal he hi).trans hx, rfl, rfl, unspecify_unspecified hm _ _,
    unspecify_sameOutside _ _ _⟩

/-! ### What a read returns -/

/-- No command that runs, or whose end no host has seen, writes the byte (R77). -/
structure Settled (s : State) (a : Nat) : Prop where
  running : s.runningWrites a = false
  unseen : ∀ p ∈ s.unseen, a ∉ p.writeFootprint

theorem settled_of_not_contested {s : State} {a : Nat} (h : s.contested a = false) :
    Settled s a := by
  obtain ⟨hrun, hunseen⟩ := (contested_false s a).mp h
  exact ⟨runningWrites_of_not_touches hrun,
    fun p hp => not_mem_of_not_touches p a (hunseen p hp)⟩

theorem ordinaryRead_settled {s : State} {a : Nat} (h : Settled s a)
    (hs : s.platform.coherent = false → a ∉ s.stale) : s.ordinaryRead a = s.mem.read a := by
  rcases ordinaryRead_cases s a with ⟨hw | ⟨p, hp, hw⟩ | ⟨hc, hw⟩, -⟩ | ⟨-, -, -, hx⟩
  · exact absurd h.running (by simp [hw])
  · exact absurd hw (h.unseen p hp)
  · exact absurd hw (hs hc)
  · exact hx

theorem masterRead_settled {s : State} {a : Nat} (h : Settled s a)
    (hu : s.platform.coherent = false → a ∉ s.uncleaned) : s.masterRead a = s.mem.read a :=
  ordinaryRead_settled (s := { s with stale := s.uncleaned }) ⟨h.running, h.unseen⟩ hu

theorem ordinaryRead_free {s : State} {a : Nat}
    (h : s.runningWrites a = true ∨ (∃ p ∈ s.unseen, a ∈ p.writeFootprint) ∨
      (s.platform.coherent = false ∧ a ∈ s.stale)) :
    s.ordinaryRead a = Config.unspecifiedByte s.draws a := by
  rcases ordinaryRead_cases s a with ⟨-, hx⟩ | ⟨hrun, hunseen, hstale, -⟩
  · exact hx
  · rcases h with hw | ⟨p, hp, hw⟩ | ⟨hc, hw⟩
    · exact absurd hw (by simp [hrun])
    · exact absurd hw (hunseen p hp)
    · exact absurd hw (hstale hc)

/-- A host's read, where it returns the byte in memory. -/
theorem handle_memRead {s : State} {addr : Word} (ha : HostAddress s addr)
    (h : Settled s (uint32 addr)) (hs : s.platform.coherent = false → uint32 addr ∉ s.stale) :
    s.handle (.memRead addr) = .next (s.afterRead (s.mem.read (uint32 addr))) := by
  rw [← ordinaryRead_settled h hs]
  exact hostRead_ok s addr ha

/-- What a read by a host or another bus master returns at an ordinary address. -/
theorem handle_read {s : State} {e : Event} {addr : Word}
    (he : e = .memRead addr ∨ e = .busRead addr) (ha : HostAddress s addr) :
    ∃ b, s.handle e = .next (s.afterRead b) ∧
      (s.runningWrites (uint32 addr) = true ∨ (∃ p ∈ s.unseen, uint32 addr ∈ p.writeFootprint) →
        b = Config.unspecifiedByte s.draws (uint32 addr)) ∧
      (Settled s (uint32 addr) →
        s.platform.coherent = true ∨ (e = .busRead addr ∧ uint32 addr ∉ s.uncleaned) →
        b = s.mem.read (uint32 addr)) := by
  rcases he with rfl | rfl
  · refine ⟨_, hostRead_ok s addr ha, fun h => ordinaryRead_free (or_assoc.mp (.inl h)),
      fun h hc => ordinaryRead_settled h fun hc' => ?_⟩
    simp [hc'] at hc
  · refine ⟨_, busRead_ok s addr ha, fun h => ?_, fun h hc => masterRead_settled h fun hc' => ?_⟩
    · exact ordinaryRead_free (s := { s with stale := s.uncleaned }) (or_assoc.mp (.inl h))
    · simpa [hc'] using hc

/-! ### What a write leaves -/

/-- The state behind a byte written by another agent than the engine, but for the records of cached
bytes. -/
structure Stored (s : State) (a : Nat) (v : Byte) (t : State) : Prop where
  regs : t.regs = s.regs
  platform : t.platform = s.platform
  busFaults : t.busFaults = s.busFaults
  unseen : t.unseen = s.unseen
  engine : t.engine = (s.storeByte a v).engine
  mem : t.mem = (s.storeByte a v).mem

theorem ordinaryWrite_stored (s : State) (a : Nat) (v : Byte) :
    Stored s a v (s.ordinaryWrite a v) := by
  obtain ⟨hregs, hplat, hfaults, -, -, hunseen, -⟩ := storeByte_frame s a v
  rw [ordinaryWrite_eq]
  exact ⟨hregs, hplat, hfaults, hunseen, rfl, rfl⟩

theorem masterWrite_stored (s : State) (a : Nat) (v : Byte) :
    Stored s a v (s.masterWrite a v) := by
  obtain ⟨hregs, hplat, hfaults, -, -, hunseen, -⟩ := storeByte_frame s a v
  exact ⟨hregs, hplat, hfaults, hunseen, rfl, rfl⟩

theorem handle_write {s : State} {e : Event} {addr : Word} {v : Byte}
    (he : e = .memWrite addr v ∨ e = .busWrite addr v) (ha : HostAddress s addr) :
    ∃ t, s.handle e = .next t ∧ Stored s (uint32 addr) v t := by
  rcases he with rfl | rfl
  · exact ⟨_, hostWrite_ok s addr v ha, ordinaryWrite_stored s _ v⟩
  · exact ⟨_, busWrite_ok s addr v ha, masterWrite_stored s _ v⟩

/-- Outside the buffers of R77 the byte is stored, and nothing else happens. -/
theorem storeByte_of_not_contested {s : State} {a : Nat} (v : Byte) (h : s.contested a = false) :
    s.storeByte a v = { s with mem := s.mem.write a v } := by
  rcases storeByte_cases s a v with ⟨-, hx⟩ | ⟨hc, -⟩
  · exact hx
  · exact absurd hc (by simp [h])

theorem storeByte_of_contested {s : State} {a : Nat} (v : Byte) (h : s.contested a = true) :
    s.storeByte a v =
      { s with
        engine := if s.runningTouches a then s.engine.disturbed else s.engine,
        mem := Memory.unspecify s.draws ((s.unseenAt a).flatMap Plan.writeFootprint)
          (if Config.hostWriteSurvives s.draws then s.mem.write a v else s.mem),
        draws := s.draws + 1 } := by
  rcases storeByte_cases s a v with ⟨hc, -⟩ | ⟨-, hx⟩
  · exact absurd h (by simp [hc])
  · exact hx

/-- A write that may or may not survive (R77) keeps every other byte and the order of memory. -/
theorem surviving_write (m : Memory) (a : Nat) (v : Byte) (survives : Bool) (hm : m.wf)
    (ha : a < 2 ^ 32) :
    Memory.wf (if survives then m.write a v else m) ∧
      SameOutside m (if survives then m.write a v else m) [a] := by
  cases survives
  · exact ⟨hm, fun _ _ => rfl⟩
  · exact ⟨write_wf m a v hm ha, fun b hb => read_write_other m a b v (by simpa using hb)⟩

theorem write_sameOutside (m : Memory) (a : Nat) (v : Byte) : SameOutside m (m.write a v) [a] :=
  fun b hb => read_write_other m a b v (by simpa using hb)

/-- Behind a write outside the buffers of R77 no command has a byte of its buffers there either. -/
theorem settled_of_stored {s t : State} {a : Nat} {v : Byte} (h : s.contested a = false)
    (ht : Stored s a v t) : Settled t a := by
  obtain ⟨hrun, hunseen⟩ := settled_of_not_contested h
  have hengine : t.engine = s.engine := by rw [ht.engine, storeByte_of_not_contested v h]
  exact ⟨(runningWrites_disturbed a (.inl hengine)).trans hrun, by rwa [ht.unseen]⟩

theorem hostAddress_of_platform {s t : State} {addr : Word} (h : t.platform = s.platform)
    (ha : HostAddress s addr) : HostAddress t addr := by
  rwa [HostAddress, h]

/-! ### Cleaning and invalidating -/

theorem line_contains_comm (p : Platform) (a b : Nat) :
    (p.line a).contains b = (p.line b).contains a := by
  rw [Bool.eq_iff_iff, line_contains_iff, line_contains_iff, eq_comm]

/-- Cleaning changes no byte that is not stale, and settles and unsettles none. -/
theorem cacheClean_settled {s : State} {a : Nat} (r : Region) (h : Settled s a)
    (hs : s.platform.coherent = false → a ∉ s.stale) :
    Settled (s.cacheClean r) a ∧ (s.cacheClean r).platform = s.platform ∧
    (s.cacheClean r).stale = s.stale ∧ (s.cacheClean r).mem.read a = s.mem.read a := by
  rcases cacheClean_cases s r with ⟨-, hx⟩ | ⟨hc, hx⟩
  · rw [hx]
    exact ⟨h, rfl, rfl, rfl⟩
  · rw [hx]
    refine ⟨⟨?_, h.unseen⟩, rfl, rfl, ?_⟩
    · exact (runningWrites_disturbed (s := s) a (engineAfterWriteBack_cases s r)).trans h.running
    · exact read_unspecify_other _ _ _ _ fun hsp => hs hc (spoiled_stale s r a hsp)

/-- The region is clear of the lines that a host has written. -/
theorem nothing_dirty {s : State} {r : Region}
    (h : ∀ a ∈ s.uncleaned, ∀ b, (s.platform.line a).contains b = true → r.contains b = false) :
    s.spoiled r = [] ∧ s.dirtyIn r = [] := by
  have hmeets (a : Nat) (ha : a ∈ s.uncleaned) : ¬ r.meets (s.platform.line a) = true := by
    rw [meets_iff]
    rintro ⟨b, hb, hline⟩
    exact absurd hb (by simp [h a ha b hline])
  refine ⟨List.eq_nil_iff_forall_not_mem.mpr fun b hb => ?_,
    List.eq_nil_iff_forall_not_mem.mpr fun a ha => ?_⟩
  · obtain ⟨-, hr, a, ha, hline⟩ := (spoiled_iff s r b).mp hb
    rw [← line_eq s.platform b a hline] at hr
    exact hmeets a ha hr
  · obtain ⟨ha, hr⟩ := List.mem_filter.mp ha
    exact hmeets a ha hr

theorem engineAfterWriteBack_idle {s : State} (h : s.engine = .idle) (r : Region) :
    s.engineAfterWriteBack r = .idle := by
  rcases engineAfterWriteBack_cases s r with hx | hx
  all_goals rw [hx, h]
  rfl

/-! ### The statements -/

/-- Settles O51: the byte is stored and not among the stale ones a host would find unspecified. -/
theorem hostWriteIsReadBack : Obligations.HostWriteIsReadBack := by
  intro s addr v hm ha hrun hunseen
  have hfree : s.contested (uint32 addr) = false := (contested_false s _).mpr ⟨hrun, hunseen⟩
  have hstore := storeByte_of_not_contested v hfree
  have hframe {t : State} (ht : Stored s (uint32 addr) v t) :
      t.regs = s.regs ∧ t.engine = s.engine ∧ t.mem.read (uint32 addr) = v ∧
        SameOutside s.mem t.mem [uint32 addr] := by
    rw [ht.regs, ht.engine, ht.mem, hstore]
    exact ⟨rfl, rfl, read_write_same s.mem _ v hm.1, write_sameOutside s.mem _ v⟩
  constructor
  · have ht := ordinaryWrite_stored s (uint32 addr) v
    obtain ⟨hregs, hengine, hread, hout⟩ := hframe ht
    have hsettled := settled_of_stored hfree ht
    have hat := hostAddress_of_platform ht.platform ha
    have hstale : (s.ordinaryWrite (uint32 addr) v).platform.coherent = false →
        uint32 addr ∉ (s.ordinaryWrite (uint32 addr) v).stale := by
      rw [ht.platform, ordinaryWrite_eq]
      intro hc
      simp [hc, hfree]
    refine ⟨_, _, hostWrite_ok s addr v ha, hregs, hengine, hread, hout,
      handle_memRead hat hsettled hstale, by rw [hread]; rfl, rfl, fun r => ?_⟩
    obtain ⟨hsettled', hplat', hstale', hread'⟩ := cacheClean_settled r hsettled hstale
    refine ⟨_, _, rfl, handle_memRead (hostAddress_of_platform hplat' hat) hsettled' ?_, ?_⟩
    · rwa [hplat', hstale']
    · rw [hread', hread]
      rfl
  · have ht := masterWrite_stored s (uint32 addr) v
    obtain ⟨hregs, hengine, hread, hout⟩ := hframe ht
    obtain ⟨-, -, -, -, -, -, -, huncleaned, hstale⟩ := masterWrite_frame s (uint32 addr) v
    obtain ⟨b, hb, -, hmem⟩ :=
      handle_read (.inr rfl) (hostAddress_of_platform ht.platform ha)
    refine ⟨_, _, busWrite_ok s addr v ha, hregs, hengine, hread, hout, huncleaned, fun hc => ?_,
      hb, rfl, fun hc => ?_⟩
    · rw [hstale, State.engineWrote, if_neg (by simp [hc])]
      exact List.mem_cons_self
    · rw [← ht.platform, ← huncleaned] at hc
      rw [← hread, ← hmem (settled_of_stored hfree ht) (hc.imp_right fun h => ⟨rfl, h⟩)]
      rfl

/-- Settles O52: the write sets the flag of the BUSY phase that the turn looks at. -/
theorem hostWriteDisturbsTheCommand : Obligations.HostWriteDisturbsTheCommand := by
  intro s e addr v latched f i plan he hm hb hi hp htouch hunseen ha ho hn
  obtain ⟨t, htx, ht⟩ := handle_write he ha
  have hrun : s.runningTouches (uint32 addr) = true :=
    (runningTouches_of_plan (runningPlan_busy hb hi hp) _).trans htouch
  have hnone : s.unseenAt (uint32 addr) = [] :=
    List.filter_eq_nil_iff.mpr fun p hq => by simp [hunseen p hq]
  have hstore := storeByte_of_contested v
    (show s.contested (uint32 addr) = true by rw [State.contested, hrun, Bool.true_or])
  obtain ⟨hwf, hkeep⟩ := surviving_write s.mem (uint32 addr) v (Config.hostWriteSurvives s.draws) hm
    (uint32_lt addr)
  have hengine : t.engine = .busy latched true := by
    rw [ht.engine, hstore, hrun, hb]
    rfl
  have hmem : t.mem = if Config.hostWriteSurvives s.draws then s.mem.write (uint32 addr) v
      else s.mem := by
    rw [ht.mem, hstore, hnone]
    rfl
  rw [← hmem] at hwf hkeep
  have ho' : OrdinaryBuffers t plan := by rwa [OrdinaryBuffers, ht.platform]
  have hn' : NoBusFault t plan := by
    have hfaults : t.faults = s.faults := by
      funext kind a
      rw [State.faults, ht.busFaults, State.faults]
    rwa [NoBusFault, hfaults]
  obtain ⟨u, hu, herr, hdone, hunspec, hsame⟩ := engineTurn_interfered hwf hengine hi hp ho' hn'
  refine ⟨t, u, htx, hu, herr, hdone, hunspec, fun a hna => ?_⟩
  obtain ⟨hne, hout⟩ := not_or.mp (List.mem_cons.not.mp hna)
  exact (hsame a hout).trans (hkeep a (by simpa using hne))

/-- Settles O53: the running command's plan decides what a read returns. -/
theorem hostReadWhileRunning : Obligations.HostReadWhileRunning := by
  intro s e addr plan he hp ha
  obtain ⟨b, hb, hunspec, hmem⟩ := handle_read he ha
  have hwrites := runningWrites_of_plan hp (uint32 addr)
  refine ⟨b, hb, fun hin => hunspec (.inl (hwrites.mpr hin)), fun hout hunseen hc => ?_⟩
  exact hmem ⟨Bool.eq_false_iff.mpr fun hw => hout (hwrites.mp hw), hunseen⟩ hc

/-- With the engine IDLE and every end seen, a read returns the byte in memory. -/
theorem read_of_seen {s : State} {e : Event} {addr : Word}
    (he : e = .memRead addr ∨ e = .busRead addr) (hidle : s.engine = .idle)
    (hc : s.platform.coherent = true) (ha : HostAddress s addr) (hseen : s.unseen = []) :
    ∃ u, s.handle e = .next u ∧
      u.readData = BitVec.setWidth 32 (s.mem.read (uint32 addr)) := by
  obtain ⟨b, hb, -, hmem⟩ := handle_read he ha
  refine ⟨_, hb, ?_⟩
  rw [← hmem ⟨runningWrites_idle hidle _, by simp [hseen]⟩ (.inl hc)]
  rfl

/-- Settles O54: either look empties the record of unseen ends. -/
theorem resultSeenAfterDone : Obligations.ResultSeenAfterDone := by
  intro s e addr he hidle hc ha
  refine ⟨fun hdone => ?_, fun hirq => ?_⟩
  · have hbit : bits 1 1 (statusWord s.busy s.regs.done s.readLayoutOvf s.regs.err s.regs.errSlot) =
        1 := by
      obtain ⟨-, hbit, -⟩ :=
        bits_statusWord s.busy s.regs.done s.readLayoutOvf s.regs.err s.regs.errSlot
      rw [hbit, hdone]
      rfl
    obtain ⟨u, hu, hread⟩ := read_of_seen (s := { s with
      regs := { s.regs with layoutOvf := s.readLayoutOvf },
      readData := statusWord s.busy s.regs.done s.readLayoutOvf s.regs.err s.regs.errSlot,
      draws := s.draws + 1, unseen := s.unseenAfter s.regs.done }) he hidle hc ha
      (by rw [hdone]; rfl)
    exact ⟨_, u, regRead_status s, hbit, rfl, hu, hread⟩
  · obtain ⟨u, hu, hread⟩ := read_of_seen (s := s.irqRead) he hidle hc ha
      (by rw [State.irqRead, hirq]; rfl)
    exact ⟨_, u, rfl, by rw [State.irqRead, hirq]; rfl, rfl, hu, hread⟩

/-- Settles O55: the commands the write touches are made unspecified at the write. -/
theorem unseenEndKeepsBuffersOpen : Obligations.UnseenEndKeepsBuffersOpen := by
  intro s e addr v p hp ha
  constructor
  · intro he hin
    obtain ⟨b, hb, hunspec, -⟩ := handle_read he ha
    exact ⟨_, hb, by rw [← hunspec (.inr ⟨p, hp, hin⟩)]; rfl⟩
  · intro he hm htouch
    obtain ⟨t, htx, ht⟩ := handle_write he ha
    have hmemAt (q : Plan) : q ∈ s.unseenAt (uint32 addr) ↔
        q ∈ s.unseen ∧ q.touches (uint32 addr) = true := List.mem_filter
    have hcont : s.contested (uint32 addr) = true := by
      rw [← Bool.not_eq_false, contested_false]
      rintro ⟨-, hno⟩
      exact absurd htouch (by simp [hno p hp])
    obtain ⟨hwf, hkeep⟩ := surviving_write s.mem (uint32 addr) v
      (Config.hostWriteSurvives s.draws) hm (uint32_lt addr)
    have hmem := ht.mem
    rw [storeByte_of_contested v hcont] at hmem
    refine ⟨t, htx, ?_, ht.regs, ?_⟩
    all_goals rw [hmem]
    · intro a hin
      exact unspecify_unspecified hwf _ _ a
        (List.mem_flatMap.mpr ⟨p, (hmemAt p).mpr ⟨hp, htouch⟩, hin⟩)
    · intro a hne hno
      refine (unspecify_sameOutside _ _ _ a fun hin => ?_).trans (hkeep a (by simpa using hne))
      obtain ⟨q, hq, hin⟩ := List.mem_flatMap.mp hin
      obtain ⟨hq, hqt⟩ := (hmemAt q).mp hq
      exact hno q hq hqt hin

/-- Settles O56: START looks at the lines not cleaned, and cleaning at the lines it writes back. -/
theorem uncleanedBuffersAreUnspecified : Obligations.UncleanedBuffersAreUnspecified := by
  refine ⟨fun s i plan a b hm hc ha hi hp hline htouch ho hn => ?_,
    fun s plan r hc hp hcover => ?_, fun s r hc hclear => ?_,
    fun s r latched f plan a b hc he hp ha hr hline hin => ?_⟩
  · have hplan : s.regs.params.plan = some plan := by
      simp only [Params.plan, work_legal (p := s.regs.params) hi, hp]
    have hdirty : s.uncleanedBuffers s.regs.params = true :=
      (uncleanedBuffers_iff s _).mpr ⟨hc, plan, hplan, a, ha, b, hline, htouch⟩
    have hengine : s.start.engine = .busy s.regs.params true := by rw [start_engine, hdirty]
    obtain ⟨u, hu, herr, -, hunspec, hsame⟩ :=
      engineTurn_interfered (s := s.start) hm hengine hi hp ho hn
    exact ⟨u, hu, herr, hunspec, hsame⟩
  · rcases cacheClean_cases s r with ⟨hc', -⟩ | ⟨-, hx⟩
    · exact absurd hc' (by simp [hc])
    refine ⟨_, rfl, cacheClean_regs s r, ?_, fun b hb => ?_⟩
    · refine uncleanedBuffers_false fun q a b hq ha hline => ?_
      rw [cacheClean_regs, hp] at hq
      cases hq
      rw [hx] at ha hline
      obtain ⟨-, hout⟩ := List.mem_filter.mp ha
      rw [Bool.eq_false_iff]
      intro htouch
      have hmeets := (meets_iff r _).mpr ⟨b, hcover b htouch, hline⟩
      exact absurd hout (by simp [hmeets])
    · rw [hx]
      refine read_unspecify_other _ _ _ _ fun hsp => ?_
      obtain ⟨hstale, -, a, ha, hline⟩ := (spoiled_iff s r b).mp hsp
      rcases hb with hb | hb
      · exact hb hstale
      · exact absurd hline (by simp [hb a ha])
  · refine ⟨_, rfl, ?_⟩
    rcases cacheClean_cases s r with ⟨-, hx⟩ | ⟨-, hx⟩
    · rw [hx]
    rw [hx]
    refine engineAfterWriteBack_eq s r (fun a ha b hline => ?_) fun b hb => ?_
    · exact (hclear a (List.mem_filter.mp ha).1 b hline).1
    · obtain ⟨hstale, -, a, ha, hline⟩ := (spoiled_iff s r b).mp hb
      exact (hclear a ha b ((line_contains_comm _ a b).trans hline)).2 hstale
  · refine ⟨_, rfl, ?_⟩
    rcases cacheClean_cases s r with ⟨hc', -⟩ | ⟨-, hx⟩
    · exact absurd hc' (by simp [hc])
    have hrunning : s.runningPlan = some plan := by rw [State.runningPlan, he]; exact hp
    have hwrites : s.runningWritesIn (s.platform.line a) = true := by
      rw [← Bool.not_eq_false, runningWritesIn_false]
      intro hno
      exact absurd ((runningWrites_of_plan hrunning b).mpr hin) (by simp [hno b hline])
    have hdirty : a ∈ s.dirtyIn r := List.mem_filter.mpr ⟨ha, hr⟩
    have hany : ((s.dirtyIn r).any fun a => s.runningWritesIn (s.platform.line a)) = true :=
      List.any_eq_true.mpr ⟨a, hdirty, hwrites⟩
    rw [hx]
    simp only [State.engineAfterWriteBack, hany, Bool.true_or, if_true, he, Engine.disturbed]

/-- Settles O57: an invalidation drops the stale bytes of its lines but those of unseen ends. -/
theorem invalidateBeforeReading : Obligations.InvalidateBeforeReading := by
  intro s addr r hc hidle ha hstale
  refine ⟨⟨_, hostRead_ok s addr ha, ?_⟩, fun hr hclean => ?_⟩
  · rw [ordinaryRead_free (.inr (.inr ⟨hc, hstale⟩))]
    rfl
  · obtain ⟨hspoiled, hdirty⟩ := nothing_dirty hclean
    rcases cacheInvalidate_cases s r with ⟨hc', -⟩ | ⟨-, hx⟩
    · exact absurd hc' (by simp [hc])
    have hmem : (s.cacheInvalidate r).mem = s.mem := by
      rw [hx, hspoiled, hdirty]
      rfl
    have hmeets : r.meets (s.platform.line (uint32 addr)) = true :=
      (meets_iff r _).mpr ⟨_, hr, line_contains s.platform _⟩
    have hkept : uint32 addr ∈ (s.cacheInvalidate r).stale ↔
        ∃ p ∈ s.unseen, uint32 addr ∈ p.writeFootprint := by
      rw [hx, ← unseenWrites_iff]
      simp [hstale, hmeets]
    have hidle' : (s.cacheInvalidate r).engine = .idle := by
      rw [hx]
      exact engineAfterWriteBack_idle hidle r
    refine ⟨_, rfl, hmem, fun hno => ?_, hkept.mpr⟩
    have hunseen : (s.cacheInvalidate r).unseen = s.unseen := by rw [hx]
    have hplat : (s.cacheInvalidate r).platform = s.platform := by rw [hx]
    refine ⟨_, handle_memRead (hostAddress_of_platform hplat ha)
      ⟨runningWrites_idle hidle' _, by rwa [hunseen]⟩ fun _ hin => ?_, by rw [hmem]; rfl⟩
    obtain ⟨p, hp, hw⟩ := hkept.mp hin
    exact hno p hp hw

end Sys2Proof.SharedMemory
